-- ==== Sys2Proof/Word.lean ====
section
/-! DEFINITION. The plain data types of the block: bytes, nibbles, halfwords, words, colours and pixels (R10, R14). -/

namespace Sys2Proof

/-- 8 bits (R10). -/
abbrev Byte := BitVec 8

/-- A palette index: 4 bits per pixel (R9 INDEX_BITS, R14 "4bpp"). -/
abbrev Nib := BitVec 4

/-- 16 bits (R10). -/
abbrev Half := BitVec 16

/-- 32 bits (R10). -/
abbrev Word := BitVec 32

/-- A byte offset into the block's 2 MiB aperture, 0x000000-0x1FFFFF (R60). -/
abbrev Offset := BitVec 21

/-- A palette entry or the ARG0 triple: three 8-bit channels (R31, R43). -/
structure Rgb where
  r : Byte
  g : Byte
  b : Byte
deriving DecidableEq, Repr, Inhabited

/-- A source pixel: four 8-bit channels (R67). -/
structure Rgba where
  r : Byte
  g : Byte
  b : Byte
  a : Byte
deriving DecidableEq, Repr

/-- A tile: 64 palette indices, row-major, index k at row k div 8, column k mod 8 (R14, R150). -/
abbrev Tile := Vector Nib 64

/-- A packed tile: eight 32-bit words (R9 TILE_WORDS). -/
abbrev PackedTile := Vector Word 8

end Sys2Proof
end

