-- ==== Sys2Proof/Syntax.lean ====
section
/-! DEFINITION. The commands of RCQ-CMD version 1 (R104): one constructor for each row of spec/opcode_table.json. -/

namespace Sys2Proof

/-- A command (R100, R104). Operands other than LEN are implicit (R109). -/
inductive Instr where
  /-- QUANT with MODE = 0, the background bound (R130). -/
  | quantBg
  /-- QUANT with MODE = 1, the atlas bound (R130). -/
  | quantAtlas
  /-- ENCPAL (R134). -/
  | encpal
  /-- ENCRGB (R135). -/
  | encrgb
  /-- TPACK with LEN = IMM16, counted in indices (R103, R153). -/
  | tpack (len : BitVec 16)
  /-- TUNPACK with LEN = IMM16, counted in bytes (R103, R154). -/
  | tunpack (len : BitVec 16)
  /-- BGTILE with REMAP = 0 (R170). -/
  | bgtile
  /-- BGTILE with REMAP = 1 (R170). -/
  | bgtileRemap
  /-- ATLAS (R190). -/
  | atlas
  /-- FIND (R200). -/
  | find
  /-- Any other word: the table's "(illegal)" row, which the block accepts and completes with IllegalCommand
  (R106). It carries the whole word, since ERR_ARG1 reports it. -/
  | illegal (word : BitVec 32)
deriving DecidableEq, Repr

end Sys2Proof
end

