-- ==== Sys2Proof/WellFormed.lean ====
section
/-! DEFINITION. Which terms of Instr stand for command words. The typed operands of every legal command are within
range by their types, so the one check is that an illegal term carries a word the opcode map leaves illegal. -/

namespace Sys2Proof

/-- The match/mask pairs of R104: a word is a legal command when word & mask = match for one of them. -/
def legalPatterns : List (Word × Word) :=
  [ (0x01000000, 0xFFFEFFFF)   -- QUANT
  , (0x02000000, 0xFFFFFFFF)   -- ENCPAL
  , (0x03000000, 0xFFFFFFFF)   -- ENCRGB
  , (0x04000000, 0xFFFF0000)   -- TPACK
  , (0x05000000, 0xFFFF0000)   -- TUNPACK
  , (0x06000000, 0xFFFEFFFF)   -- BGTILE
  , (0x07000000, 0xFFFFFFFF)   -- ATLAS
  , (0x08000000, 0xFFFFFFFF) ] -- FIND

/-- Is the word one of the opcode map's commands? (R104) -/
def isLegalWord (w : Word) : Bool := legalPatterns.any fun p => w &&& p.2 == p.1

/-- Well-formedness: every term of a legal command, and an illegal term whose word R104 does not match (R106). -/
def Instr.wellFormed : Instr → Bool
  | .quantBg => true
  | .quantAtlas => true
  | .encpal => true
  | .encrgb => true
  | .tpack _ => true
  | .tunpack _ => true
  | .bgtile => true
  | .bgtileRemap => true
  | .atlas => true
  | .find => true
  | .illegal w => !isLegalWord w

end Sys2Proof
end

