-- ==== Sys2Proof/Decode.lean ====
section
/-! DEFINITION. The command word decoder (R100-R108, R113) and, after it, the encoder (R104, R110). decodeWord is total
on every 32-bit word, as R113 says Exec is; decodeBytes reads a command from bytes, least significant byte first (R62),
and rejects by name a list too short to hold a word. -/

namespace Sys2Proof

/-- OPC = word[31:24] (R101). -/
def opcOf (w : Word) : BitVec 8 := w.extractLsb' 24 8
/-- FLAGS = word[23:16] (R102). -/
def flagsOf (w : Word) : BitVec 8 := w.extractLsb' 16 8
/-- IMM16 = word[15:0] (R103). -/
def immOf (w : Word) : BitVec 16 := w.extractLsb' 0 16

/-- A command with FLAGS = 0 and IMM16 = 0, or an illegal word (R105, R113). -/
def plainCommand (w : Word) (i : Instr) : Instr :=
  if flagsOf w = 0 ∧ immOf w = 0 then i else .illegal w

/-- A command whose FLAGS[0] chooses between two forms, with FLAGS[7:1] = 0 and IMM16 = 0 (R102, R113). -/
def flaggedCommand (w : Word) (i0 i1 : Instr) : Instr :=
  if immOf w ≠ 0 then .illegal w
  else if flagsOf w = 0 then i0
  else if flagsOf w = 1 then i1
  else .illegal w

/-- A command with FLAGS = 0 and LEN = IMM16, which the command itself checks (R103, R105). -/
def lengthCommand (w : Word) (i : BitVec 16 → Instr) : Instr :=
  if flagsOf w = 0 then i (immOf w) else .illegal w

/-- The decoding of every 32-bit word (R113). -/
def decodeWord (w : Word) : Instr :=
  if opcOf w = 0x01 then flaggedCommand w .quantBg .quantAtlas
  else if opcOf w = 0x02 then plainCommand w .encpal
  else if opcOf w = 0x03 then plainCommand w .encrgb
  else if opcOf w = 0x04 then lengthCommand w .tpack
  else if opcOf w = 0x05 then lengthCommand w .tunpack
  else if opcOf w = 0x06 then flaggedCommand w .bgtile .bgtileRemap
  else if opcOf w = 0x07 then plainCommand w .atlas
  else if opcOf w = 0x08 then plainCommand w .find
  else .illegal w

/-- Why a list of bytes holds no command word. -/
inductive DecodeReject where
  /-- Fewer than four bytes: every command is exactly one word long (R100). -/
  | truncated
deriving DecidableEq, Repr

/-- Read one command from the front of a list of bytes, little-endian (R62, R108), with the bytes that follow it. -/
def decodeBytes : List Byte → Except DecodeReject (Instr × List Byte)
  | b0 :: b1 :: b2 :: b3 :: rest => .ok (decodeWord (b3 ++ b2 ++ b1 ++ b0), rest)
  | _ => .error .truncated

/-- The command word of an instruction (R104, R110). -/
def encode : Instr → Word
  | .quantBg => 0x01000000
  | .quantAtlas => 0x01010000
  | .encpal => 0x02000000
  | .encrgb => 0x03000000
  | .tpack len => (0x0400 : BitVec 16) ++ len
  | .tunpack len => (0x0500 : BitVec 16) ++ len
  | .bgtile => 0x06000000
  | .bgtileRemap => 0x06010000
  | .atlas => 0x07000000
  | .find => 0x08000000
  | .illegal w => w

/-- The four bytes of a word, least significant first (R62). -/
def wordBytes (w : Word) : List Byte :=
  [w.extractLsb' 0 8, w.extractLsb' 8 8, w.extractLsb' 16 8, w.extractLsb' 24 8]

/-- The bytes of a command word, least significant first (R62). -/
def encodeBytes (i : Instr) : List Byte := wordBytes (encode i)

/-- The command the decoder reads from a table word of nbits bits (spec/opcode_table.json's bit numbers), every bit
above nbits zero; none where the word is longer than a command (R100). -/
def decodeTableWord (nbits w : Nat) : Option Instr :=
  if nbits ≤ 32 then
    match decodeBytes (wordBytes (BitVec.ofNat 32 (w % 2 ^ nbits))) with
    | .ok (i, _) => some i
    | .error _ => none
  else none

end Sys2Proof
end

