-- ==== Sys2Proof/Config.lean ====
section
/-! DEFINITION. The parameters of the block: the constants the spec fixes (R9, R22, R36, R61) and, as opaque
constants without a body, what it leaves open (QFN, R131; BASE and BUS_PROTOCOL, R9; the free values behind
"unspecified", R85, R252, R255). Nothing can be proved about an opaque constant's value. -/

namespace Sys2Proof.Config

/-- PALETTE_SIZE (R9). -/
def paletteSize : Nat := 16
/-- CANVAS_W (R9): the background bound of QUANT MODE 0. -/
def canvasW : Nat := 256
/-- CANVAS_H (R9). -/
def canvasH : Nat := 160
/-- MAP_W_MAX (R9). -/
def mapWMax : Nat := 32
/-- MAP_H_MAX (R9). -/
def mapHMax : Nat := 20
/-- CAM_ENTRIES (R9, R37). -/
def camEntries : Nat := 640
/-- TILE_BUF_TILES (R9). -/
def tileBufTiles : Nat := 1024
/-- REGION_MAX (R9). -/
def regionMax : Nat := 128
/-- NAME_BYTES (R9). -/
def nameBytes : Nat := 32
/-- The largest sprite dimension the strict size mode admits (R198). -/
def strictBound : Nat := 64

/-- ID: PART 0x5243, REV 0x0007 (R22). -/
def idWord : Word := 0x52430007
/-- CFG0 with the default raster limits 256 × 160 (R36, R251). -/
def cfg0Default : Word := 0x00A00100
/-- CFG1: TILE_BUF_TILES = 1024, REGION_MAX = 128 (R36). -/
def cfg1Word : Word := 0x00800400
/-- CFG2: NAME_BYTES = 32, PALETTE_SIZE = 16, MAP_W_MAX = 32, MAP_H_MAX = 20 (R36). -/
def cfg2Word : Word := 0x14201020

/-! The bases of the address map (R61), as block offsets. -/

def tidxBase : Nat := 0x000100
def twordBase : Nat := 0x000140
def keyBase : Nat := 0x000160
def palBase : Nat := 0x000200
def palwBase : Nat := 0x000240
def mapBase : Nat := 0x000400
def regionBase : Nat := 0x002000
def descBase : Nat := 0x004000
def nameBase : Nat := 0x005000
def tileBufBase : Nat := 0x008000
def idxBase : Nat := 0x020000
def srcBase : Nat := 0x100000

/-- The value that stands for "no region is involved" in ERR_ARG0 (R27) and for "not found" in RESULT (R200). -/
def allOnes : Word := 0xFFFFFFFF

/-- FREE VALUE (R85, R252, R255; U8, U9): what an unspecified location holds. The first argument is the number
of the draw (0: the power-on before State.reset), the second the block offset of the location; a location
narrower than 32 bits takes the low bits. A function of both, so that the value is stable until it is written. -/
opaque freeValue : Nat → Nat → BitVec 32

/-! QFN (R131, U1, U2): the three results of the quantizer's colour reduction, before the bounds Q2-Q4 are put
on them (Machine/Quantizer.lean). Functions of the geometry and the pixels alone (Q1). -/

/-- QFN's palette length, unbounded. -/
opaque qfnLength : Nat → Nat → List Rgba → Nat
/-- QFN's palette entry k. -/
opaque qfnEntry : Nat → Nat → List Rgba → Nat → Rgb
/-- QFN's index of pixel p, unbounded. -/
opaque qfnIndex : Nat → Nat → List Rgba → Nat → Nat

/-- BUS_PROTOCOL (R9, R228, U5), as far as the block's port shows it: does a refused access also return a bus
error response? -/
opaque refusalIsBusError : Bool

/-- BASE (R9, U4): the platform address of the aperture. No rule depends on it. -/
opaque base : Nat

/-- The platform address of a block offset (R60). -/
def platformAddress (off : Offset) : Nat := base + off.toNat

end Sys2Proof.Config
end

