-- ==== Sys2Proof/Machine/State.lean ====
section
/-! DEFINITION. The state of the block: every register, register file, memory and hidden structure of 10_state.md, and
the model's own fields (the free values' counters, the pending events, the bus port's last answer). Plain data. -/

namespace Sys2Proof.Machine

/-- The two interrupt enables and the strict size mode of CTRL (R23). SOFT_RESET reads 0 and has no storage. -/
structure Ctrl where
  ieDone : Bool
  ieErr : Bool
  strictSize : Bool
deriving DecidableEq, Repr

/-- The five flags of STATUS (R24). Bits 31:5 are reserved and read 0. -/
structure Status where
  busy : Bool
  done : Bool
  error : Bool
  cmdrej : Bool
  buserr : Bool
deriving DecidableEq, Repr

/-- A valid CAM entry (R37): a tile's 64 indices as a 256-bit key, and its tile-set index. An invalid entry is not
listed. -/
structure CamEntry where
  key : BitVec 256
  index : BitVec 10
deriving DecidableEq, Repr

/-- The block's memories, as a list of (block offset, byte) pairs with offsets strictly rising: the bytes written
since the memory's last draw. An offset that is not listed holds no written value. -/
abbrev Memory := List Host.Cell

/-- THE MODEL'S OWN: for each of the seven memories, the number of the draw that its unwritten bytes come from
(R85, R255). -/
structure Epochs where
  src : Nat
  idx : Nat
  map : Nat
  tileBuf : Nat
  region : Nat
  desc : Nat
  name : Nat
deriving DecidableEq, Repr

/-- The width of a host access (R59, R63). -/
inductive Width where
  | w8
  | w16
  | w32
deriving DecidableEq, Repr

/-- THE MODEL'S OWN: one thing that happens next, in the order the platform and the engine's latency choose (R79,
R84, R262). A write's value is the low bits of v. -/
inductive Event where
  /-- The engine's turn: its pending step, if it has one (R40). -/
  | engine
  /-- A host read. -/
  | read (w : Width) (off : Offset)
  /-- A host write. -/
  | write (w : Width) (off : Offset) (v : Word)
  /-- RST is asserted and released (R250). -/
  | rst
deriving DecidableEq, Repr

/-- THE MODEL'S OWN: what the bus slave port answers to an access: the data of a read (0 for a write), and whether
it is a bus error response (R59, R228). -/
structure Response where
  data : Word
  busError : Bool
deriving DecidableEq, Repr

/-- The error kinds of R221. -/
inductive ErrKind where
  | none
  | invalidGeometry
  | geometryOutOfBounds
  | invalidTileSize
  | regionOutOfBounds
  | regionSizeInvalid
  /-- Reserved for host software; the block never raises it (R221). -/
  | manifestMalformed
  | illegalCommand
  | capacityExceeded
deriving DecidableEq, Repr

/-- A raised error with its context (R224, R225). -/
structure CmdError where
  kind : ErrKind
  arg0 : Word
  arg1 : Word
  arg2 : Word
deriving DecidableEq, Repr

/-- The windows of the address map (R61). -/
inductive Window where
  | registers
  | tidx
  | tword
  | key
  | pal
  | palw
  | map
  | region
  | desc
  | name
  | tileBuf
  | idx
  | src
  | reserved
deriving DecidableEq, Repr

/-- The registers of 10_state.md, R22-R36. -/
inductive Reg where
  | id
  | ctrl
  | status
  | cmd
  | errCode
  | errArg0
  | errArg1
  | errArg2
  | imgW
  | imgH
  | mapW
  | mapH
  | regionCount
  | arg0
  | result
  | palCount
  | tileCount
  | wordCount
  | mapCount
  | nameCount
  | cfg0
  | cfg1
  | cfg2
deriving DecidableEq, Repr

/-- The machine's state. ID, CFG1 and CFG2 are constants (Config); IRQ is a function of ctrl and status
(Machine/Flags.lean). -/
@[ext]
structure State where
  /-- CTRL (R23). -/
  ctrl : Ctrl
  /-- STATUS (R24). -/
  status : Status
  /-- CMD: the last accepted command word (R25). -/
  cmd : Word
  /-- ERR_CODE[7:0] (R26). -/
  errCode : BitVec 8
  /-- ERR_ARG0 (R27). -/
  errArg0 : Word
  /-- ERR_ARG1 (R27). -/
  errArg1 : Word
  /-- ERR_ARG2 (R27). -/
  errArg2 : Word
  /-- IMG_W[15:0] (R28). -/
  imgW : Half
  /-- IMG_H[15:0] (R28). -/
  imgH : Half
  /-- MAP_W[15:0] (R29). -/
  mapW : Half
  /-- MAP_H[15:0] (R29). -/
  mapH : Half
  /-- REGION_COUNT[15:0] (R30). -/
  regionCount : Half
  /-- ARG0[23:0] (R31). -/
  arg0 : Rgb
  /-- RESULT (R32). -/
  result : Word
  /-- PAL_COUNT[4:0] (R33). -/
  palCount : BitVec 5
  /-- TILE_COUNT[15:0] (R34). -/
  tileCount : Half
  /-- WORD_COUNT[15:0] (R34). -/
  wordCount : Half
  /-- MAP_COUNT[15:0] (R35). -/
  mapCount : Half
  /-- NAME_COUNT[15:0] (R35). -/
  nameCount : Half
  /-- CFG0: [15:0] RASTER_MAX_W, [31:16] RASTER_MAX_H, the block's open raster limits (R9, R36). No command and no
  access changes it. -/
  cfg0 : Word
  /-- The CAM's valid entries (R37). -/
  cam : List CamEntry
  /-- TIDX[0..63] (R42). -/
  tidx : Tile
  /-- TWORD[0..7] (R42). -/
  tword : PackedTile
  /-- KEY[0..31] (R42). -/
  key : Vector Byte 32
  /-- PAL[0..15] (R43). -/
  pal : Vector Rgb 16
  /-- PALW[0..15], bits [14:0]; bit 15 is hardwired to 0 (R43). -/
  palw : Vector (BitVec 15) 16
  /-- The seven memories of R44, by block offset. -/
  mem : Memory
  /-- THE MODEL'S OWN: the draw each memory's unwritten bytes come from. -/
  epochs : Epochs
  /-- THE MODEL'S OWN: how many draws have been made. -/
  draws : Nat
  /-- THE MODEL'S OWN: what happens next. -/
  events : List Event
  /-- THE MODEL'S OWN: the bus port's answer to the last access. -/
  response : Option Response
deriving DecidableEq, Repr

/-- Why the machine stops. It has no constructor: the block has no traps, every error is a completion status
(R220), and a refused access is answered (R63), so no instruction and no step raises a fault. -/
inductive Fault
deriving DecidableEq, Repr

/-- Why a command has no meaning in the model. -/
inductive Refusal where
  /-- Answered by exec's arm of a command that has no meaning yet; safe, since the model stops. No arm of this model
  answers it. -/
  | notModelled (mnemonic : String)
deriving DecidableEq, Repr

/-- CTRL after reset (R251). -/
def Ctrl.reset : Ctrl := ⟨false, false, false⟩

/-- STATUS after reset (R251). -/
def Status.reset : Status := ⟨false, false, false, false, false⟩

/-- The state after power-on reset (R250-R253) of a block whose CFG0 is cfg0, its unspecified contents taken from
draw n. -/
def State.powerOn (cfg0 : Word) (n : Nat) : State where
  ctrl := Ctrl.reset
  status := Status.reset
  cmd := 0
  errCode := 0
  errArg0 := 0
  errArg1 := 0
  errArg2 := 0
  imgW := 0
  imgH := 0
  mapW := 32
  mapH := 20
  regionCount := 0
  arg0 := ⟨0, 0, 0⟩
  result := 0
  palCount := 0
  tileCount := 0
  wordCount := 0
  mapCount := 0
  nameCount := 0
  cfg0 := cfg0
  cam := []
  tidx := Vector.replicate 64 0
  tword := Vector.replicate 8 0
  key := Vector.replicate 32 0
  pal := Vector.ofFn fun k =>
    let v := Config.freeValue n (Config.palBase + 4 * k)
    ⟨v.extractLsb' 0 8, v.extractLsb' 8 8, v.extractLsb' 16 8⟩
  palw := Vector.ofFn fun k => (Config.freeValue n (Config.palwBase + 2 * k)).setWidth 15
  mem := []
  epochs := ⟨n, n, n, n, n, n, n⟩
  draws := n + 1
  events := []
  response := none

/-- The machine right after reset (R250-R253), with the default raster limits and the first draw. -/
def State.reset : State := State.powerOn Config.cfg0Default 0

end Sys2Proof.Machine
end

