-- ==== Sys2Proof/Machine/AddressMap.lean ====
section
/-! DEFINITION. The address map of the aperture (R61), the register offsets (R22-R36), the physical sizes of the two
raster memories (R44, R65), and the bytes that are hard-wired to 0 (V15). -/

namespace Sys2Proof.Machine

/-- The window a block offset lies in (R61). -/
def windowOf (a : Nat) : Window :=
  if a < 0x000100 then .registers
  else if a < 0x000140 then .tidx
  else if a < 0x000160 then .tword
  else if a < 0x000180 then .key
  else if a < 0x000200 then .reserved
  else if a < 0x000240 then .pal
  else if a < 0x000260 then .palw
  else if a < 0x000400 then .reserved
  else if a < 0x000900 then .map
  else if a < 0x002000 then .reserved
  else if a < 0x004000 then .region
  else if a < 0x005000 then .desc
  else if a < 0x006000 then .name
  else if a < 0x008000 then .reserved
  else if a < 0x010000 then .tileBuf
  else if a < 0x020000 then .reserved
  else if a < 0x040000 then .idx
  else if a < 0x100000 then .reserved
  else if a < 0x200000 then .src
  else .reserved

/-- The block offset of a register (R22-R36). -/
def regOffset : Reg → Nat
  | .id => 0x000
  | .ctrl => 0x004
  | .status => 0x008
  | .cmd => 0x00C
  | .errCode => 0x010
  | .errArg0 => 0x014
  | .errArg1 => 0x018
  | .errArg2 => 0x01C
  | .imgW => 0x020
  | .imgH => 0x024
  | .mapW => 0x028
  | .mapH => 0x02C
  | .regionCount => 0x030
  | .arg0 => 0x034
  | .result => 0x038
  | .palCount => 0x03C
  | .tileCount => 0x040
  | .wordCount => 0x044
  | .mapCount => 0x048
  | .nameCount => 0x04C
  | .cfg0 => 0x050
  | .cfg1 => 0x054
  | .cfg2 => 0x058

/-- Every register, in offset order. -/
def allRegs : List Reg :=
  [.id, .ctrl, .status, .cmd, .errCode, .errArg0, .errArg1, .errArg2, .imgW, .imgH, .mapW, .mapH, .regionCount,
   .arg0, .result, .palCount, .tileCount, .wordCount, .mapCount, .nameCount, .cfg0, .cfg1, .cfg2]

/-- The register at a block offset, if there is one (R22-R36; 0x05C-0x0FC hold none). -/
def regAt (a : Nat) : Option Reg := allRegs.find? fun r => regOffset r == a

/-- RASTER_MAX_W = CFG0[15:0] (R36). -/
def State.rasterMaxW (s : State) : Nat := (s.cfg0.extractLsb' 0 16).toNat

/-- RASTER_MAX_H = CFG0[31:16] (R36). -/
def State.rasterMaxH (s : State) : Nat := (s.cfg0.extractLsb' 16 16).toNat

/-- The bytes of SRC RAM (R44). -/
def State.srcBytes (s : State) : Nat := s.rasterMaxW * s.rasterMaxH * 4

/-- The bytes of IDX RAM (R44). -/
def State.idxBytes (s : State) : Nat := s.rasterMaxW * s.rasterMaxH / 2

/-- The memory bytes that read 0 and ignore writes: REGION bytes +48..+63 (R74) and DESC word 7 (V15, log 8). -/
def hardZero (a : Nat) : Bool :=
  match windowOf a with
  | .region => decide (48 ≤ a % 64)
  | .desc => decide (28 ≤ a % 32)
  | _ => false

/-- The one form every memory keeps (log 9): offsets strictly rising, and no entry where every offset reads 0 anyway.
Anywhere else an unlisted offset holds no written value, which no entry equals. -/
abbrev Memory.wf (m : Memory) : Prop :=
  (m.Pairwise fun x y => x.1 < y.1) ∧ ∀ c ∈ m, hardZero c.1 = false

/-- The draw the unwritten bytes of an offset's memory come from (R85). -/
def epochOf (e : Epochs) (a : Nat) : Nat :=
  match windowOf a with
  | .src => e.src
  | .idx => e.idx
  | .map => e.map
  | .tileBuf => e.tileBuf
  | .region => e.region
  | .desc => e.desc
  | .name => e.name
  | .registers => 0
  | .tidx => 0
  | .tword => 0
  | .key => 0
  | .pal => 0
  | .palw => 0
  | .reserved => 0

end Sys2Proof.Machine
end

