-- ==== Sys2Proof/Machine/Ops.lean ====
section
/-! DEFINITION. The shared operations: reading and writing the memories, completing a command, raising an error (the
block's one exception, R224) and acknowledging it (the return from it, R226), and accepting a command (R39). -/

namespace Sys2Proof.Machine

/-! ## Memory -/

/-- The byte written at an offset, if one has been written since the memory's last draw. -/
def memLookup : Memory → Nat → Option Byte
  | [], _ => none
  | (k, b) :: m, a => if k = a then some b else memLookup m a

/-- The cells of consecutive bytes from base on. -/
def cellsOf (base : Nat) : List Byte → Memory
  | [] => []
  | b :: bs => (base, b) :: cellsOf (base + 1) bs

/-- The memory with the bytes bs at base, base + 1, … A hard-wired byte is never stored (V15). -/
def memWrite (m : Memory) (base : Nat) (bs : List Byte) : Memory :=
  m.filter (fun c => decide (c.1 < base))
    ++ (cellsOf base bs).filter (fun c => !hardZero c.1)
    ++ m.filter (fun c => decide (base + bs.length ≤ c.1))

/-- The memory without any byte of a window: what a fresh draw of that window leaves. -/
def memForget (m : Memory) (win : Window) : Memory := m.filter fun c => windowOf c.1 != win

/-- The byte at a block offset of one of the memories (R62, R85): hard-wired bytes read 0, a written byte reads as
written, and any other holds the free value of its memory's last draw. -/
def memByte (s : State) (a : Nat) : Byte :=
  if hardZero a then 0
  else (memLookup s.mem a).getD ((Config.freeValue (epochOf s.epochs a) a).setWidth 8)

/-- Store consecutive bytes. -/
def storeBytes (s : State) (base : Nat) (bs : List Byte) : State := { s with mem := memWrite s.mem base bs }

/-- Byte k of a word's little-endian image (R62). -/
def byteOfWord (w : Word) (k : Nat) : Byte := w.extractLsb' (8 * k) 8

/-- A word with byte k of its little-endian image replaced (R62). -/
def setByteOfWord (w : Word) (k : Nat) (b : Byte) : Word :=
  (w &&& ~~~((0xFF : Word) <<< (8 * k))) ||| (b.setWidth 32 <<< (8 * k))

/-- The little-endian image of a word: four bytes (R62). -/
def bytesOfWord (w : Word) : List Byte := [byteOfWord w 0, byteOfWord w 1, byteOfWord w 2, byteOfWord w 3]

/-- The little-endian image of a halfword: two bytes (R62). -/
def bytesOfHalf (h : Half) : List Byte := [h.extractLsb' 0 8, h.extractLsb' 8 8]

/-- The value of n bytes given by their offsets, least significant first: Σ byte(a+k) << 8k (R62). -/
def littleEndian (byte : Nat → Byte) (a : Nat) : Nat → Nat
  | 0 => 0
  | n + 1 => littleEndian byte a n + (byte (a + n)).toNat * 2 ^ (8 * n)

/-- The 32-bit word at an offset of the memories: MemRead(a, 4) (R12, R62). -/
def memWord (s : State) (a : Nat) : Word := BitVec.ofNat 32 (littleEndian (memByte s) a 4)

/-! ## The indexed raster -/

/-- Nib(p): the 4-bit index of linear pixel p (R68). -/
def nib (s : State) (p : Nat) : Nib :=
  let b := memByte s (Config.idxBase + p / 2)
  if p % 2 = 0 then b.extractLsb' 0 4 else b.extractLsb' 4 4

/-- The bytes that hold pixels 0 to n − 1 with the indices f, two a byte, the even pixel in the low nibble (R68). A
last odd pixel leaves the other nibble of its byte as it was. -/
def nibBytes (old f : Nat → Nib) (n : Nat) : List Byte :=
  (List.range ((n + 1) / 2)).map fun j =>
    (if 2 * j + 1 < n then f (2 * j + 1) else old (2 * j + 1)) ++ f (2 * j)

/-- SetNib(p, f p) for every p in 0 .. n − 1 (R68). -/
def setNibs (s : State) (f : Nat → Nib) (n : Nat) : State :=
  storeBytes s Config.idxBase (nibBytes (nib s) f n)

/-- Px(x, y): the index at column x, row y, through the current IMG_W (R12, R68). -/
def px (s : State) (x y : Nat) : Nib := nib s (y * s.imgW.toNat + x)

/-! ## Completion and errors -/

/-- ERR_CODE of an error kind (R221). -/
def errCodeOf : ErrKind → BitVec 8
  | .none => 0x00
  | .invalidGeometry => 0x01
  | .geometryOutOfBounds => 0x02
  | .invalidTileSize => 0x03
  | .regionOutOfBounds => 0x04
  | .regionSizeInvalid => 0x05
  | .manifestMalformed => 0x06
  | .illegalCommand => 0x07
  | .capacityExceeded => 0x08

/-- The Ok arm of the engine step: BUSY <- 0, DONE <- 1 (R40). -/
def completeOk (s : State) : State := { s with status := { s.status with busy := false, done := true } }

/-- Taking an error, the Err arm of the engine step: the code and its context are latched, BUSY <- 0, ERROR <- 1, and
nothing else changes (R40, R224). -/
def raiseError (e : CmdError) (s : State) : State :=
  { s with
    errCode := errCodeOf e.kind
    errArg0 := e.arg0
    errArg1 := e.arg1
    errArg2 := e.arg2
    status := { s.status with busy := false, error := true } }

/-- The return from an error: W1C on STATUS.ERROR clears ERROR, ERR_CODE and ERR_ARG0-2 (R24, R226). -/
def ackError (s : State) : State :=
  { s with
    errCode := 0
    errArg0 := 0
    errArg1 := 0
    errArg2 := 0
    status := { s.status with error := false } }

/-- The engine step's end (R40): a command's writes, made on the state the step began in, or its error. -/
def finish (s : State) (r : Except CmdError State) : Host.Outcome State Fault Refusal :=
  match r with
  | .ok t => .next (completeOk t)
  | .error e => .next (raiseError e s)

/-- The error of a command's geometry check: no region, IMG_W and IMG_H (R225). -/
def geometryError (kind : ErrKind) (s : State) : CmdError :=
  ⟨kind, Config.allOnes, s.imgW.setWidth 32, s.imgH.setWidth 32⟩

/-! ## Acceptance -/

/-- A host write of w to CMD (R39): discarded with CMDREJ while BUSY or ERROR is 1, else accepted. -/
def offerCommand (w : Word) (s : State) : State :=
  if s.status.busy || s.status.error then { s with status := { s.status with cmdrej := true } }
  else { s with cmd := w, status := { s.status with done := false, busy := true } }

/-- The command word the engine's pending step executes, if it has one (R38). -/
def pendingCommand (s : State) : Option Word := if s.status.busy then some s.cmd else none

end Sys2Proof.Machine
end

