-- ==== Sys2Proof/Machine/Flags.lean ====
section
/-! DEFINITION. The status and control words as the host sees them (R23, R24), the W1C write (R24, R226), the CTRL
write's plain bits (R23) and the interrupt output (R229). The commands set no condition codes (R41). -/

namespace Sys2Proof.Machine

/-- Bit i of a word, from a flag. -/
def flagBit (b : Bool) (i : Nat) : Word := (if b then (1 : Word) else 0) <<< i

/-- The STATUS word: BUSY, DONE, ERROR, CMDREJ, BUSERR in bits 0-4, the rest 0 (R24). -/
def statusWord (t : Status) : Word :=
  flagBit t.busy 0 ||| flagBit t.done 1 ||| flagBit t.error 2 ||| flagBit t.cmdrej 3 ||| flagBit t.buserr 4

/-- The CTRL word: IE_DONE, IE_ERR, STRICT_SIZE in bits 0-2; bits 30:3 are reserved and SOFT_RESET reads 0 (R23). -/
def ctrlWord (c : Ctrl) : Word := flagBit c.ieDone 0 ||| flagBit c.ieErr 1 ||| flagBit c.strictSize 2

/-- A host write of v to STATUS: writing 1 clears DONE, ERROR, CMDREJ and BUSERR; clearing ERROR also clears the error
registers (R24, R226). BUSY is read-only. -/
def writeStatus (v : Word) (s : State) : State :=
  let s1 := if v.getLsbD 2 then ackError s else s
  { s1 with
    status :=
      { s1.status with
        done := s1.status.done && !v.getLsbD 1
        cmdrej := s1.status.cmdrej && !v.getLsbD 3
        buserr := s1.status.buserr && !v.getLsbD 4 } }

/-- A host write of v to CTRL with bit 31 = 0: the enables, and STRICT_SIZE unless BUSY (R23). -/
def writeCtrlBits (v : Word) (s : State) : State :=
  { s with
    ctrl :=
      { ieDone := v.getLsbD 0
        ieErr := v.getLsbD 1
        strictSize := if s.status.busy then s.ctrl.strictSize else v.getLsbD 2 } }

/-- A refused access: BUSERR <- 1 (R63, R228). -/
def setBusErr (s : State) : State := { s with status := { s.status with buserr := true } }

/-- The interrupt output (R229). -/
def State.irq (s : State) : Bool := (s.status.done && s.ctrl.ieDone) || (s.status.error && s.ctrl.ieErr)

end Sys2Proof.Machine
end

