-- ==== Sys2Proof/Machine/Operands.lean ====
section
/-! DEFINITION. The operand forms (R109): source pixels (R67), tiles cut from the raster (R150), packing and unpacking
(R151, R152), region records (R74), names (R76) and the geometry checks of the commands (R130, R170, R191). -/

namespace Sys2Proof.Machine

/-- Source pixel p, from the word at SRC offset 4p (R67, R130). -/
def srcPixel (s : State) (p : Nat) : Rgba :=
  let v := memWord s (Config.srcBase + 4 * p)
  ⟨v.extractLsb' 0 8, v.extractLsb' 8 8, v.extractLsb' 16 8, v.extractLsb' 24 8⟩

/-- Block(x, y): the tile whose top-left pixel is (x, y) (R150). -/
def block (s : State) (x y : Nat) : Tile := Vector.ofFn fun k => px s (x + k % 8) (y + k / 8)

/-- Index k of a tile; 0 past its end, which no rule reads. -/
def tileNib (t : Tile) (k : Nat) : Nib := t[k]?.getD 0

/-- Byte m of a packed tile: the first index of the pair in the low nibble (R151). -/
def packByte (t : Tile) (m : Nat) : Byte := tileNib t (2 * m + 1) ++ tileNib t (2 * m)

/-- Pack(t): eight little-endian words of four bytes each (R151). -/
def pack (t : Tile) : PackedTile :=
  Vector.ofFn fun j => packByte t (4 * j + 3) ++ packByte t (4 * j + 2) ++ packByte t (4 * j + 1) ++ packByte t (4 * j)

/-- Unpack(w): index 8j + n is bits [4n+3:4n] of word j (R152). -/
def unpack (w : PackedTile) : Tile := Vector.ofFn fun k => (w[k / 8]?.getD 0).extractLsb' (4 * (k % 8)) 4

/-- The 32 bytes of a packed tile, in TILE_BUF's order (R73, R151). -/
def packedBytes (t : Tile) : List Byte := (pack t).toList.flatMap bytesOfWord

/-- The blank tile: 64 indices of 0 (R14, R172). -/
def blankTile : Tile := Vector.replicate 64 0

/-- The CAM key of a tile: index k at key bits [4k+3:4k] (R37). -/
def keyOf (t : Tile) : BitVec 256 :=
  BitVec.ofNat 256 (t.toList.foldr (fun v acc => v.toNat + 16 * acc) 0)

/-- A region record's numeric fields as raw words (R74). -/
structure RegionRec where
  x : Word
  y : Word
  w : Word
  h : Word
deriving DecidableEq, Repr

/-- The block offset of REGION[i] (R74). -/
def regionAddr (i : Nat) : Nat := Config.regionBase + 64 * i

/-- REGION[i]'s X, Y, W and H words (R74). -/
def regionRec (s : State) (i : Nat) : RegionRec :=
  ⟨memWord s (regionAddr i), memWord s (regionAddr i + 4), memWord s (regionAddr i + 8), memWord s (regionAddr i + 12)⟩

/-- REGION[i].NAME: bytes +16 to +47 (R74). -/
def regionName (s : State) (i : Nat) : List Byte :=
  (List.range Config.nameBytes).map fun b => memByte s (regionAddr i + 16 + b)

/-- The block offset of DESC[i] (R75). -/
def descAddr (i : Nat) : Nat := Config.descBase + 32 * i

/-- The block offset of NAME[i] (R76). -/
def nameAddr (i : Nat) : Nat := Config.nameBase + 32 * i

/-- Does NAME[i] equal KEY in all 32 bytes? (R200) -/
def nameMatches (s : State) (i : Nat) : Bool :=
  (List.range Config.nameBytes).all fun b => memByte s (nameAddr i + b) == s.key[b]?.getD 0

/-- QUANT's and ATLAS's raster test passes: both dimensions non-zero, multiples of 8 and within the bounds (R130, R191). -/
def rasterOk (s : State) (maxW maxH : Nat) : Bool :=
  let w := s.imgW.toNat
  let h := s.imgH.toNat
  !(w == 0 || h == 0 || w % 8 != 0 || h % 8 != 0 || decide (maxW < w) || decide (maxH < h))

/-- BGTILE's geometry test passes (R170). -/
def backgroundOk (s : State) : Bool :=
  let w := s.imgW.toNat
  let h := s.imgH.toNat
  let mw := s.mapW.toNat
  let mh := s.mapH.toNat
  !(decide (mw < 1) || decide (Config.mapWMax < mw) || decide (mh < 1) || decide (Config.mapHMax < mh)
    || w == 0 || w % 8 != 0 || h % 8 != 0 || decide (8 * mw < w) || h != 8 * mh)

end Sys2Proof.Machine
end

