-- ==== Sys2Proof/Machine/Reset.lean ====
section
/-! DEFINITION. Power-on reset (R250-R253), soft reset (R254) and what a soft reset during a command leaves (R255). -/

namespace Sys2Proof.Machine

/-- RST asserted and released: State.powerOn with a fresh draw for every unspecified location (R250, R252). The block's
CFG0 and the events still to come are not the block's to reset (log 7). -/
def powerOnReset (s : State) : State :=
  { State.powerOn s.cfg0 s.draws with events := s.events }

/-! ## The free values of an aborted command (R255, U9) -/

/-- PAL as draw n leaves it. -/
def drawPal (n : Nat) : Vector Rgb 16 := (State.powerOn 0 n).pal

/-- PALW[14:0] as draw n leaves it. -/
def drawPalw (n : Nat) : Vector (BitVec 15) 16 := (State.powerOn 0 n).palw

/-- TIDX as draw n leaves it. -/
def drawTidx (n : Nat) : Tile := Vector.ofFn fun k => (Config.freeValue n (Config.tidxBase + k)).setWidth 4

/-- TWORD as draw n leaves it. -/
def drawTword (n : Nat) : PackedTile := Vector.ofFn fun j => Config.freeValue n (Config.twordBase + 4 * j)

/-- The index of pixel p as draw n leaves it. -/
def drawNib (n p : Nat) : Nib :=
  let b : Byte := (Config.freeValue n (Config.idxBase + p / 2)).setWidth 8
  if p % 2 = 0 then b.extractLsb' 0 4 else b.extractLsb' 4 4

/-- The pixels 0 .. IMG_W·IMG_H − 1 that QUANT could write, as far as IDX RAM holds them (R109). -/
def quantPixels (s : State) : Nat := min (s.imgW.toNat * s.imgH.toNat) (2 * s.idxBytes)

/-- QUANT's outputs unspecified: IDX pixels 0 .. IMG_W·IMG_H − 1 and PAL (R109, R255). -/
def drawQuantOutputs (n : Nat) (s : State) : State :=
  { setNibs s (drawNib n) (quantPixels s) with pal := drawPal n }

/-- TILE_BUF unspecified. -/
def drawTileBuf (n : Nat) (s : State) : State :=
  { s with mem := memForget s.mem .tileBuf, epochs := { s.epochs with tileBuf := n } }

/-- MAP RAM unspecified. -/
def drawMap (n : Nat) (s : State) : State :=
  { s with mem := memForget s.mem .map, epochs := { s.epochs with map := n } }

/-- IDX RAM unspecified. -/
def drawIdx (n : Nat) (s : State) : State :=
  { s with mem := memForget s.mem .idx, epochs := { s.epochs with idx := n } }

/-- DESC RAM unspecified. -/
def drawDesc (n : Nat) (s : State) : State :=
  { s with mem := memForget s.mem .desc, epochs := { s.epochs with desc := n } }

/-- NAME RAM unspecified. -/
def drawName (n : Nat) (s : State) : State :=
  { s with mem := memForget s.mem .name, epochs := { s.epochs with name := n } }

/-- Every location the command could write holds the free value of draw n (R109's "writes" column, R255). RESULT, the
counters and the CAM are soft reset's own (R254). -/
def drawOutputs (i : Instr) (n : Nat) (s : State) : State :=
  match i with
  | .quantBg => drawQuantOutputs n s
  | .quantAtlas => drawQuantOutputs n s
  | .encpal => { s with palw := drawPalw n }
  | .encrgb => s
  | .tpack _ => { s with tword := drawTword n }
  | .tunpack _ => { s with tidx := drawTidx n }
  | .bgtile => drawMap n (drawTileBuf n s)
  | .bgtileRemap => { drawIdx n (drawMap n (drawTileBuf n s)) with pal := drawPal n }
  | .atlas => drawName n (drawDesc n (drawTileBuf n s))
  | .find => s
  | .illegal _ => s

/-- The abort of a pending command: its outputs take a fresh draw (R255). With no command pending, nothing (R254). -/
def abortCommand (s : State) : State :=
  match pendingCommand s with
  | some w => { drawOutputs (decodeWord w) s.draws s with draws := s.draws + 1 }
  | none => s

/-- Soft reset: the registers of R23-R35 take their reset values, the CAM is invalidated and a pending engine step is
dropped; everything else is kept, but for an aborted command's outputs (R254, R255). -/
def softReset (s : State) : State :=
  { abortCommand s with
    ctrl := Ctrl.reset
    status := Status.reset
    cmd := 0
    errCode := 0
    errArg0 := 0
    errArg1 := 0
    errArg2 := 0
    imgW := 0
    imgH := 0
    mapW := 32
    mapH := 20
    regionCount := 0
    arg0 := ⟨0, 0, 0⟩
    result := 0
    palCount := 0
    tileCount := 0
    wordCount := 0
    mapCount := 0
    nameCount := 0
    cam := [] }

end Sys2Proof.Machine
end

