-- ==== Sys2Proof/Machine/Bus.lean ====
section
/-! DEFINITION. The bus slave port: which accesses are refused (R63, R65, R77), what a read returns and what a write does
(R62, R66-R78). -/

namespace Sys2Proof.Machine

/-- The bytes of an access. -/
def Width.bytes : Width → Nat
  | .w8 => 1
  | .w16 => 2
  | .w32 => 4

/-- The access has a width and an offset the address map admits: 32-bit at a register, inside the physical RAM in the
IDX and SRC windows, any width in the other windows, nothing in a reserved range (R61, R63, R65). -/
def offsetMapped (s : State) (w : Width) (a : Nat) : Bool :=
  match windowOf a with
  | .registers => w == .w32 && (regAt a).isSome
  | .reserved => false
  | .idx => decide (a + w.bytes ≤ Config.idxBase + s.idxBytes)
  | .src => decide (a + w.bytes ≤ Config.srcBase + s.srcBytes)
  | .tidx => true
  | .tword => true
  | .key => true
  | .pal => true
  | .palw => true
  | .map => true
  | .region => true
  | .desc => true
  | .name => true
  | .tileBuf => true

/-- The registers the host may access while BUSY = 1: ID, CTRL, STATUS, CMD and CFG0-CFG2 (R77). -/
def busyAccessible (a : Nat) : Bool :=
  match regAt a with
  | some r => [Reg.id, .ctrl, .status, .cmd, .cfg0, .cfg1, .cfg2].contains r
  | none => false

/-- The access is not refused: aligned to its size, mapped, and admitted by the busy interlock (R63, R65, R77). -/
def accessOk (s : State) (w : Width) (a : Nat) : Bool :=
  a % w.bytes == 0 && offsetMapped s w a && (!s.status.busy || busyAccessible a)

/-- The 32-bit value of an RGB triple: R, G, B in bytes 0-2, bits [31:24] reading 0 (R31, R69). -/
def rgbWord (c : Rgb) : Word := (0 : Byte) ++ c.b ++ c.g ++ c.r

/-- The RGB triple of a word's bytes 0-2 (R31). -/
def wordRgb (v : Word) : Rgb := ⟨byteOfWord v 0, byteOfWord v 1, byteOfWord v 2⟩

/-- What a host read of a register returns (R22-R36). -/
def readReg (s : State) : Reg → Word
  | .id => Config.idWord
  | .ctrl => ctrlWord s.ctrl
  | .status => statusWord s.status
  | .cmd => s.cmd
  | .errCode => s.errCode.setWidth 32
  | .errArg0 => s.errArg0
  | .errArg1 => s.errArg1
  | .errArg2 => s.errArg2
  | .imgW => s.imgW.setWidth 32
  | .imgH => s.imgH.setWidth 32
  | .mapW => s.mapW.setWidth 32
  | .mapH => s.mapH.setWidth 32
  | .regionCount => s.regionCount.setWidth 32
  | .arg0 => rgbWord s.arg0
  | .result => s.result
  | .palCount => s.palCount.setWidth 32
  | .tileCount => s.tileCount.setWidth 32
  | .wordCount => s.wordCount.setWidth 32
  | .mapCount => s.mapCount.setWidth 32
  | .nameCount => s.nameCount.setWidth 32
  | .cfg0 => s.cfg0
  | .cfg1 => Config.cfg1Word
  | .cfg2 => Config.cfg2Word

/-- A host write of v to CTRL: a soft reset when bit 31 is 1, else the plain bits (R23, R254). -/
def writeCtrl (v : Word) (s : State) : State := if v.getLsbD 31 then softReset s else writeCtrlBits v s

/-- A host write of v to a register; a read-only one ignores it (R22-R36, R66). -/
def writeReg (v : Word) (s : State) : Reg → State
  | .id => s
  | .ctrl => writeCtrl v s
  | .status => writeStatus v s
  | .cmd => offerCommand v s
  | .errCode => s
  | .errArg0 => s
  | .errArg1 => s
  | .errArg2 => s
  | .imgW => { s with imgW := v.setWidth 16 }
  | .imgH => { s with imgH := v.setWidth 16 }
  | .mapW => { s with mapW := v.setWidth 16 }
  | .mapH => { s with mapH := v.setWidth 16 }
  | .regionCount => { s with regionCount := v.setWidth 16 }
  | .arg0 => { s with arg0 := wordRgb v }
  | .result => s
  | .palCount => s
  | .tileCount => s
  | .wordCount => s
  | .mapCount => s
  | .nameCount => s
  | .cfg0 => s
  | .cfg1 => s
  | .cfg2 => s

/-- The byte a host access sees at an offset of a window (R42, R62, R67-R76). -/
def readByte (s : State) (a : Nat) : Byte :=
  match windowOf a with
  | .registers => 0
  | .reserved => 0
  | .tidx => ((s.tidx[a - Config.tidxBase]?).getD 0).setWidth 8
  | .tword => byteOfWord ((s.tword[(a - Config.twordBase) / 4]?).getD 0) (a % 4)
  | .key => (s.key[a - Config.keyBase]?).getD 0
  | .pal => byteOfWord (rgbWord ((s.pal[(a - Config.palBase) / 4]?).getD ⟨0, 0, 0⟩)) (a % 4)
  | .palw => byteOfWord (((s.palw[(a - Config.palwBase) / 2]?).getD 0).setWidth 32) (a % 2)
  | .map => memByte s a
  | .region => memByte s a
  | .desc => memByte s a
  | .name => memByte s a
  | .tileBuf => memByte s a
  | .idx => memByte s a
  | .src => memByte s a

/-- Byte k of a palette slot written: R, G, B in bytes 0-2, byte 3 ignored (R69). -/
def setRgbByte (c : Rgb) (k : Nat) (b : Byte) : Rgb :=
  match k with
  | 0 => { c with r := b }
  | 1 => { c with g := b }
  | 2 => { c with b := b }
  | _ => c

/-- A host write of one byte at an offset of a window; a read-only window ignores it (R42, R62, R66-R76). -/
def writeByte (s : State) (a : Nat) (b : Byte) : State :=
  match windowOf a with
  | .registers => s
  | .reserved => s
  | .tidx => { s with tidx := s.tidx.setIfInBounds (a - Config.tidxBase) (b.setWidth 4) }
  | .tword =>
    let j := (a - Config.twordBase) / 4
    { s with tword := s.tword.setIfInBounds j (setByteOfWord ((s.tword[j]?).getD 0) (a % 4) b) }
  | .key => { s with key := s.key.setIfInBounds (a - Config.keyBase) b }
  | .pal =>
    let k := (a - Config.palBase) / 4
    { s with pal := s.pal.setIfInBounds k (setRgbByte ((s.pal[k]?).getD ⟨0, 0, 0⟩) (a % 4) b) }
  | .palw => s
  | .map => s
  | .region => storeBytes s a [b]
  | .desc => s
  | .name => s
  | .tileBuf => s
  | .idx => storeBytes s a [b]
  | .src => storeBytes s a [b]

/-- MemRead(a, n), zero-extended (R12, R62). -/
def readBytes (s : State) (n a : Nat) : Word := BitVec.ofNat 32 (littleEndian (readByte s) a n)

/-- MemWrite(a, n, v): byte(a+k) <- v[8k+7:8k] for k < n (R12, R62). -/
def writeBytes (s : State) (a : Nat) (v : Word) : Nat → State
  | 0 => s
  | n + 1 => writeByte (writeBytes s a v n) (a + n) (byteOfWord v n)

/-- The bus port's answer to a completed access: no bus error response. DESIGN CHOICE (log 12) where the spec leaves
BUS_PROTOCOL open (R59, U5): this is also the answer to a CMD write discarded with CMDREJ and to a write that a
read-only location, or reserved bytes, ignore. -/
def answer (d : Word) (s : State) : State := { s with response := some ⟨d, false⟩ }

/-- A refused access: BUSERR, data 0, and a bus error response if BUS_PROTOCOL has one (R63, R228, U5). DESIGN CHOICE
(log 12): the response is the same for every refused access. -/
def refuseAccess (s : State) : State :=
  { setBusErr s with response := some ⟨0, Config.refusalIsBusError⟩ }

/-- The data of an accepted read. -/
def readData (s : State) (w : Width) (a : Nat) : Word :=
  match regAt a with
  | some r => readReg s r
  | none => readBytes s w.bytes a

/-- The effect of an accepted write. -/
def writeData (s : State) (w : Width) (a : Nat) (v : Word) : State :=
  match regAt a with
  | some r => writeReg v s r
  | none => writeBytes s a v w.bytes

/-- A host read (R62, R63, R65, R77, R78): it changes nothing but BUSERR when it is refused. -/
def hostRead (w : Width) (off : Offset) (s : State) : State :=
  if accessOk s w off.toNat then answer (readData s w off.toNat) s else refuseAccess s

/-- A host write (R62, R63, R65, R66, R77, R78). -/
def hostWrite (w : Width) (off : Offset) (v : Word) (s : State) : State :=
  if accessOk s w off.toNat then answer 0 (writeData s w off.toNat v) else refuseAccess s

end Sys2Proof.Machine
end

