-- ==== Sys2Proof/Machine/Atlas.lean ====
section
/-! DEFINITION. ATLAS (R190-R199) and FIND (R200). -/

namespace Sys2Proof.Machine

/-! ## Pass 1: the checks (R191-R194) -/

/-- CheckRegion (R192), on mathematical integers: the size test first, then the strict bound (R198), then the bounds. -/
def checkRegion (i : Nat) (r : RegionRec) (w h : Nat) (strict : Bool) : Option CmdError :=
  let x := r.x.toInt
  let y := r.y.toInt
  let rw := r.w.toInt
  let rh := r.h.toInt
  let bad (k : ErrKind) : Option CmdError := some ⟨k, BitVec.ofNat 32 i, r.w, r.h⟩
  if rw < 0 ∨ rh < 0 ∨ rw % 8 ≠ 0 ∨ rh % 8 ≠ 0 then bad .regionSizeInvalid
  else if strict = true ∧ ((Config.strictBound : Int) < rw ∨ (Config.strictBound : Int) < rh) then
    bad .regionSizeInvalid
  else if x < 0 ∨ y < 0 ∨ (w : Int) < x + rw ∨ (h : Int) < y + rh then bad .regionOutOfBounds
  else none

/-- A region that passed its checks: its index, its rectangle and its WORD_OFFSET (R194). -/
structure Placed where
  index : Nat
  x : Nat
  y : Nat
  w : Nat
  h : Nat
  wordOffset : Nat
deriving DecidableEq, Repr

/-- TILES_PER_FRAME = (w div 8)·(h div 8) (R196). -/
def Placed.tiles (p : Placed) : Nat := (p.w / 8) * (p.h / 8)

/-- A checked record as a placed region, total tiles having been placed before it (R190, R194). -/
def placeRegion (i : Nat) (r : RegionRec) (total : Nat) : Placed :=
  { index := i
    x := r.x.toInt.toNat
    y := r.y.toInt.toNat
    w := r.w.toInt.toNat
    h := r.h.toInt.toNat
    wordOffset := 8 * total }

/-- The capacity check of a region that passed CheckRegion: the placed region and the new total, or the error (R193). -/
def placeWithin (i : Nat) (p : Placed) (total' : Nat) : Except CmdError (Placed × Nat) :=
  if Config.tileBufTiles < total' then
    .error ⟨.capacityExceeded, BitVec.ofNat 32 i, BitVec.ofNat 32 total', BitVec.ofNat 32 Config.tileBufTiles⟩
  else .ok (p, total')

/-- An error found, or else the value. -/
def unlessError {α : Type} (found : Option CmdError) (value : Except CmdError α) : Except CmdError α :=
  match found with
  | some e => .error e
  | none => value

/-- Pass 1 on one region, total tiles having been placed before it: CheckRegion, then the capacity check (R190, R194). -/
def placeOne (s : State) (i total : Nat) : Except CmdError (Placed × Nat) :=
  let r := regionRec s i
  let p := placeRegion i r total
  unlessError (checkRegion i r s.imgW.toNat s.imgH.toNat s.ctrl.strictSize) (placeWithin i p (total + p.tiles))

/-- Pass 1 over the regions given by their indices, in input order: the placed regions and the final total, or the first
failure (R190). -/
def placeRegions (s : State) : List Nat → Nat → Except CmdError (List Placed × Nat)
  | [], total => .ok ([], total)
  | i :: rest, total => (placeOne s i total).bind fun q => (placeRegions s rest q.2).map fun r => (q.1 :: r.1, r.2)

/-! ## Pass 2: the outputs (R195-R197, R199) -/

/-- The tiles of a region: rows top to bottom, left to right within a row (R195). -/
def regionTiles (s : State) (p : Placed) : List Tile :=
  (List.range (p.h / 8)).flatMap fun tr =>
    (List.range (p.w / 8)).map fun tc => block s (p.x + 8 * tc) (p.y + 8 * tr)

/-- SizeCode (R197). -/
def sizeCode (v : Nat) : Word := if v ≤ 8 then 0 else if v ≤ 16 then 1 else if v ≤ 32 then 2 else 3

/-- The eight descriptor words of a region (R196). -/
def descriptor (p : Placed) : List Word :=
  [ BitVec.ofNat 32 p.w
  , BitVec.ofNat 32 p.h
  , BitVec.ofNat 32 p.tiles
  , 1
  , BitVec.ofNat 32 p.wordOffset
  , sizeCode p.w
  , sizeCode p.h
  , 0 ]

/-- One region's outputs: EmitRegion, WriteDescriptor and NAME[i] <- REGION[i].NAME. Inputs are read from s, the state
the step began in (R13, R190); t is the state written so far. -/
def emitRegion (s t : State) (p : Placed) : State :=
  let t1 := storeBytes t (Config.tileBufBase + 4 * p.wordOffset) ((regionTiles s p).flatMap packedBytes)
  let t2 := storeBytes t1 (descAddr p.index) ((descriptor p).flatMap bytesOfWord)
  storeBytes t2 (nameAddr p.index) (regionName s p.index)

/-- Pass 2 (R190): every placed region's outputs, and the three counters. -/
def emitAtlas (s : State) (placed : List Placed) (total : Nat) : State :=
  { placed.foldl (emitRegion s) s with
    tileCount := BitVec.ofNat 16 total
    wordCount := BitVec.ofNat 16 (8 * total)
    nameCount := s.regionCount }

/-- ATLAS's effect (R190). -/
def packAtlas (s : State) : Except CmdError State :=
  let n := s.regionCount.toNat
  if !rasterOk s s.rasterMaxW s.rasterMaxH then .error (geometryError .invalidGeometry s)
  else if Config.regionMax < n then
    .error ⟨.capacityExceeded, Config.allOnes, s.regionCount.setWidth 32, BitVec.ofNat 32 Config.regionMax⟩
  else (placeRegions s (List.range n) 0).map fun r => emitAtlas s r.1 r.2

/-- ATLAS (R190). -/
def execAtlas (s : State) : Host.Outcome State Fault Refusal := finish s (packAtlas s)

/-! ## FIND (R200) -/

/-- The lowest entry below NAME_COUNT that matches KEY (R200). -/
def findName (s : State) : Option Nat := (List.range s.nameCount.toNat).find? (nameMatches s)

/-- FIND: RESULT <- the index, or 0xFFFFFFFF (R200). -/
def execFind (s : State) : Host.Outcome State Fault Refusal :=
  finish s (.ok { s with result := match findName s with | some i => BitVec.ofNat 32 i | none => Config.allOnes })

end Sys2Proof.Machine
end

