-- ==== Sys2Proof/Machine/Background.lean ====
section
/-! DEFINITION. BGTILE and BGTILE.REMAP (R170-R175). -/

namespace Sys2Proof.Machine

/-! ## Remap (R171) -/

/-- The permutation table of R171: the transposition of 0 and p0. -/
def remapPerm (p0 v : Nib) : Nib := if v = 0 then p0 else if v = p0 then 0 else v

/-- The palette with entries 0 and p0 exchanged (R171). -/
def swapPal (pal : Vector Rgb 16) (p0 : Nib) : Vector Rgb 16 := pal.swap 0 p0.toNat (by omega) p0.isLt

/-- Remap(W, H): every pixel through the table, and the same permutation on the palette (R171). -/
def remap (s : State) : State :=
  let p0 := px s 0 0
  if p0 = 0 then s
  else
    { setNibs s (fun p => remapPerm p0 (nib s p)) (s.imgW.toNat * s.imgH.toNat) with pal := swapPal s.pal p0 }

/-! ## Deduplication (R172, R173) -/

/-- CAM.lookup: the index of the entry whose key equals the tile's, bit for bit (R37). -/
def camLookup : List CamEntry → BitVec 256 → Option (BitVec 10)
  | [], _ => none
  | e :: cam, key => if e.key = key then some e.index else camLookup cam key

/-- The walk's state: the CAM, the TileSet so far (index 0 first), and the index of every block walked. -/
structure DedupState where
  cam : List CamEntry
  tiles : List Tile
  blocks : List (BitVec 10)
deriving DecidableEq, Repr

/-- Before any block: the CAM invalidated, TS[0] the blank tile, which is not entered in the CAM (R172). -/
def dedupInit : DedupState := ⟨[], [blankTile], []⟩

/-- One block of the walk: a hit reuses the entry's index, a miss inserts the key with the next one (R173). -/
def dedupStep (d : DedupState) (t : Tile) : DedupState :=
  match camLookup d.cam (keyOf t) with
  | some i => { d with blocks := d.blocks ++ [i] }
  | none =>
    let i := BitVec.ofNat 10 d.tiles.length
    ⟨d.cam ++ [⟨keyOf t, i⟩], d.tiles ++ [t], d.blocks ++ [i]⟩

/-- The blocks of the raster in the walk's order: rows top to bottom, left to right within a row (R173). -/
def rasterBlocks (s : State) : List Tile :=
  (List.range (s.imgH.toNat / 8)).flatMap fun by8 =>
    (List.range (s.imgW.toNat / 8)).map fun bx => block s (8 * bx) (8 * by8)

/-- Dedup(W, H) (R173). -/
def dedup (s : State) : DedupState := (rasterBlocks s).foldl dedupStep dedupInit

/-! ## The outputs (R174, R175) -/

/-- The tilemap entry at row r, column c: the block's index, or 0 right of the raster (R174). blocksWide is W/8. -/
def mapEntry (blocks : List (BitVec 10)) (blocksWide r c : Nat) : Half :=
  if c < blocksWide then ((blocks[r * blocksWide + c]?).getD 0).setWidth 16 else 0

/-- The tilemap, row-major (R174). -/
def mapEntries (s : State) (blocks : List (BitVec 10)) : List Half :=
  (List.range s.mapH.toNat).flatMap fun r =>
    (List.range s.mapW.toNat).map fun c => mapEntry blocks (s.imgW.toNat / 8) r c

/-- BuildMap: MAP entries from 0 on (R72, R174). -/
def buildMap (s : State) (blocks : List (BitVec 10)) : State :=
  storeBytes s Config.mapBase ((mapEntries s blocks).flatMap bytesOfHalf)

/-- WriteTileSet: the packed tiles from word 0 on, and the two counters (R175). -/
def writeTileSet (s : State) (tiles : List Tile) : State :=
  { storeBytes s Config.tileBufBase (tiles.flatMap packedBytes) with
    tileCount := BitVec.ofNat 16 tiles.length
    wordCount := BitVec.ofNat 16 (8 * tiles.length) }

/-- Steps 2 to 4 on the raster as it stands (R172-R175): the CAM, the map, the tile set and the counters. -/
def tileBackground (s : State) : State :=
  let d := dedup s
  { writeTileSet (buildMap s d.blocks) d.tiles with
    cam := d.cam
    mapCount := BitVec.ofNat 16 (s.mapW.toNat * s.mapH.toNat) }

/-- BGTILE's effect, with or without the remap (R170). -/
def backgroundTiles (withRemap : Bool) (s : State) : Except CmdError State :=
  if backgroundOk s then .ok (tileBackground (if withRemap then remap s else s))
  else .error (geometryError .geometryOutOfBounds s)

/-- BGTILE (R170, REMAP = 0). -/
def execBgtile (s : State) : Host.Outcome State Fault Refusal := finish s (backgroundTiles false s)

/-- BGTILE.REMAP (R170, REMAP = 1). -/
def execBgtileRemap (s : State) : Host.Outcome State Fault Refusal := finish s (backgroundTiles true s)

end Sys2Proof.Machine
end

