-- ==== Sys2Proof/Machine/Illegal.lean ====
section
/-! DEFINITION. The execution of an illegal command word (R106). -/

namespace Sys2Proof.Machine

/-- An illegal word completes with IllegalCommand(0xFFFFFFFF, word, 0) and writes nothing (R106, R113). -/
def execIllegal (w : Word) (s : State) : Host.Outcome State Fault Refusal :=
  finish s (.error ⟨.illegalCommand, Config.allOnes, w, 0⟩)

end Sys2Proof.Machine
end

