-- ==== Sys2Proof/Machine/Quantizer.lean ====
section
/-! DEFINITION. QUANT (R130, R131), ENCPAL (R134) and ENCRGB (R135), with the colour arithmetic of R132 and R133. -/

namespace Sys2Proof.Machine

/-! ## QFN -/

/-- What QFN returns (R131): the palette length, the 16 entries and the index of every pixel. Not part of State. -/
structure QuantResult where
  n : Nat
  pal : Vector Rgb 16
  idx : Nat → Nib

/-- QFN (R131): any function of (W, H, pix) with the properties Q2-Q4, and nothing more. The opaque results of Config
are brought within the bounds: 1 ≤ n ≤ 16 (Q2), zero entries from n on (Q3), every index below n (Q4). -/
def qfn (w h : Nat) (pix : List Rgba) : QuantResult :=
  let n := Config.qfnLength w h pix % 16 + 1
  { n := n
    pal := Vector.ofFn fun k => if k.val < n then Config.qfnEntry w h pix k else ⟨0, 0, 0⟩
    idx := fun p => BitVec.ofNat 4 (Config.qfnIndex w h pix p % n) }

/-- QUANT's effect with the bounds maxW × maxH (R130). -/
def quantize (maxW maxH : Nat) (s : State) : Except CmdError State :=
  if rasterOk s maxW maxH then
    let w := s.imgW.toNat
    let h := s.imgH.toNat
    let q := qfn w h ((List.range (w * h)).map (srcPixel s))
    .ok { setNibs s q.idx (w * h) with pal := q.pal, palCount := BitVec.ofNat 5 q.n }
  else .error (geometryError .invalidGeometry s)

/-- QUANT.BG: the background canvas bound 256 × 160 (R130, MODE 0). -/
def execQuantBg (s : State) : Host.Outcome State Fault Refusal :=
  finish s (quantize Config.canvasW Config.canvasH s)

/-- QUANT.ATLAS: the bound RASTER_MAX_W × RASTER_MAX_H (R130, MODE 1). -/
def execQuantAtlas (s : State) : Host.Outcome State Fault Refusal :=
  finish s (quantize s.rasterMaxW s.rasterMaxH s)

/-! ## Colour encoding -/

/-- C5(c) = (c·31 + 127) div 255 (R132). -/
def c5 (c : Byte) : Nat := (c.toNat * 31 + 127) / 255

/-- ENC(r, g, b) = (C5(b) << 10) | (C5(g) << 5) | C5(r), 15 bits (R133). -/
def encodeRgb (c : Rgb) : BitVec 15 :=
  (BitVec.ofNat 15 (c5 c.b) <<< 10) ||| (BitVec.ofNat 15 (c5 c.g) <<< 5) ||| BitVec.ofNat 15 (c5 c.r)

/-- ENCPAL: all 16 entries (R134). -/
def execEncpal (s : State) : Host.Outcome State Fault Refusal :=
  finish s (.ok { s with palw := s.pal.map encodeRgb })

/-- ENCRGB: RESULT <- zext_32(ENC(ARG0)) (R135). -/
def execEncrgb (s : State) : Host.Outcome State Fault Refusal :=
  finish s (.ok { s with result := (encodeRgb s.arg0).setWidth 32 })

end Sys2Proof.Machine
end

