-- ==== Sys2Proof/Machine/TileCodec.lean ====
section
/-! DEFINITION. TPACK (R153) and TUNPACK (R154). -/

namespace Sys2Proof.Machine

/-- The error of a wrong LEN (R153, R154, R225). -/
def tileSizeError (len : BitVec 16) (required : Word) : CmdError :=
  ⟨.invalidTileSize, Config.allOnes, len.setWidth 32, required⟩

/-- TPACK: TWORD <- Pack(TIDX) when LEN = 64 (R153). -/
def execTpack (len : BitVec 16) (s : State) : Host.Outcome State Fault Refusal :=
  finish s (if len = 64 then .ok { s with tword := pack s.tidx } else .error (tileSizeError len 64))

/-- TUNPACK: TIDX <- Unpack(TWORD) when LEN = 32 (R154). -/
def execTunpack (len : BitVec 16) (s : State) : Host.Outcome State Fault Refusal :=
  finish s (if len = 32 then .ok { s with tidx := unpack s.tword } else .error (tileSizeError len 32))

end Sys2Proof.Machine
end

