-- ==== Sys2Proof/Machine/Dispatch.lean ====
section
/-! DEFINITION. The dispatch of a decoded command to its meaning (R113): one arm per constructor. -/

namespace Sys2Proof.Machine

def exec (i : Instr) (s : State) : Host.Outcome State Fault Refusal :=
  match i with
  | .quantBg => Sys2Proof.Machine.execQuantBg s
  | .quantAtlas => Sys2Proof.Machine.execQuantAtlas s
  | .encpal => Sys2Proof.Machine.execEncpal s
  | .encrgb => Sys2Proof.Machine.execEncrgb s
  | .tpack len => Sys2Proof.Machine.execTpack len s
  | .tunpack len => Sys2Proof.Machine.execTunpack len s
  | .bgtile => Sys2Proof.Machine.execBgtile s
  | .bgtileRemap => Sys2Proof.Machine.execBgtileRemap s
  | .atlas => Sys2Proof.Machine.execAtlas s
  | .find => Sys2Proof.Machine.execFind s
  | .illegal w => Sys2Proof.Machine.execIllegal w s

end Sys2Proof.Machine
end

