-- ==== Sys2Proof/Machine/Engine.lean ====
section
/-! DEFINITION. The engine's turn (R38, R40), what each event does, and how a command word is placed for the engine. -/

namespace Sys2Proof.Machine

/-- The engine's turn: Exec(CMD) when BUSY = 1 (R40, R113); with no step pending nothing happens (R236). -/
def engineTurn (s : State) : Host.Outcome State Fault Refusal :=
  match pendingCommand s with
  | some w => exec (decodeWord w) s
  | none => .next s

/-- What an event does (R39, R40, R79, R250). -/
def runEvent (e : Event) (s : State) : Host.Outcome State Fault Refusal :=
  match e with
  | .engine => engineTurn s
  | .read w off => .next (hostRead w off s)
  | .write w off v => .next (hostWrite w off v s)
  | .rst => .next (powerOnReset s)

/-- The next event is taken; when none is left, the engine has its turn (R262, log 6). -/
def runNext (s : State) : Host.Outcome State Fault Refusal :=
  match s.events with
  | [] => engineTurn s
  | e :: es => runEvent e { s with events := es }

/-- The command word w accepted (R39) and the engine's turn next (log 10). -/
def placeCommand (w : Word) (s : State) : State :=
  { s with
    cmd := w
    status := { s.status with done := false, busy := true }
    events := .engine :: s.events }

end Sys2Proof.Machine
end

