-- ==== Sys2Proof/Machine/Step.lean ====
section
/-! DEFINITION. One step of the machine, and the placing of an instruction where the next step runs it. -/

namespace Sys2Proof.Machine

/-- One step: the next event, or the engine's turn when there is none. -/
def step (s : State) : Host.Outcome State Fault Refusal := runNext s

/-- The state whose next step executes the table word w of nbits bits: the block fetches nothing (R21), so the word is
the accepted command in CMD and the engine's turn is next. -/
def State.withFetchWord (s : State) (nbits w : Nat) : State := placeCommand (BitVec.ofNat 32 (w % 2 ^ nbits)) s

end Sys2Proof.Machine
end

