-- ==== Sys2Proof/Safety.lean ====
section
/-! DEFINITION. What counts as a safe run, and the invariants every step keeps: the terms the claims are stated in. -/

namespace Sys2Proof.Machine

/-- The step goes on: no fault and no refusal. The block has no traps (R220), so every step should. -/
def StepGoesOn (s : State) : Prop := ∃ t, step s = .next t

/-- RASTER_MAX meets the constraints R9 puts on it. -/
def CfgValid (s : State) : Prop :=
  s.rasterMaxW % 8 = 0 ∧ s.rasterMaxH % 8 = 0 ∧ 256 ≤ s.rasterMaxW ∧ 160 ≤ s.rasterMaxH ∧
  s.rasterMaxW ≤ 65528 ∧ s.rasterMaxH ≤ 65528 ∧ s.rasterMaxW * s.rasterMaxH ≤ 262144

/-- The offset is a byte of one of the seven memories, within its physical size (R44, R61, R65). -/
def ramByte (s : State) (a : Nat) : Bool :=
  match windowOf a with
  | .map => true
  | .region => true
  | .desc => true
  | .name => true
  | .tileBuf => true
  | .idx => decide (a < Config.idxBase + s.idxBytes)
  | .src => decide (a < Config.srcBase + s.srcBytes)
  | .registers => false
  | .tidx => false
  | .tword => false
  | .key => false
  | .pal => false
  | .palw => false
  | .reserved => false

/-- Every written byte lies in a memory (R44). -/
def MemInRam (s : State) : Prop := ∀ c ∈ s.mem, ramByte s c.1 = true

/-- The handshake flags: DONE and ERROR are never both 1, and neither is 1 while a command is pending (R24, R39). -/
def HandshakeOk (s : State) : Prop :=
  (s.status.done && s.status.error) = false ∧
  (s.status.busy = true → s.status.done = false ∧ s.status.error = false)

/-- The error registers are 0 with no error latched (R26, R27), and ERR_CODE is one of the codes the block raises
otherwise (R221, V4, V5). -/
def ErrorLatchOk (s : State) : Prop :=
  (s.status.error = false → s.errCode = 0 ∧ s.errArg0 = 0 ∧ s.errArg1 = 0 ∧ s.errArg2 = 0) ∧
  (s.status.error = true → s.errCode ∈ ([0x01, 0x02, 0x03, 0x04, 0x05, 0x07, 0x08] : List (BitVec 8)))

/-- The counters stay within the memories they count, and WORD_COUNT = 8 × TILE_COUNT (R33-R35). -/
def CountersOk (s : State) : Prop :=
  s.palCount.toNat ≤ 16 ∧ s.tileCount.toNat ≤ 1024 ∧ s.wordCount.toNat = 8 * s.tileCount.toNat ∧
  s.mapCount.toNat ≤ 640 ∧ s.nameCount.toNat ≤ 128

/-- The CAM holds at most 640 entries, and no two with one key (R37). -/
def CamOk (s : State) : Prop :=
  s.cam.length ≤ 640 ∧ s.cam.Pairwise fun x y => x.key ≠ y.key

/-- Every draw made so far has a number below the counter, so the next one is fresh (R85, R255). -/
def DrawsFresh (s : State) : Prop :=
  s.epochs.src < s.draws ∧ s.epochs.idx < s.draws ∧ s.epochs.map < s.draws ∧ s.epochs.tileBuf < s.draws ∧
  s.epochs.region < s.draws ∧ s.epochs.desc < s.draws ∧ s.epochs.name < s.draws

/-! ## What the atlas rules say of one region, on mathematical integers (R192) -/

/-- REGION[i].X as a mathematical integer (R74). -/
def regX (s : State) (i : Nat) : Int := (memWord s (regionAddr i)).toInt
/-- REGION[i].Y. -/
def regY (s : State) (i : Nat) : Int := (memWord s (regionAddr i + 4)).toInt
/-- REGION[i].W. -/
def regW (s : State) (i : Nat) : Int := (memWord s (regionAddr i + 8)).toInt
/-- REGION[i].H. -/
def regH (s : State) (i : Nat) : Int := (memWord s (regionAddr i + 12)).toInt

/-- Region i fails the size test, the strict bound included (R192, R198). -/
def SizeInvalid (s : State) (i : Nat) : Prop :=
  regW s i < 0 ∨ regH s i < 0 ∨ ¬ (8 : Int) ∣ regW s i ∨ ¬ (8 : Int) ∣ regH s i ∨
  (s.ctrl.strictSize = true ∧ (64 < regW s i ∨ 64 < regH s i))

/-- Region i leaves the raster (R192). -/
def OutOfRaster (s : State) (i : Nat) : Prop :=
  regX s i < 0 ∨ regY s i < 0 ∨ (s.imgW.toNat : Int) < regX s i + regW s i ∨
  (s.imgH.toNat : Int) < regY s i + regH s i

/-- TILES_PER_FRAME of a region: (w div 8)·(h div 8) (R196). -/
def regTiles (s : State) (i : Nat) : Nat := (regW s i).toNat / 8 * ((regH s i).toNat / 8)

/-- The tiles of regions 0 to i − 1 (R194). -/
def tilesBefore (s : State) : Nat → Nat
  | 0 => 0
  | i + 1 => tilesBefore s i + regTiles s i

/-- Regions 0 to n − 1 pass every check of pass 1 (R190). -/
def RegionsPass (s : State) (n : Nat) : Prop :=
  ∀ i, i < n → ¬ SizeInvalid s i ∧ ¬ OutOfRaster s i ∧ tilesBefore s (i + 1) ≤ 1024

/-- ATLAS's raster check and count check pass (R191, R193). -/
def AtlasInputsOk (s : State) : Prop :=
  0 < s.imgW.toNat ∧ 0 < s.imgH.toNat ∧ s.imgW.toNat % 8 = 0 ∧ s.imgH.toNat % 8 = 0 ∧
  s.imgW.toNat ≤ s.rasterMaxW ∧ s.imgH.toNat ≤ s.rasterMaxH ∧ s.regionCount.toNat ≤ 128

/-- BGTILE's geometry test passes (R170). -/
def BackgroundOk (s : State) : Prop :=
  1 ≤ s.mapW.toNat ∧ s.mapW.toNat ≤ 32 ∧ 1 ≤ s.mapH.toNat ∧ s.mapH.toNat ≤ 20 ∧
  0 < s.imgW.toNat ∧ s.imgW.toNat % 8 = 0 ∧ s.imgW.toNat ≤ 8 * s.mapW.toNat ∧ s.imgH.toNat = 8 * s.mapH.toNat

/-- QUANT's geometry test passes with the bounds maxW × maxH (R130). -/
def RasterOk (s : State) (maxW maxH : Nat) : Prop :=
  0 < s.imgW.toNat ∧ 0 < s.imgH.toNat ∧ s.imgW.toNat % 8 = 0 ∧ s.imgH.toNat % 8 = 0 ∧
  s.imgW.toNat ≤ maxW ∧ s.imgH.toNat ≤ maxH

/-- The raster's source pixels in row-major order, byte by byte: R, G, B, A at +0, +1, +2, +3 of each word (R67). -/
def rasterPixels (s : State) : List Rgba :=
  (List.range (s.imgW.toNat * s.imgH.toNat)).map fun p =>
    let a := Config.srcBase + 4 * p
    ⟨memByte s a, memByte s (a + 1), memByte s (a + 2), memByte s (a + 3)⟩

/-- ENC of a triple as a number (R132, R133): 5-bit blue, green and red, blue in the top bits. -/
def encNat (c : Rgb) : Nat :=
  (c.b.toNat * 31 + 127) / 255 * 1024 + (c.g.toNat * 31 + 127) / 255 * 32 + (c.r.toNat * 31 + 127) / 255

/-- The access is refused: misaligned, a register offset with the wrong width or without a register, a reserved range,
a byte past the physical RAM, or, while BUSY = 1, anything but ID, CTRL, STATUS, CMD and CFG0-CFG2 (R61, R63, R65, R77). -/
def Refused (s : State) (w : Width) (a : Nat) : Prop :=
  a % w.bytes ≠ 0 ∨
  (a < 0x000100 ∧ (w ≠ .w32 ∨ 0x00005C ≤ a)) ∨
  (0x000180 ≤ a ∧ a < 0x000200) ∨
  (0x000260 ≤ a ∧ a < 0x000400) ∨
  (0x000900 ≤ a ∧ a < 0x002000) ∨
  (0x006000 ≤ a ∧ a < 0x008000) ∨
  (0x010000 ≤ a ∧ a < 0x020000) ∨
  (0x020000 ≤ a ∧ a < 0x040000 ∧ 0x020000 + s.rasterMaxW * s.rasterMaxH / 2 < a + w.bytes) ∨
  (0x040000 ≤ a ∧ a < 0x100000) ∨
  (0x100000 ≤ a ∧ 0x100000 + s.rasterMaxW * s.rasterMaxH * 4 < a + w.bytes) ∨
  (s.status.busy = true ∧ a ∉ [0x000, 0x004, 0x008, 0x00C, 0x050, 0x054, 0x058])

/-- What a refused access leaves: BUSERR, and the port's answer of data 0, with or without a bus error response (R63,
R228). BUS_PROTOCOL leaves that response open, so the statements leave it out. -/
def refusedState (s : State) (busError : Bool) : State :=
  { s with status := { s.status with buserr := true }, response := some ⟨0, busError⟩ }

/-- The state with every register of R23-R35 at its reset value and the CAM invalidated (R251, R254). -/
def registersReset (s : State) : State :=
  { s with
    ctrl := ⟨false, false, false⟩
    status := ⟨false, false, false, false, false⟩
    cmd := 0
    errCode := 0
    errArg0 := 0
    errArg1 := 0
    errArg2 := 0
    imgW := 0
    imgH := 0
    mapW := 0x20
    mapH := 0x14
    regionCount := 0
    arg0 := ⟨0, 0, 0⟩
    result := 0
    palCount := 0
    tileCount := 0
    wordCount := 0
    mapCount := 0
    nameCount := 0
    cam := [] }

/-- The bytes of IDX RAM that hold pixels 0 to IMG_W·IMG_H − 1, as far as the RAM holds them (R68, R109). -/
def rasterBytes (s : State) : Nat := (min (s.imgW.toNat * s.imgH.toNat) (2 * s.idxBytes) + 1) / 2

/-- The bytes of the memories a command could write, as (first offset, length), by R109's "writes" column. -/
def writableRanges (s : State) : Instr → List (Nat × Nat)
  | .quantBg => [(Config.idxBase, rasterBytes s)]
  | .quantAtlas => [(Config.idxBase, rasterBytes s)]
  | .encpal => []
  | .encrgb => []
  | .tpack _ => []
  | .tunpack _ => []
  | .bgtile => [(Config.tileBufBase, 0x8000), (Config.mapBase, 0x500)]
  | .bgtileRemap => [(Config.tileBufBase, 0x8000), (Config.mapBase, 0x500), (Config.idxBase, 0x20000)]
  | .atlas => [(Config.tileBufBase, 0x8000), (Config.descBase, 0x1000), (Config.nameBase, 0x1000)]
  | .find => []
  | .illegal _ => []

/-- w is the one legal word of its OPC, and it is the instruction i; any other word of that OPC is illegal (R104, R113). -/
def OnlyCommandWord (w : Word) (i : Instr) : Prop :=
  decodeWord w = i ∧ ∀ v : Word, v.extractLsb' 24 8 = w.extractLsb' 24 8 → v ≠ w → decodeWord v = .illegal v

/-- The 16-bit value at an offset of the memories: MemRead(a, 2) (R12, R62). -/
def memHalf (s : State) (a : Nat) : Half := BitVec.ofNat 16 (littleEndian (memByte s) a 2)

/-- MAP[e] (R72). -/
def mapAt (s : State) (e : Nat) : Half := memHalf s (Config.mapBase + 2 * e)

/-- TILE_BUF[w] (R73). -/
def tileWord (s : State) (w : Nat) : Word := memWord s (Config.tileBufBase + 4 * w)

/-- Tile k of TILE_BUF, unpacked (R73, R152). -/
def tileAt (s : State) (k : Nat) : Tile := unpack (Vector.ofFn fun j => tileWord s (8 * k + j))

/-- Block number p of the raster in BGTILE's walk: rows of blocks top to bottom, left to right within a row (R173). -/
def blockAt (s : State) (p : Nat) : Tile :=
  block s (8 * (p % (s.imgW.toNat / 8))) (8 * (p / (s.imgW.toNat / 8)))

/-- How many blocks the raster has. -/
def blockCount (s : State) : Nat := s.imgW.toNat / 8 * (s.imgH.toNat / 8)

/-- How many distinct tiles are among blocks 0 to n − 1. -/
def distinctBlocks (s : State) (n : Nat) : Nat := ((Finset.range n).image (blockAt s)).card

/-- Every byte of the memories outside the listed ranges (first offset, length) reads the same. -/
def MemSameOutside (s t : State) (ranges : List (Nat × Nat)) : Prop :=
  ∀ a, (∀ r ∈ ranges, ¬ (r.1 ≤ a ∧ a < r.1 + r.2)) → memByte t a = memByte s a

/-- STATUS after a command completed without an error: BUSY 0, DONE 1, the other flags as before (R40). -/
def doneStatus (s : State) : Status := { s.status with busy := false, done := true }

/-- The state an error leaves (R224): the state before, but for STATUS, ERR_CODE and ERR_ARG0-2. -/
def errorState (s : State) (code : BitVec 8) (a0 a1 a2 : Word) : State :=
  { s with
    errCode := code
    errArg0 := a0
    errArg1 := a1
    errArg2 := a2
    status := { s.status with busy := false, error := true } }

end Sys2Proof.Machine
end

