-- ==== Sys2Proof/Certificates/Slice0/Obligations.lean ====
section
/-! DEFINITION. The statements about the model, each formalising rules of spec/. None is proved here. -/

open Sys2Proof Sys2Proof.Machine

/-! ## Encoding -/

/-- Words written out from R104 and 95_test_vectors.md section 2.1 decode to the commands they stand for. -/
def Obligations.OpcodeMapWordsDecode : Prop :=
  decodeWord 0x01000000 = .quantBg ∧ decodeWord 0x01010000 = .quantAtlas ∧ decodeWord 0x02000000 = .encpal ∧
  decodeWord 0x03000000 = .encrgb ∧ decodeWord 0x04000040 = .tpack 64 ∧ decodeWord 0x0400FFFF = .tpack 0xFFFF ∧
  decodeWord 0x05000020 = .tunpack 32 ∧ decodeWord 0x06000000 = .bgtile ∧ decodeWord 0x06010000 = .bgtileRemap ∧
  decodeWord 0x07000000 = .atlas ∧ decodeWord 0x08000000 = .find ∧ decodeWord 0x00000000 = .illegal 0x00000000 ∧
  decodeWord 0x01020000 = .illegal 0x01020000 ∧ decodeWord 0x02010000 = .illegal 0x02010000 ∧
  decodeWord 0x04010040 = .illegal 0x04010040 ∧ decodeWord 0x06800000 = .illegal 0x06800000 ∧
  decodeWord 0x07000001 = .illegal 0x07000001 ∧ decodeWord 0x09000000 = .illegal 0x09000000

/-- Decoding the word, or the bytes, of a well-formed instruction gives it back with every operand (R104, R110). -/
def Obligations.EncodeThenDecode : Prop :=
  ∀ i : Instr, i.wellFormed = true →
    decodeWord (encode i) = i ∧ ∀ rest : List Byte, decodeBytes (encodeBytes i ++ rest) = .ok (i, rest)

/-- Every 32-bit word has one meaning: it decodes to a well-formed instruction whose encoding is that word (R100, R113). -/
def Obligations.DecodeThenEncode : Prop :=
  ∀ w : Word, (decodeWord w).wellFormed = true ∧ encode (decodeWord w) = w

/-- R106: which words are illegal (OPC 0x00, OPC 0x09-0xFF, or a non-zero bit R105 reserves), that such a word is
accepted like any other, and that its execution completes with IllegalCommand and writes nothing else. -/
def Obligations.IllegalWordsRaiseIllegalCommand : Prop :=
  ∀ w : Word,
    (decodeWord w = .illegal w ↔
      (w.extractLsb' 24 8 = 0x00 ∨ 0x09 ≤ (w.extractLsb' 24 8).toNat ∨ w.extractLsb' 17 7 ≠ 0 ∨
        (w.getLsbD 16 = true ∧ w.extractLsb' 24 8 ≠ 0x01 ∧ w.extractLsb' 24 8 ≠ 0x06) ∨
        (w.extractLsb' 0 16 ≠ 0 ∧ w.extractLsb' 24 8 ≠ 0x04 ∧ w.extractLsb' 24 8 ≠ 0x05))) ∧
    (decodeWord w = .illegal w →
      (∀ s : State, s.status.busy = false → s.status.error = false →
        hostWrite .w32 0x00000C w s =
          { s with cmd := w, status := { s.status with done := false, busy := true }, response := some ⟨0, false⟩ }) ∧
      ∀ s : State, exec (.illegal w) s = .next (errorState s 0x07 0xFFFFFFFF w 0))

/-! ## The step -/

/-- With BUSY = 1, the engine's turn runs Exec(CMD): when the event list is used up, and when an engine event is next
(R38, R40, R113; the event list is the model's form of latency, log 6). -/
def Obligations.EngineTurnRunsPendingCommand : Prop :=
  ∀ s : State, s.status.busy = true →
    (s.events = [] → step s = exec (decodeWord s.cmd) s) ∧
    ∀ es, s.events = .engine :: es → step s = exec (decodeWord s.cmd) { s with events := es }

/-- A table word placed for the engine is what the next step runs, with CMD holding it, BUSY set and DONE cleared
(R38-R40; log 10). -/
def Obligations.PlacedWordRunsNext : Prop :=
  ∀ (s : State) (w : Word) (i : Instr), decodeTableWord 32 w.toNat = some i →
    step (s.withFetchWord 32 w.toNat) =
      exec i { s with cmd := w, status := { s.status with done := false, busy := true } }

/-- With BUSY = 0 and nothing left to happen the block does nothing, and an engine turn uses itself up only (R40, R236;
log 6). -/
def Obligations.IdleBlockDoesNothing : Prop :=
  ∀ s : State, s.status.busy = false →
    (s.events = [] → step s = .next s) ∧
    ∀ es, s.events = .engine :: es → step s = .next { s with events := es }

/-- A host access or an RST takes its turn in the order of the event list (R79, R250; log 6). -/
def Obligations.EventsRunInOrder : Prop :=
  ∀ (s : State) (es : List Event) (w : Width) (off : Offset) (v : Word),
    (s.events = .read w off :: es → step s = .next (hostRead w off { s with events := es })) ∧
    (s.events = .write w off v :: es → step s = .next (hostWrite w off v { s with events := es })) ∧
    (s.events = .rst :: es → step s = .next (powerOnReset { s with events := es }))

/-- No step stops the machine: the block has no traps (R220). -/
def Obligations.EveryStepGoesOn : Prop := ∀ s : State, StepGoesOn s

/-- A pending command ends, by completing or by being aborted, once the finitely many events before it have happened
(R262, bounded by the model's event list, log 6). -/
def Obligations.PendingCommandEnds : Prop :=
  ∀ s : State, s.status.busy = true →
    ∃ k t, 0 < k ∧ k ≤ s.events.length + 1 ∧ Sys2Proof.core.run k s = .next t ∧ t.status.busy = false

/-! ## Completion and errors -/

/-- R220: no command traps; a command that raises an error leaves the state before it, but for STATUS, ERR_CODE and
ERR_ARG0-2; any other ends with BUSY 0 and DONE 1 and no change to the error registers. -/
def Obligations.ErrorsArePrecise : Prop :=
  ∀ (i : Instr) (s : State), ∃ t, exec i s = .next t ∧
    ((t.status = doneStatus s ∧ t.errCode = s.errCode ∧ t.errArg0 = s.errArg0 ∧ t.errArg1 = s.errArg1 ∧
        t.errArg2 = s.errArg2) ∨
      ∃ c a0 a1 a2, t = errorState s c a0 a1 a2)

/-- R222: the error codes each command can raise, by the OPC of its word. -/
def Obligations.ErrorCodesOfEachCommand : Prop :=
  ∀ (w : Word) (s t : State), s.status.error = false → exec (decodeWord w) s = .next t → t.status.error = true →
    let opc := (w.extractLsb' 24 8).toNat
    (opc = 1 → t.errCode ∈ ([0x07, 0x01] : List (BitVec 8))) ∧
    (opc = 2 ∨ opc = 3 ∨ opc = 8 → t.errCode = 0x07) ∧
    (opc = 4 ∨ opc = 5 → t.errCode ∈ ([0x07, 0x03] : List (BitVec 8))) ∧
    (opc = 6 → t.errCode ∈ ([0x07, 0x02] : List (BitVec 8))) ∧
    (opc = 7 → t.errCode ∈ ([0x07, 0x01, 0x08, 0x05, 0x04] : List (BitVec 8))) ∧
    (opc = 0 ∨ 9 ≤ opc → t.errCode = 0x07)

/-- R109's "writes" column as a rule about the whole machine: whatever a command does, each register, register file and
memory byte outside its column (and STATUS and the error registers) is unchanged. -/
def Obligations.CommandsWriteOnlyTheirColumn : Prop :=
  ∀ (i : Instr) (s t : State), CfgValid s → exec i s = .next t →
    t = { s with
      status := t.status, errCode := t.errCode, errArg0 := t.errArg0, errArg1 := t.errArg1, errArg2 := t.errArg2
      result := t.result, palCount := t.palCount, tileCount := t.tileCount, wordCount := t.wordCount
      mapCount := t.mapCount, nameCount := t.nameCount, cam := t.cam, tidx := t.tidx, tword := t.tword
      pal := t.pal, palw := t.palw, mem := t.mem } ∧
    MemSameOutside s t (writableRanges s i) ∧
    (i ≠ .encrgb → i ≠ .find → t.result = s.result) ∧
    (i ≠ .quantBg → i ≠ .quantAtlas → t.palCount = s.palCount) ∧
    (i ≠ .quantBg → i ≠ .quantAtlas → i ≠ .bgtileRemap → t.pal = s.pal) ∧
    (i ≠ .encpal → t.palw = s.palw) ∧
    ((∀ len, i ≠ .tpack len) → t.tword = s.tword) ∧
    ((∀ len, i ≠ .tunpack len) → t.tidx = s.tidx) ∧
    (i ≠ .bgtile → i ≠ .bgtileRemap → t.cam = s.cam ∧ t.mapCount = s.mapCount) ∧
    (i ≠ .bgtile → i ≠ .bgtileRemap → i ≠ .atlas → t.tileCount = s.tileCount ∧ t.wordCount = s.wordCount) ∧
    (i ≠ .atlas → t.nameCount = s.nameCount)

/-! ## QUANT, ENCPAL, ENCRGB -/

/-- R131: QUANT in both modes writes what one function QFN of (W, H, pixels) gives, with 1 ≤ n ≤ 16 (Q2), zero entries
from n on (Q3) and every index below n (Q4); the same function on every run and in every state (Q1). The rest of the
state is unchanged. -/
def Obligations.QuantFollowsOneQfn : Prop :=
  ∃ (len : Nat → Nat → List Rgba → Nat) (entry : Nat → Nat → List Rgba → Nat → Rgb)
    (index : Nat → Nat → List Rgba → Nat → Nat),
    (∀ w h pix, 1 ≤ len w h pix ∧ len w h pix ≤ 16 ∧
      (∀ k, len w h pix ≤ k → entry w h pix k = ⟨0, 0, 0⟩) ∧ ∀ p, index w h pix p < len w h pix) ∧
    ∀ (s : State) (i : Instr),
      (i = .quantBg ∧ RasterOk s 256 160 ∨
        i = .quantAtlas ∧ CfgValid s ∧ RasterOk s s.rasterMaxW s.rasterMaxH) →
      ∃ t, exec i s = .next t ∧
        t = { s with status := doneStatus s, pal := t.pal, palCount := t.palCount, mem := t.mem } ∧
        MemSameOutside s t [(Config.idxBase, s.imgW.toNat * s.imgH.toNat / 2)] ∧
        t.palCount.toNat = len s.imgW.toNat s.imgH.toNat (rasterPixels s) ∧
        (∀ (k : Nat) (hk : k < 16), t.pal[k] = entry s.imgW.toNat s.imgH.toNat (rasterPixels s) k) ∧
        ∀ p, p < s.imgW.toNat * s.imgH.toNat →
          (nib t p).toNat = index s.imgW.toNat s.imgH.toNat (rasterPixels s) p

/-- QUANT rejects a raster that is empty, not a multiple of 8, or above its mode's bound, and writes nothing (R130). -/
def Obligations.QuantRejectsGeometry : Prop :=
  ∀ s : State,
    (¬ RasterOk s 256 160 →
      exec .quantBg s = .next (errorState s 0x01 0xFFFFFFFF (s.imgW.setWidth 32) (s.imgH.setWidth 32))) ∧
    (¬ RasterOk s s.rasterMaxW s.rasterMaxH →
      exec .quantAtlas s = .next (errorState s 0x01 0xFFFFFFFF (s.imgW.setWidth 32) (s.imgH.setWidth 32)))

/-- R132, R136: the channel conversion: its formula, its range, its end points, that it is non-decreasing, that it is
31c/255 rounded to nearest with no ties to break, and the smallest input of each output. -/
def Obligations.ChannelConversion : Prop :=
  (∀ c : Byte, c5 c = (c.toNat * 31 + 127) / 255 ∧ c5 c ≤ 31 ∧ c.toNat * 31 + 127 ≤ 8032 ∧
    c5 c = (62 * c.toNat + 255) / 510 ∧ ∀ k, 62 * c.toNat ≠ 255 * (2 * k + 1)) ∧
  c5 255 = 31 ∧ c5 0 = 0 ∧
  (∀ c d : Byte, c.toNat ≤ d.toNat → c5 c ≤ c5 d) ∧
  ∀ v : Fin 32, ∀ c : Byte,
    v.val ≤ c5 c ↔
      ([0, 5, 13, 21, 29, 38, 46, 54, 62, 70, 79, 87, 95, 103, 112, 120,
        128, 136, 144, 153, 161, 169, 177, 186, 194, 202, 210, 218, 227, 235, 243, 251] : List Nat)[v.val]! ≤ c.toNat

/-- R134: ENCPAL is the one legal word of OPC 0x02; it encodes all 16 palette entries, whatever PAL_COUNT is, by R133,
and changes nothing else. -/
def Obligations.EncpalEncodesEveryEntry : Prop :=
  OnlyCommandWord 0x02000000 .encpal ∧ ∀ s : State, ∃ t, exec .encpal s = .next t ∧
    t = { s with status := doneStatus s, palw := t.palw } ∧
    ∀ (k : Nat) (hk : k < 16), (t.palw[k]).toNat = encNat s.pal[k]

/-- R135: ENCRGB is the one legal word of OPC 0x03; it writes the colour word of ARG0 (R133) to RESULT, zero-extended,
and changes nothing else. -/
def Obligations.EncrgbEncodesArg0 : Prop :=
  OnlyCommandWord 0x03000000 .encrgb ∧ ∀ s : State, ∃ t, exec .encrgb s = .next t ∧
    t = { s with status := doneStatus s, result := t.result } ∧
    t.result.toNat = encNat s.arg0 ∧ t.result.extractLsb' 15 17 = 0

/-! ## TPACK, TUNPACK -/

/-- R153: a word of OPC 0x04 with FLAGS 0 is TPACK LEN and any other is illegal; TPACK 64 puts index 8j + n in bits
[4n+3:4n] of TWORD[j] (R151) and changes nothing else; any other LEN raises InvalidTileSize and writes nothing. -/
def Obligations.TpackPacksRows : Prop :=
  (∀ w : Word, w.extractLsb' 24 8 = 0x04 →
    decodeWord w = if w.extractLsb' 16 8 = 0 then .tpack (w.extractLsb' 0 16) else .illegal w) ∧
  ∀ s : State,
    (∃ t, exec (.tpack 64) s = .next t ∧
      t = { s with status := doneStatus s, tword := t.tword } ∧
      ∀ (j n : Nat) (hj : j < 8) (hn : n < 8),
        (t.tword[j]).extractLsb' (4 * n) 4 = s.tidx[8 * j + n]'(by omega)) ∧
    ∀ len : BitVec 16, len ≠ 64 →
      exec (.tpack len) s = .next (errorState s 0x03 0xFFFFFFFF (len.setWidth 32) 64)

/-- R154: a word of OPC 0x05 with FLAGS 0 is TUNPACK LEN and any other is illegal; TUNPACK 32 takes index 8j + n from
bits [4n+3:4n] of TWORD[j] (R152) and changes nothing else; any other LEN raises InvalidTileSize and writes nothing. -/
def Obligations.TunpackUnpacksRows : Prop :=
  (∀ w : Word, w.extractLsb' 24 8 = 0x05 →
    decodeWord w = if w.extractLsb' 16 8 = 0 then .tunpack (w.extractLsb' 0 16) else .illegal w) ∧
  ∀ s : State,
    (∃ t, exec (.tunpack 32) s = .next t ∧
      t = { s with status := doneStatus s, tidx := t.tidx } ∧
      ∀ (j n : Nat) (hj : j < 8) (hn : n < 8),
        t.tidx[8 * j + n]'(by omega) = (s.tword[j]).extractLsb' (4 * n) 4) ∧
    ∀ len : BitVec 16, len ≠ 32 →
      exec (.tunpack len) s = .next (errorState s 0x03 0xFFFFFFFF (len.setWidth 32) 32)

/-- R152: Unpack's formula; and unpacking a packed tile restores it, and packing an unpacked one restores its words, as
the two commands run one after the other. -/
def Obligations.CodecRoundTrips : Prop :=
  (∀ (w : PackedTile) (j n : Nat) (hj : j < 8) (hn : n < 8),
    (unpack w)[8 * j + n]'(by omega) = (w[j]).extractLsb' (4 * n) 4) ∧
  ∀ s : State,
    (∃ t u, exec (.tpack 64) s = .next t ∧ exec (.tunpack 32) t = .next u ∧ u.tidx = s.tidx ∧ u.tword = t.tword) ∧
    ∃ t u, exec (.tunpack 32) s = .next t ∧ exec (.tpack 64) t = .next u ∧ u.tword = s.tword ∧ u.tidx = t.tidx

/-! ## BGTILE -/

/-- Both forms of BGTILE raise GeometryOutOfBounds when any geometry test fails, and write nothing (R170, R225). -/
def Obligations.BgtileRejectsGeometry : Prop :=
  ∀ s : State, ¬ BackgroundOk s →
    exec .bgtile s = .next (errorState s 0x02 0xFFFFFFFF (s.imgW.setWidth 32) (s.imgH.setWidth 32)) ∧
    exec .bgtileRemap s = .next (errorState s 0x02 0xFFFFFFFF (s.imgW.setWidth 32) (s.imgH.setWidth 32))

/-- BGTILE completes on every geometry it admits: its counters (R170, R174, R175, R177 d), and its frame: only the CAM,
MAP entries below MAP_W·MAP_H, TILE_BUF words below WORD_COUNT and the three counters change. -/
def Obligations.BgtileCompletes : Prop :=
  ∀ s : State, BackgroundOk s → ∃ t, exec .bgtile s = .next t ∧
    t = { s with
      status := doneStatus s, cam := t.cam, mem := t.mem
      tileCount := t.tileCount, wordCount := t.wordCount, mapCount := t.mapCount } ∧
    t.tileCount.toNat = 1 + distinctBlocks s (blockCount s) ∧
    t.wordCount.toNat = 8 * t.tileCount.toNat ∧
    t.mapCount.toNat = s.mapW.toNat * s.mapH.toNat ∧
    MemSameOutside s t
      [(Config.mapBase, 2 * (s.mapW.toNat * s.mapH.toNat)), (Config.tileBufBase, 32 * t.tileCount.toNat)]

/-- The tilemap and the tile set agree with the raster: tile 0 is blank; each covered entry names, with flip and bank
bits 0, a tile in 1 .. TILE_COUNT − 1 equal to the raster's block there; each entry right of the raster is 0 (R172,
R174, R175, R177 a, b, e). -/
def Obligations.BgtileMapRebuildsRaster : Prop :=
  ∀ s t : State, BackgroundOk s → exec .bgtile s = .next t →
    tileAt t 0 = blankTile ∧
    ∀ r c, r < s.mapH.toNat → c < s.mapW.toNat →
      let e := (mapAt t (r * s.mapW.toNat + c)).toNat
      (c < s.imgW.toNat / 8 → 1 ≤ e ∧ e < t.tileCount.toNat ∧ e < 1024 ∧ tileAt t e = block s (8 * c) (8 * r)) ∧
      (s.imgW.toNat / 8 ≤ c → e = 0)

/-- Exact deduplication: two blocks have the same map entry just when they are pixel-identical, a block that occurs for
the first time gets 1 + the number of distinct blocks before it, and tiles 1 .. TILE_COUNT − 1 are pairwise distinct
(R173, R176, R177 c, f). -/
def Obligations.BgtileDeduplicatesExactly : Prop :=
  ∀ s t : State, BackgroundOk s → exec .bgtile s = .next t →
    let wide := s.imgW.toNat / 8
    let entry := fun p => (mapAt t (p / wide * s.mapW.toNat + p % wide)).toNat
    (∀ p q, p < blockCount s → q < blockCount s → (entry p = entry q ↔ blockAt s p = blockAt s q)) ∧
    (∀ p, p < blockCount s → (∀ q, q < p → blockAt s q ≠ blockAt s p) → entry p = 1 + distinctBlocks s p) ∧
    ∀ a b, 1 ≤ a → a < t.tileCount.toNat → 1 ≤ b → b < t.tileCount.toNat → tileAt t a = tileAt t b → a = b

/-- R171: BGTILE.REMAP first exchanges index 0 with p0 = Px(0, 0) in every pixel of the raster and in the palette, and
then does what BGTILE does on the result; with p0 = 0 it changes neither. After it Px(0, 0) = 0. -/
def Obligations.RemapExchangesBackgroundIndex : Prop :=
  ∀ s : State, BackgroundOk s →
    ∃ t u : State, exec .bgtileRemap s = .next t ∧ t.status = doneStatus s ∧ exec .bgtile u = .next t ∧
      u = { s with pal := u.pal, mem := u.mem } ∧
      MemSameOutside s u [(Config.idxBase, s.imgW.toNat * s.imgH.toNat / 2)] ∧
      (px s 0 0 = 0 → u = s) ∧
      (∀ p, p < s.imgW.toNat * s.imgH.toNat →
        nib u p = if nib s p = 0 then px s 0 0 else if nib s p = px s 0 0 then 0 else nib s p) ∧
      (∀ (k : Nat) (hk : k < 16), u.pal[k] =
        if k = 0 then s.pal[(px s 0 0).toNat]'((px s 0 0).isLt)
        else if k = (px s 0 0).toNat then s.pal[0] else s.pal[k]) ∧
      px t 0 0 = 0 ∧ t.pal = u.pal ∧ t.palCount = s.palCount ∧ t.palw = s.palw

/-! ## ATLAS, FIND -/

/-- ATLAS's raster check and count check (R191, R193): the raster first, then REGION_COUNT, before any region. -/
def Obligations.AtlasChecksRasterThenCount : Prop :=
  ∀ s : State,
    (¬ RasterOk s s.rasterMaxW s.rasterMaxH →
      exec .atlas s = .next (errorState s 0x01 0xFFFFFFFF (s.imgW.setWidth 32) (s.imgH.setWidth 32))) ∧
    (RasterOk s s.rasterMaxW s.rasterMaxH → 128 < s.regionCount.toNat →
      exec .atlas s = .next (errorState s 0x08 0xFFFFFFFF (s.regionCount.setWidth 32) 128))

/-- ATLAS's region checks: the first region in index order that fails ends the command with its index, its raw W and H
words (or the running tile total), and nothing written; within a region size comes before bounds, and bounds before
capacity (R190, R192, R193, R198, R225). -/
def Obligations.AtlasReportsFirstBadRegion : Prop :=
  ∀ (s : State) (i : Nat), AtlasInputsOk s → i < s.regionCount.toNat → RegionsPass s i →
    (SizeInvalid s i →
      exec .atlas s = .next (errorState s 0x05 (BitVec.ofNat 32 i)
        (memWord s (0x2000 + 64 * i + 8)) (memWord s (0x2000 + 64 * i + 12)))) ∧
    (¬ SizeInvalid s i → OutOfRaster s i →
      exec .atlas s = .next (errorState s 0x04 (BitVec.ofNat 32 i)
        (memWord s (0x2000 + 64 * i + 8)) (memWord s (0x2000 + 64 * i + 12)))) ∧
    (¬ SizeInvalid s i → ¬ OutOfRaster s i → 1024 < tilesBefore s (i + 1) →
      exec .atlas s = .next (errorState s 0x08 (BitVec.ofNat 32 i) (BitVec.ofNat 32 (tilesBefore s (i + 1))) 1024))

/-- ATLAS completes when every check passes: its counters, and its frame: only TILE_BUF words below WORD_COUNT, DESC and
NAME entries below REGION_COUNT and the three counters change (R190, R199). -/
def Obligations.AtlasCompletes : Prop :=
  ∀ s : State, AtlasInputsOk s → RegionsPass s s.regionCount.toNat → ∃ t, exec .atlas s = .next t ∧
    t = { s with
      status := doneStatus s, mem := t.mem
      tileCount := t.tileCount, wordCount := t.wordCount, nameCount := s.regionCount } ∧
    t.tileCount.toNat = tilesBefore s s.regionCount.toNat ∧
    t.wordCount.toNat = 8 * tilesBefore s s.regionCount.toNat ∧
    MemSameOutside s t
      [(Config.tileBufBase, 32 * tilesBefore s s.regionCount.toNat),
        (Config.descBase, 32 * s.regionCount.toNat), (Config.nameBase, 32 * s.regionCount.toNat)]

/-- The descriptor and the name of every region (R194, R196, R197, R199): WIDTH, HEIGHT, TILES_PER_FRAME, FRAME_COUNT 1,
WORD_OFFSET (8 times the tiles of the regions before), the two size codes, 0, and the 32 bytes of REGION[i].NAME. -/
def Obligations.AtlasDescribesRegions : Prop :=
  ∀ (s t : State) (i : Nat), AtlasInputsOk s → RegionsPass s s.regionCount.toNat → exec .atlas s = .next t →
    i < s.regionCount.toNat →
    let code := fun v : Int => if v ≤ 8 then 0 else if v ≤ 16 then 1 else if v ≤ 32 then 2 else 3
    let field := fun k => ((memWord t (0x4000 + 32 * i + 4 * k)).toNat : Int)
    field 0 = regW s i ∧ field 1 = regH s i ∧ field 2 = regTiles s i ∧ field 3 = 1 ∧
    field 4 = 8 * tilesBefore s i ∧ field 5 = code (regW s i) ∧ field 6 = code (regH s i) ∧ field 7 = 0 ∧
    ∀ b, b < 32 → memByte t (0x5000 + 32 * i + b) = memByte s (0x2000 + 64 * i + 16 + b)

/-- The tiles of every region, row-major, from its WORD_OFFSET on and without deduplication (R150, R194, R195): tile
(tr, tc) of region i is the raster's block at (x + 8·tc, y + 8·tr). -/
def Obligations.AtlasEmitsTilesRowMajor : Prop :=
  ∀ (s t : State) (i tr tc : Nat), AtlasInputsOk s → RegionsPass s s.regionCount.toNat → exec .atlas s = .next t →
    i < s.regionCount.toNat → tr < (regH s i).toNat / 8 → tc < (regW s i).toNat / 8 →
    tileAt t (tilesBefore s i + tr * ((regW s i).toNat / 8) + tc) =
      block s ((regX s i).toNat + 8 * tc) ((regY s i).toNat + 8 * tr)

/-- R200: FIND is the one legal word of OPC 0x08; it writes the lowest index below NAME_COUNT whose name equals KEY in all 32 bytes, or 0xFFFFFFFF, and
changes nothing else. -/
def Obligations.FindReturnsFirstMatch : Prop :=
  OnlyCommandWord 0x08000000 .find ∧ ∀ s : State,
    let same := fun i => ∀ (b : Nat) (hb : b < 32), memByte s (0x5000 + 32 * i + b) = s.key[b]
    ∃ t, exec .find s = .next t ∧ t = { s with status := doneStatus s, result := t.result } ∧
      ((∃ i, i < s.nameCount.toNat ∧ same i ∧ (∀ j, j < i → ¬ same j) ∧ t.result.toNat = i) ∨
        ((∀ i, i < s.nameCount.toNat → ¬ same i) ∧ t.result = 0xFFFFFFFF))

/-! ## The host's accesses -/

/-- R63, R65, R77: which accesses are refused, and that a refused one returns 0, changes nothing and sets BUSERR; every
other access is not refused: a read leaves all but the port's answer as it was, and a write does not set BUSERR. Whether
a refused or an ignored access gets a bus error response is left out (BUS_PROTOCOL, log 12). -/
def Obligations.RefusedAccessesSetBuserrOnly : Prop :=
  ∀ (s : State) (w : Width) (off : Offset) (v : Word),
    (Refused s w off.toNat →
      (∃ b, hostRead w off s = refusedState s b) ∧ ∃ b, hostWrite w off v s = refusedState s b) ∧
    (¬ Refused s w off.toNat →
      (∃ d, hostRead w off s = { s with response := some ⟨d, false⟩ }) ∧
      (∃ b, (hostWrite w off v s).response = some ⟨0, b⟩) ∧
      ((hostWrite w off v s).status.buserr = true → s.status.buserr = true))

/-- R77: while BUSY = 1, ID, CTRL, STATUS, CMD and CFG0-CFG2 read their values and are written as their rules say: a CMD
write is discarded with CMDREJ, a STATUS write clears the flags written 1, a write to ID or CFG0-CFG2 is ignored, a CTRL
write changes the two enables but not STRICT_SIZE, or with bit 31 resets the block; every other access is refused. The
bus error response of a discarded, ignored or refused access is left out (BUS_PROTOCOL, log 12). -/
def Obligations.BusyBlockAnswersControlRegisters : Prop :=
  ∀ (s : State) (v : Word), s.status.busy = true →
    (∀ r ∈ [Reg.id, .ctrl, .status, .cmd, .cfg0, .cfg1, .cfg2],
      hostRead .w32 (BitVec.ofNat 21 (regOffset r)) s = { s with response := some ⟨readReg s r, false⟩ }) ∧
    (∃ b, hostWrite .w32 0x00000C v s =
      { s with status := { s.status with cmdrej := true }, response := some ⟨0, b⟩ }) ∧
    (hostWrite .w32 0x000008 v s).status =
      ⟨true, s.status.done && !v.getLsbD 1, s.status.error && !v.getLsbD 2, s.status.cmdrej && !v.getLsbD 3,
        s.status.buserr && !v.getLsbD 4⟩ ∧
    (∀ r ∈ [Reg.id, .cfg0, .cfg1, .cfg2],
      ∃ b, hostWrite .w32 (BitVec.ofNat 21 (regOffset r)) v s = { s with response := some ⟨0, b⟩ }) ∧
    (v.getLsbD 31 = false → hostWrite .w32 0x000004 v s =
      { s with
        ctrl := ⟨v.getLsbD 0, v.getLsbD 1, s.ctrl.strictSize⟩
        response := some ⟨0, false⟩ }) ∧
    (v.getLsbD 31 = true → (hostWrite .w32 0x000004 v s).status = ⟨false, false, false, false, false⟩ ∧
      (hostWrite .w32 0x000004 v s).ctrl = ⟨false, false, false⟩) ∧
    ∀ (w : Width) (off : Offset),
      ¬ (w = .w32 ∧ off.toNat ∈ [0x000, 0x004, 0x008, 0x00C, 0x050, 0x054, 0x058]) →
      (∃ b, hostRead w off s = refusedState s b) ∧ ∃ b, hostWrite w off v s = refusedState s b

/-- R39: a CMD write is discarded with CMDREJ while BUSY or ERROR is 1, and otherwise accepted: CMD holds the word, DONE
is cleared and BUSY set. Nothing is decoded: an illegal word is accepted, and completes with IllegalCommand.
The bus error response of a discarded write is left out (BUS_PROTOCOL, log 12). -/
def Obligations.CommandAcceptance : Prop :=
  ∀ (s : State) (w : Word),
    (s.status.busy = true ∨ s.status.error = true →
      ∃ b, hostWrite .w32 0x00000C w s =
        { s with status := { s.status with cmdrej := true }, response := some ⟨0, b⟩ }) ∧
    (s.status.busy = false → s.status.error = false →
      hostWrite .w32 0x00000C w s =
        { s with cmd := w, status := { s.status with done := false, busy := true }, response := some ⟨0, false⟩ }) ∧
    (decodeWord w = .illegal w → exec (decodeWord w) s = .next (errorState s 0x07 0xFFFFFFFF w 0))

/-- R66: a write to a read-only register, or to PALW, MAP, DESC, NAME or TILE_BUF, that is not refused is ignored: it
does not even set BUSERR. Its bus error response is left out (BUS_PROTOCOL, log 12). -/
def Obligations.ReadOnlyLocationsIgnoreWrites : Prop :=
  ∀ (s : State) (w : Width) (off : Offset) (v : Word), ¬ Refused s w off.toNat →
    (off.toNat ∈ [0x000, 0x010, 0x014, 0x018, 0x01C, 0x038, 0x03C, 0x040, 0x044, 0x048, 0x04C, 0x050, 0x054, 0x058] ∨
      (0x000240 ≤ off.toNat ∧ off.toNat < 0x000260) ∨ (0x000400 ≤ off.toNat ∧ off.toNat < 0x000900) ∨
      (0x004000 ≤ off.toNat ∧ off.toNat < 0x006000) ∨ (0x008000 ≤ off.toNat ∧ off.toNat < 0x010000)) →
    ∃ b, hostWrite w off v s = { s with response := some ⟨0, b⟩ }

/-- An accepted write to IDX, SRC or REGION RAM stores exactly the access's bytes, least significant first; a byte
reserved in a region record stays 0, every other byte and every other field is unchanged, and reading the same access
back gives the value unless it touches reserved bytes (R62, R67, R68, R74). The value of a narrow write stands in the low
bits (log 16); whether a write to reserved bytes, which is ignored, gets a bus error response is left out (BUS_PROTOCOL,
log 12). -/
def Obligations.MemoryWritesAreLittleEndian : Prop :=
  ∀ (s : State) (w : Width) (off : Offset) (v : Word), ¬ Refused s w off.toNat →
    ((0x020000 ≤ off.toNat ∧ off.toNat < 0x040000) ∨ 0x100000 ≤ off.toNat ∨
      (0x002000 ≤ off.toNat ∧ off.toNat < 0x004000)) →
    let t := hostWrite w off v s
    let kept := 0x002000 ≤ off.toNat ∧ off.toNat < 0x004000 ∧ 48 ≤ off.toNat % 64
    (∃ b, t = { s with mem := t.mem, response := some ⟨0, b⟩ } ∧ (¬ kept → b = false)) ∧
    (∀ k, k < w.bytes →
      memByte t (off.toNat + k) = if kept then 0 else v.extractLsb' (8 * k) 8) ∧
    MemSameOutside s t [(off.toNat, w.bytes)] ∧
    (¬ kept → (hostRead w off t).response = some ⟨BitVec.ofNat 32 (v.toNat % 2 ^ (8 * w.bytes)), false⟩)

/-- Aligned writes of every width to the staging registers and to PAL (R42, R62, R63, R69, R71): the bytes from offset k
of the window on, as many as the access has, take the value's bytes, least significant first. A TIDX element keeps the
low nibble of its byte, a PAL slot ignores its byte 3, and every other byte and field is unchanged. The value of a narrow
write stands in the low bits (log 16); whether an 8-bit write to byte 3 of a PAL slot, which is ignored, gets a bus error
response is left out (BUS_PROTOCOL, log 12). -/
def Obligations.StagingAndPaletteWrites : Prop :=
  ∀ (s : State) (w : Width) (v : Word) (k : Nat), s.status.busy = false → k % w.bytes = 0 →
    let wr := fun base => hostWrite w (BitVec.ofNat 21 (base + k)) v s
    let byte := fun (b : Nat) (old : Byte) => if k ≤ b ∧ b < k + w.bytes then v.extractLsb' (8 * (b - k)) 8 else old
    (k < 64 → wr 0x100 = { s with tidx := (wr 0x100).tidx, response := some ⟨0, false⟩ } ∧
      ∀ (e : Nat) (he : e < 64),
        (wr 0x100).tidx[e] = if k ≤ e ∧ e < k + w.bytes then v.extractLsb' (8 * (e - k)) 4 else s.tidx[e]) ∧
    (k < 32 → wr 0x140 = { s with tword := (wr 0x140).tword, response := some ⟨0, false⟩ } ∧
      ∀ (j c : Nat) (hj : j < 8), c < 4 →
        ((wr 0x140).tword[j]).extractLsb' (8 * c) 8 = byte (4 * j + c) ((s.tword[j]).extractLsb' (8 * c) 8)) ∧
    (k < 32 → wr 0x160 = { s with key := (wr 0x160).key, response := some ⟨0, false⟩ } ∧
      ∀ (e : Nat) (he : e < 32), (wr 0x160).key[e] = byte e s.key[e]) ∧
    (k < 64 → (∃ b, wr 0x200 = { s with pal := (wr 0x200).pal, response := some ⟨0, b⟩ } ∧
        (¬ (w = .w8 ∧ k % 4 = 3) → b = false)) ∧
      ∀ (e : Nat) (he : e < 16), (wr 0x200).pal[e] =
        ⟨byte (4 * e) s.pal[e].r, byte (4 * e + 1) s.pal[e].g, byte (4 * e + 2) s.pal[e].b⟩)

/-- What the host reads in the windows, little-endian and zero-extended (R42, R43, R62, R63, R66-R76). An aligned read of
any width gives the bytes of the window's image from its offset on: TIDX's low nibbles, TWORD, KEY, PAL with byte 3 of a
slot 0, PALW with bit 15 0, and the bytes of MAP, REGION, DESC, NAME, TILE_BUF, and of IDX and SRC as far as the RAM goes.
Then the same by element: TIDX, TWORD, KEY, PAL, PALW, MAP, a TILE_BUF word and its byte 1, and 0 in DESC word 7 (log 8)
and in a region record's reserved bytes. -/
def Obligations.WindowReads : Prop :=
  ∀ s : State, s.status.busy = false →
    let rd := fun w a => ((hostRead w (BitVec.ofNat 21 a) s).response.map fun r => r.data.toNat)
    let image := fun (base size : Nat) (f : Nat → Byte) =>
      ∀ (w : Width) (k : Nat), k % w.bytes = 0 → k + w.bytes ≤ size → rd w (base + k) = some (littleEndian f k w.bytes)
    let memory := fun (base b : Nat) => memByte s (base + b)
    image 0x100 64 (fun b => ((s.tidx[b]?).getD 0).setWidth 8) ∧
    image 0x140 32 (fun b => ((s.tword[b / 4]?).getD 0).extractLsb' (8 * (b % 4)) 8) ∧
    image 0x160 32 (fun b => (s.key[b]?).getD 0) ∧
    image 0x200 64 (fun b =>
      let c := (s.pal[b / 4]?).getD ⟨0, 0, 0⟩
      if b % 4 = 0 then c.r else if b % 4 = 1 then c.g else if b % 4 = 2 then c.b else 0) ∧
    image 0x240 32 (fun b => (((s.palw[b / 2]?).getD 0).setWidth 16).extractLsb' (8 * (b % 2)) 8) ∧
    image 0x400 0x500 (memory 0x400) ∧ image 0x2000 0x2000 (memory 0x2000) ∧ image 0x4000 0x1000 (memory 0x4000) ∧
    image 0x5000 0x1000 (memory 0x5000) ∧ image 0x8000 0x8000 (memory 0x8000) ∧
    image 0x20000 (min 0x20000 (s.rasterMaxW * s.rasterMaxH / 2)) (memory 0x20000) ∧
    image 0x100000 (min 0x100000 (s.rasterMaxW * s.rasterMaxH * 4)) (memory 0x100000) ∧
    (∀ (k : Nat) (hk : k < 64), rd .w8 (0x100 + k) = some (s.tidx[k]).toNat) ∧
    (∀ (j : Nat) (hj : j < 8), rd .w32 (0x140 + 4 * j) = some (s.tword[j]).toNat) ∧
    (∀ (b : Nat) (hb : b < 32), rd .w8 (0x160 + b) = some (s.key[b]).toNat) ∧
    (∀ (k : Nat) (hk : k < 16), rd .w32 (0x200 + 4 * k) =
      some ((s.pal[k]).r.toNat + 256 * (s.pal[k]).g.toNat + 65536 * (s.pal[k]).b.toNat)) ∧
    (∀ (k : Nat) (hk : k < 16), rd .w16 (0x240 + 2 * k) = some (s.palw[k]).toNat) ∧
    (∀ e, e < 640 → rd .w16 (0x400 + 2 * e) = some (mapAt s e).toNat) ∧
    (∀ w, w < 8192 → rd .w32 (0x8000 + 4 * w) = some (tileWord s w).toNat ∧
      rd .w8 (0x8000 + 4 * w + 1) = some ((tileWord s w).toNat / 256 % 256)) ∧
    ∀ i, i < 128 → rd .w32 (0x4000 + 32 * i + 28) = some 0 ∧ rd .w32 (0x2000 + 64 * i + 48) = some 0

/-- Host writes to the geometry registers, REGION_COUNT and ARG0 keep the bits their rules define and ignore the
reserved ones, and read back zero-extended (R28-R31); a CTRL write with bit 31 = 0 sets IE_DONE, IE_ERR and STRICT_SIZE
from bits 0-2 and changes nothing else (R23). -/
def Obligations.GeometryRegisterWrites : Prop :=
  ∀ (s : State) (v : Word), s.status.busy = false →
    let wr := fun a => hostWrite .w32 a v s
    let rd := fun (a : Offset) t => (hostRead .w32 a t).response
    let low := some ({ data := (v.setWidth 16).setWidth 32, busError := false } : Response)
    wr 0x020 = { s with imgW := v.setWidth 16, response := some ⟨0, false⟩ } ∧ rd 0x020 (wr 0x020) = low ∧
    wr 0x024 = { s with imgH := v.setWidth 16, response := some ⟨0, false⟩ } ∧ rd 0x024 (wr 0x024) = low ∧
    wr 0x028 = { s with mapW := v.setWidth 16, response := some ⟨0, false⟩ } ∧ rd 0x028 (wr 0x028) = low ∧
    wr 0x02C = { s with mapH := v.setWidth 16, response := some ⟨0, false⟩ } ∧ rd 0x02C (wr 0x02C) = low ∧
    wr 0x030 = { s with regionCount := v.setWidth 16, response := some ⟨0, false⟩ } ∧ rd 0x030 (wr 0x030) = low ∧
    wr 0x034 =
      { s with
        arg0 := ⟨v.extractLsb' 0 8, v.extractLsb' 8 8, v.extractLsb' 16 8⟩
        response := some ⟨0, false⟩ } ∧
    rd 0x034 (wr 0x034) = some ⟨(v.setWidth 24).setWidth 32, false⟩ ∧
    (v.getLsbD 31 = false →
      wr 0x004 = { s with ctrl := ⟨v.getLsbD 0, v.getLsbD 1, v.getLsbD 2⟩, response := some ⟨0, false⟩ })

/-- A STATUS write clears just the flags written 1, BUSY never, and clearing ERROR clears the four error registers
(R24, R226). -/
def Obligations.StatusWriteClearsFlags : Prop :=
  ∀ (s : State) (v : Word),
    let keep := fun (b : Bool) (i : Nat) => b && !v.getLsbD i
    let t := hostWrite .w32 0x000008 v s
    t.status = ⟨s.status.busy, keep s.status.done 1, keep s.status.error 2, keep s.status.cmdrej 3,
      keep s.status.buserr 4⟩ ∧
    (v.getLsbD 2 = true → t = { s with
      status := t.status, errCode := 0, errArg0 := 0, errArg1 := 0, errArg2 := 0, response := some ⟨0, false⟩ }) ∧
    (v.getLsbD 2 = false → t = { s with status := t.status, response := some ⟨0, false⟩ })

/-- R229: the interrupt output, from the words the host reads: (DONE and IE_DONE) or (ERROR and IE_ERR); 0 after
power-on reset, and accepting a command clears the DONE term. -/
def Obligations.InterruptOutput : Prop :=
  (∀ s : State, s.irq =
    (((readReg s .status).getLsbD 1 && (readReg s .ctrl).getLsbD 0) ||
      ((readReg s .status).getLsbD 2 && (readReg s .ctrl).getLsbD 1))) ∧
  (∀ s : State, (powerOnReset s).irq = false) ∧
  ∀ (s : State) (w : Word), s.status.busy = false → s.status.error = false →
    (hostWrite .w32 0x00000C w s).irq = false

/-! ## Reset -/

/-- R251: the register values the host reads after power-on reset with the default raster limits (log 5), and the errors of the
three geometry-checked commands before any geometry is set. -/
def Obligations.ResetRegisterValues : Prop :=
  let s := State.reset
  readReg s .id = 0x52430007 ∧ readReg s .ctrl = 0 ∧ readReg s .status = 0 ∧ readReg s .cmd = 0 ∧
  readReg s .errCode = 0 ∧ readReg s .errArg0 = 0 ∧ readReg s .errArg1 = 0 ∧ readReg s .errArg2 = 0 ∧
  readReg s .imgW = 0 ∧ readReg s .imgH = 0 ∧ readReg s .mapW = 0x20 ∧ readReg s .mapH = 0x14 ∧
  readReg s .regionCount = 0 ∧ readReg s .arg0 = 0 ∧ readReg s .result = 0 ∧ readReg s .palCount = 0 ∧
  readReg s .tileCount = 0 ∧ readReg s .wordCount = 0 ∧ readReg s .mapCount = 0 ∧ readReg s .nameCount = 0 ∧
  readReg s .cfg0 = 0x00A00100 ∧ readReg s .cfg1 = 0x00800400 ∧ readReg s .cfg2 = 0x14201020 ∧
  exec .quantBg s = .next (errorState s 0x01 0xFFFFFFFF 0 0) ∧
  exec .quantAtlas s = .next (errorState s 0x01 0xFFFFFFFF 0 0) ∧
  exec .bgtile s = .next (errorState s 0x02 0xFFFFFFFF 0 0) ∧
  exec .bgtileRemap s = .next (errorState s 0x02 0xFFFFFFFF 0 0) ∧
  exec .atlas s = .next (errorState s 0x01 0xFFFFFFFF 0 0)

/-- RST, from any state: every register at its reset value, the CAM invalid, no step pending, the staging registers 0,
IRQ 0; the open raster limits stay (R250; log 7). -/
def Obligations.PowerOnResetFromAnyState : Prop :=
  ∀ s : State,
    let t := powerOnReset s
    t = { registersReset s with
      tidx := Vector.replicate 64 0, tword := Vector.replicate 8 0, key := Vector.replicate 32 0
      pal := t.pal, palw := t.palw, mem := [], epochs := t.epochs, draws := t.draws, response := t.response } ∧
    t.irq = false

/-- Soft reset with no command pending: a CTRL write with bit 31 = 1 resets the registers of R23-R35 and the CAM,
whatever its other bits, and keeps everything else; SOFT_RESET reads 0 (R254). -/
def Obligations.SoftResetWhenIdle : Prop :=
  ∀ (s : State) (v : Word), s.status.busy = false → v.getLsbD 31 = true →
    hostWrite .w32 0x000004 v s = { registersReset s with response := some ⟨0, false⟩ } ∧
    readReg (hostWrite .w32 0x000004 v s) .ctrl = 0

/-- Soft reset with a command pending: the command is aborted, DONE and ERROR stay 0, the registers are reset, and every
location outside the command's "writes" column is unchanged (R109, R254, R255; the column is read as log 3 says). -/
def Obligations.SoftResetAbortsCommand : Prop :=
  ∀ (s : State) (v : Word), CfgValid s → s.status.busy = true → v.getLsbD 31 = true →
    let t := hostWrite .w32 0x000004 v s
    let i := decodeWord s.cmd
    t = { registersReset s with
      tidx := t.tidx, tword := t.tword, pal := t.pal, palw := t.palw, mem := t.mem
      epochs := t.epochs, draws := t.draws, response := some ⟨0, false⟩ } ∧
    t.irq = false ∧
    MemSameOutside s t (writableRanges s i) ∧
    (i ≠ .quantBg → i ≠ .quantAtlas → i ≠ .bgtileRemap → t.pal = s.pal) ∧
    (i ≠ .encpal → t.palw = s.palw) ∧
    ((∀ len, i ≠ .tpack len) → t.tword = s.tword) ∧
    ((∀ len, i ≠ .tunpack len) → t.tidx = s.tidx)

/-- A read, and a refused write, leaves every byte of the memories as it was, and a read made twice gives the same data
(R78, and R85 as far as reads and refused writes go). -/
def Obligations.ReadsAndRefusedWritesKeepBytes : Prop :=
  ∀ (s : State) (w : Width) (off : Offset) (v : Word) (a : Nat),
    memByte (hostRead w off s) a = memByte s a ∧
    (Refused s w off.toNat → memByte (hostWrite w off v s) a = memByte s a) ∧
    (hostRead w off (hostRead w off s)).response.map Response.data = (hostRead w off s).response.map Response.data

/-! ## Invariants -/

/-- The state after reset meets every invariant below. -/
def Obligations.ResetMeetsInvariants : Prop :=
  let s := State.reset
  Memory.wf s.mem ∧ HandshakeOk s ∧ ErrorLatchOk s ∧ CountersOk s ∧ CamOk s ∧ CfgValid s ∧ MemInRam s ∧ DrawsFresh s

/-- Every step keeps the memory's canonical form: offsets strictly rising, nothing stored where the block hard-wires 0
(R74, V15; log 9). -/
def Obligations.StepKeepsMemoryCanonical : Prop :=
  ∀ s t : State, Memory.wf s.mem → step s = .next t → Memory.wf t.mem

/-- Every step keeps the handshake: DONE and ERROR never both 1, and neither while a command is pending (R24, R39, R230). -/
def Obligations.StepKeepsHandshake : Prop :=
  ∀ s t : State, HandshakeOk s → step s = .next t → HandshakeOk t

/-- Every step keeps the error latch: the error registers are 0 unless ERROR = 1, and then hold a code the block raises
(R26, R27, R221). -/
def Obligations.StepKeepsErrorLatch : Prop :=
  ∀ s t : State, ErrorLatchOk s → step s = .next t → ErrorLatchOk t

/-- Every step keeps the counters within the memories they count, with WORD_COUNT = 8 × TILE_COUNT (R33-R35). -/
def Obligations.StepKeepsCounters : Prop :=
  ∀ s t : State, CountersOk s → step s = .next t → CountersOk t

/-- Every step keeps the CAM within its 640 entries with no key twice (R37). -/
def Obligations.StepKeepsCamUnambiguous : Prop :=
  ∀ s t : State, CamOk s → step s = .next t → CamOk t

/-- Every step keeps what is written inside the physical memories, and the raster limits as they are (R36, R44, R65). -/
def Obligations.StepKeepsMemoryInRam : Prop :=
  ∀ s t : State, CfgValid s → MemInRam s → step s = .next t → MemInRam t ∧ t.cfg0 = s.cfg0

/-- Every step keeps the draws fresh: no memory's unwritten bytes come from a draw not yet made, and draws only go up
(R85, R255; the model's own counters, log 1). -/
def Obligations.StepKeepsDrawsFresh : Prop :=
  ∀ s t : State, DrawsFresh s → step s = .next t → DrawsFresh t ∧ s.draws ≤ t.draws

/-! ## The host's reads of the registers -/

/-- What a 32-bit read gives in each of the 23 registers, bit by bit, the undefined bits 0 (R22-R36); the seven that R77
names also while BUSY = 1. A read changes nothing but the port's answer. -/
def Obligations.RegisterReads : Prop :=
  ∀ s : State,
    let flag := fun (b : Bool) (i : Nat) => if b then 2 ^ i else 0
    let words : List (Offset × Word) :=
      [ (0x000, 0x52430007)
      , (0x004, BitVec.ofNat 32 (flag s.ctrl.ieDone 0 + flag s.ctrl.ieErr 1 + flag s.ctrl.strictSize 2))
      , (0x008, BitVec.ofNat 32 (flag s.status.busy 0 + flag s.status.done 1 + flag s.status.error 2 +
          flag s.status.cmdrej 3 + flag s.status.buserr 4))
      , (0x00C, s.cmd), (0x010, s.errCode.setWidth 32), (0x014, s.errArg0), (0x018, s.errArg1), (0x01C, s.errArg2)
      , (0x020, s.imgW.setWidth 32), (0x024, s.imgH.setWidth 32), (0x028, s.mapW.setWidth 32)
      , (0x02C, s.mapH.setWidth 32), (0x030, s.regionCount.setWidth 32)
      , (0x034, BitVec.ofNat 32 (s.arg0.r.toNat + 256 * s.arg0.g.toNat + 65536 * s.arg0.b.toNat))
      , (0x038, s.result), (0x03C, s.palCount.setWidth 32), (0x040, s.tileCount.setWidth 32)
      , (0x044, s.wordCount.setWidth 32), (0x048, s.mapCount.setWidth 32), (0x04C, s.nameCount.setWidth 32)
      , (0x050, BitVec.ofNat 32 (s.rasterMaxW + 65536 * s.rasterMaxH)), (0x054, 0x00800400), (0x058, 0x14201020) ]
    ∀ p ∈ words,
      s.status.busy = false ∨ p.1 ∈ ([0x000, 0x004, 0x008, 0x00C, 0x050, 0x054, 0x058] : List Offset) →
      hostRead .w32 p.1 s = { s with response := some ⟨p.2, false⟩ }
end

