-- ==== Sys2Proof/Laws/State.lean ====
section
/-! SUPPORT. What each named update leaves in each field of the state, so that no proof unfolds a record update. -/

namespace Sys2Proof.Machine

section
variable (s : State) (base : Nat) (bs : List Byte)

@[simp] theorem storeBytes_ctrl : (storeBytes s base bs).ctrl = s.ctrl := rfl
@[simp] theorem storeBytes_status : (storeBytes s base bs).status = s.status := rfl
@[simp] theorem storeBytes_cmd : (storeBytes s base bs).cmd = s.cmd := rfl
@[simp] theorem storeBytes_errCode : (storeBytes s base bs).errCode = s.errCode := rfl
@[simp] theorem storeBytes_errArg0 : (storeBytes s base bs).errArg0 = s.errArg0 := rfl
@[simp] theorem storeBytes_errArg1 : (storeBytes s base bs).errArg1 = s.errArg1 := rfl
@[simp] theorem storeBytes_errArg2 : (storeBytes s base bs).errArg2 = s.errArg2 := rfl
@[simp] theorem storeBytes_imgW : (storeBytes s base bs).imgW = s.imgW := rfl
@[simp] theorem storeBytes_imgH : (storeBytes s base bs).imgH = s.imgH := rfl
@[simp] theorem storeBytes_mapW : (storeBytes s base bs).mapW = s.mapW := rfl
@[simp] theorem storeBytes_mapH : (storeBytes s base bs).mapH = s.mapH := rfl
@[simp] theorem storeBytes_regionCount : (storeBytes s base bs).regionCount = s.regionCount := rfl
@[simp] theorem storeBytes_arg0 : (storeBytes s base bs).arg0 = s.arg0 := rfl
@[simp] theorem storeBytes_result : (storeBytes s base bs).result = s.result := rfl
@[simp] theorem storeBytes_palCount : (storeBytes s base bs).palCount = s.palCount := rfl
@[simp] theorem storeBytes_tileCount : (storeBytes s base bs).tileCount = s.tileCount := rfl
@[simp] theorem storeBytes_wordCount : (storeBytes s base bs).wordCount = s.wordCount := rfl
@[simp] theorem storeBytes_mapCount : (storeBytes s base bs).mapCount = s.mapCount := rfl
@[simp] theorem storeBytes_nameCount : (storeBytes s base bs).nameCount = s.nameCount := rfl
@[simp] theorem storeBytes_cfg0 : (storeBytes s base bs).cfg0 = s.cfg0 := rfl
@[simp] theorem storeBytes_cam : (storeBytes s base bs).cam = s.cam := rfl
@[simp] theorem storeBytes_tidx : (storeBytes s base bs).tidx = s.tidx := rfl
@[simp] theorem storeBytes_tword : (storeBytes s base bs).tword = s.tword := rfl
@[simp] theorem storeBytes_key : (storeBytes s base bs).key = s.key := rfl
@[simp] theorem storeBytes_pal : (storeBytes s base bs).pal = s.pal := rfl
@[simp] theorem storeBytes_palw : (storeBytes s base bs).palw = s.palw := rfl
@[simp] theorem storeBytes_mem : (storeBytes s base bs).mem = memWrite s.mem base bs := rfl
@[simp] theorem storeBytes_epochs : (storeBytes s base bs).epochs = s.epochs := rfl
@[simp] theorem storeBytes_draws : (storeBytes s base bs).draws = s.draws := rfl
@[simp] theorem storeBytes_events : (storeBytes s base bs).events = s.events := rfl
@[simp] theorem storeBytes_response : (storeBytes s base bs).response = s.response := rfl

end

section
variable (s : State) (f : Nat → Nib) (n : Nat)

@[simp] theorem setNibs_ctrl : (setNibs s f n).ctrl = s.ctrl := rfl
@[simp] theorem setNibs_status : (setNibs s f n).status = s.status := rfl
@[simp] theorem setNibs_cmd : (setNibs s f n).cmd = s.cmd := rfl
@[simp] theorem setNibs_errCode : (setNibs s f n).errCode = s.errCode := rfl
@[simp] theorem setNibs_errArg0 : (setNibs s f n).errArg0 = s.errArg0 := rfl
@[simp] theorem setNibs_errArg1 : (setNibs s f n).errArg1 = s.errArg1 := rfl
@[simp] theorem setNibs_errArg2 : (setNibs s f n).errArg2 = s.errArg2 := rfl
@[simp] theorem setNibs_imgW : (setNibs s f n).imgW = s.imgW := rfl
@[simp] theorem setNibs_imgH : (setNibs s f n).imgH = s.imgH := rfl
@[simp] theorem setNibs_mapW : (setNibs s f n).mapW = s.mapW := rfl
@[simp] theorem setNibs_mapH : (setNibs s f n).mapH = s.mapH := rfl
@[simp] theorem setNibs_regionCount : (setNibs s f n).regionCount = s.regionCount := rfl
@[simp] theorem setNibs_arg0 : (setNibs s f n).arg0 = s.arg0 := rfl
@[simp] theorem setNibs_result : (setNibs s f n).result = s.result := rfl
@[simp] theorem setNibs_palCount : (setNibs s f n).palCount = s.palCount := rfl
@[simp] theorem setNibs_tileCount : (setNibs s f n).tileCount = s.tileCount := rfl
@[simp] theorem setNibs_wordCount : (setNibs s f n).wordCount = s.wordCount := rfl
@[simp] theorem setNibs_mapCount : (setNibs s f n).mapCount = s.mapCount := rfl
@[simp] theorem setNibs_nameCount : (setNibs s f n).nameCount = s.nameCount := rfl
@[simp] theorem setNibs_cfg0 : (setNibs s f n).cfg0 = s.cfg0 := rfl
@[simp] theorem setNibs_cam : (setNibs s f n).cam = s.cam := rfl
@[simp] theorem setNibs_tidx : (setNibs s f n).tidx = s.tidx := rfl
@[simp] theorem setNibs_tword : (setNibs s f n).tword = s.tword := rfl
@[simp] theorem setNibs_key : (setNibs s f n).key = s.key := rfl
@[simp] theorem setNibs_pal : (setNibs s f n).pal = s.pal := rfl
@[simp] theorem setNibs_palw : (setNibs s f n).palw = s.palw := rfl
@[simp] theorem setNibs_mem : (setNibs s f n).mem = memWrite s.mem Config.idxBase (nibBytes (nib s) f n) := rfl
@[simp] theorem setNibs_epochs : (setNibs s f n).epochs = s.epochs := rfl
@[simp] theorem setNibs_draws : (setNibs s f n).draws = s.draws := rfl
@[simp] theorem setNibs_events : (setNibs s f n).events = s.events := rfl
@[simp] theorem setNibs_response : (setNibs s f n).response = s.response := rfl

end

section
variable (s : State)

@[simp] theorem completeOk_ctrl : (completeOk s).ctrl = s.ctrl := rfl
@[simp] theorem completeOk_status : (completeOk s).status = { s.status with busy := false, done := true } := rfl
@[simp] theorem completeOk_cmd : (completeOk s).cmd = s.cmd := rfl
@[simp] theorem completeOk_errCode : (completeOk s).errCode = s.errCode := rfl
@[simp] theorem completeOk_errArg0 : (completeOk s).errArg0 = s.errArg0 := rfl
@[simp] theorem completeOk_errArg1 : (completeOk s).errArg1 = s.errArg1 := rfl
@[simp] theorem completeOk_errArg2 : (completeOk s).errArg2 = s.errArg2 := rfl
@[simp] theorem completeOk_imgW : (completeOk s).imgW = s.imgW := rfl
@[simp] theorem completeOk_imgH : (completeOk s).imgH = s.imgH := rfl
@[simp] theorem completeOk_mapW : (completeOk s).mapW = s.mapW := rfl
@[simp] theorem completeOk_mapH : (completeOk s).mapH = s.mapH := rfl
@[simp] theorem completeOk_regionCount : (completeOk s).regionCount = s.regionCount := rfl
@[simp] theorem completeOk_arg0 : (completeOk s).arg0 = s.arg0 := rfl
@[simp] theorem completeOk_result : (completeOk s).result = s.result := rfl
@[simp] theorem completeOk_palCount : (completeOk s).palCount = s.palCount := rfl
@[simp] theorem completeOk_tileCount : (completeOk s).tileCount = s.tileCount := rfl
@[simp] theorem completeOk_wordCount : (completeOk s).wordCount = s.wordCount := rfl
@[simp] theorem completeOk_mapCount : (completeOk s).mapCount = s.mapCount := rfl
@[simp] theorem completeOk_nameCount : (completeOk s).nameCount = s.nameCount := rfl
@[simp] theorem completeOk_cfg0 : (completeOk s).cfg0 = s.cfg0 := rfl
@[simp] theorem completeOk_cam : (completeOk s).cam = s.cam := rfl
@[simp] theorem completeOk_tidx : (completeOk s).tidx = s.tidx := rfl
@[simp] theorem completeOk_tword : (completeOk s).tword = s.tword := rfl
@[simp] theorem completeOk_key : (completeOk s).key = s.key := rfl
@[simp] theorem completeOk_pal : (completeOk s).pal = s.pal := rfl
@[simp] theorem completeOk_palw : (completeOk s).palw = s.palw := rfl
@[simp] theorem completeOk_mem : (completeOk s).mem = s.mem := rfl
@[simp] theorem completeOk_epochs : (completeOk s).epochs = s.epochs := rfl
@[simp] theorem completeOk_draws : (completeOk s).draws = s.draws := rfl
@[simp] theorem completeOk_events : (completeOk s).events = s.events := rfl
@[simp] theorem completeOk_response : (completeOk s).response = s.response := rfl

end

section
variable (e : CmdError) (s : State)

@[simp] theorem raiseError_ctrl : (raiseError e s).ctrl = s.ctrl := rfl
@[simp] theorem raiseError_status : (raiseError e s).status = { s.status with busy := false, error := true } := rfl
@[simp] theorem raiseError_cmd : (raiseError e s).cmd = s.cmd := rfl
@[simp] theorem raiseError_errCode : (raiseError e s).errCode = errCodeOf e.kind := rfl
@[simp] theorem raiseError_errArg0 : (raiseError e s).errArg0 = e.arg0 := rfl
@[simp] theorem raiseError_errArg1 : (raiseError e s).errArg1 = e.arg1 := rfl
@[simp] theorem raiseError_errArg2 : (raiseError e s).errArg2 = e.arg2 := rfl
@[simp] theorem raiseError_imgW : (raiseError e s).imgW = s.imgW := rfl
@[simp] theorem raiseError_imgH : (raiseError e s).imgH = s.imgH := rfl
@[simp] theorem raiseError_mapW : (raiseError e s).mapW = s.mapW := rfl
@[simp] theorem raiseError_mapH : (raiseError e s).mapH = s.mapH := rfl
@[simp] theorem raiseError_regionCount : (raiseError e s).regionCount = s.regionCount := rfl
@[simp] theorem raiseError_arg0 : (raiseError e s).arg0 = s.arg0 := rfl
@[simp] theorem raiseError_result : (raiseError e s).result = s.result := rfl
@[simp] theorem raiseError_palCount : (raiseError e s).palCount = s.palCount := rfl
@[simp] theorem raiseError_tileCount : (raiseError e s).tileCount = s.tileCount := rfl
@[simp] theorem raiseError_wordCount : (raiseError e s).wordCount = s.wordCount := rfl
@[simp] theorem raiseError_mapCount : (raiseError e s).mapCount = s.mapCount := rfl
@[simp] theorem raiseError_nameCount : (raiseError e s).nameCount = s.nameCount := rfl
@[simp] theorem raiseError_cfg0 : (raiseError e s).cfg0 = s.cfg0 := rfl
@[simp] theorem raiseError_cam : (raiseError e s).cam = s.cam := rfl
@[simp] theorem raiseError_tidx : (raiseError e s).tidx = s.tidx := rfl
@[simp] theorem raiseError_tword : (raiseError e s).tword = s.tword := rfl
@[simp] theorem raiseError_key : (raiseError e s).key = s.key := rfl
@[simp] theorem raiseError_pal : (raiseError e s).pal = s.pal := rfl
@[simp] theorem raiseError_palw : (raiseError e s).palw = s.palw := rfl
@[simp] theorem raiseError_mem : (raiseError e s).mem = s.mem := rfl
@[simp] theorem raiseError_epochs : (raiseError e s).epochs = s.epochs := rfl
@[simp] theorem raiseError_draws : (raiseError e s).draws = s.draws := rfl
@[simp] theorem raiseError_events : (raiseError e s).events = s.events := rfl
@[simp] theorem raiseError_response : (raiseError e s).response = s.response := rfl

end

section
variable (s : State)

@[simp] theorem ackError_ctrl : (ackError s).ctrl = s.ctrl := rfl
@[simp] theorem ackError_status : (ackError s).status = { s.status with error := false } := rfl
@[simp] theorem ackError_cmd : (ackError s).cmd = s.cmd := rfl
@[simp] theorem ackError_errCode : (ackError s).errCode = 0 := rfl
@[simp] theorem ackError_errArg0 : (ackError s).errArg0 = 0 := rfl
@[simp] theorem ackError_errArg1 : (ackError s).errArg1 = 0 := rfl
@[simp] theorem ackError_errArg2 : (ackError s).errArg2 = 0 := rfl
@[simp] theorem ackError_imgW : (ackError s).imgW = s.imgW := rfl
@[simp] theorem ackError_imgH : (ackError s).imgH = s.imgH := rfl
@[simp] theorem ackError_mapW : (ackError s).mapW = s.mapW := rfl
@[simp] theorem ackError_mapH : (ackError s).mapH = s.mapH := rfl
@[simp] theorem ackError_regionCount : (ackError s).regionCount = s.regionCount := rfl
@[simp] theorem ackError_arg0 : (ackError s).arg0 = s.arg0 := rfl
@[simp] theorem ackError_result : (ackError s).result = s.result := rfl
@[simp] theorem ackError_palCount : (ackError s).palCount = s.palCount := rfl
@[simp] theorem ackError_tileCount : (ackError s).tileCount = s.tileCount := rfl
@[simp] theorem ackError_wordCount : (ackError s).wordCount = s.wordCount := rfl
@[simp] theorem ackError_mapCount : (ackError s).mapCount = s.mapCount := rfl
@[simp] theorem ackError_nameCount : (ackError s).nameCount = s.nameCount := rfl
@[simp] theorem ackError_cfg0 : (ackError s).cfg0 = s.cfg0 := rfl
@[simp] theorem ackError_cam : (ackError s).cam = s.cam := rfl
@[simp] theorem ackError_tidx : (ackError s).tidx = s.tidx := rfl
@[simp] theorem ackError_tword : (ackError s).tword = s.tword := rfl
@[simp] theorem ackError_key : (ackError s).key = s.key := rfl
@[simp] theorem ackError_pal : (ackError s).pal = s.pal := rfl
@[simp] theorem ackError_palw : (ackError s).palw = s.palw := rfl
@[simp] theorem ackError_mem : (ackError s).mem = s.mem := rfl
@[simp] theorem ackError_epochs : (ackError s).epochs = s.epochs := rfl
@[simp] theorem ackError_draws : (ackError s).draws = s.draws := rfl
@[simp] theorem ackError_events : (ackError s).events = s.events := rfl
@[simp] theorem ackError_response : (ackError s).response = s.response := rfl

end

section
variable (s : State)

@[simp] theorem setBusErr_ctrl : (setBusErr s).ctrl = s.ctrl := rfl
@[simp] theorem setBusErr_status : (setBusErr s).status = { s.status with buserr := true } := rfl
@[simp] theorem setBusErr_cmd : (setBusErr s).cmd = s.cmd := rfl
@[simp] theorem setBusErr_errCode : (setBusErr s).errCode = s.errCode := rfl
@[simp] theorem setBusErr_errArg0 : (setBusErr s).errArg0 = s.errArg0 := rfl
@[simp] theorem setBusErr_errArg1 : (setBusErr s).errArg1 = s.errArg1 := rfl
@[simp] theorem setBusErr_errArg2 : (setBusErr s).errArg2 = s.errArg2 := rfl
@[simp] theorem setBusErr_imgW : (setBusErr s).imgW = s.imgW := rfl
@[simp] theorem setBusErr_imgH : (setBusErr s).imgH = s.imgH := rfl
@[simp] theorem setBusErr_mapW : (setBusErr s).mapW = s.mapW := rfl
@[simp] theorem setBusErr_mapH : (setBusErr s).mapH = s.mapH := rfl
@[simp] theorem setBusErr_regionCount : (setBusErr s).regionCount = s.regionCount := rfl
@[simp] theorem setBusErr_arg0 : (setBusErr s).arg0 = s.arg0 := rfl
@[simp] theorem setBusErr_result : (setBusErr s).result = s.result := rfl
@[simp] theorem setBusErr_palCount : (setBusErr s).palCount = s.palCount := rfl
@[simp] theorem setBusErr_tileCount : (setBusErr s).tileCount = s.tileCount := rfl
@[simp] theorem setBusErr_wordCount : (setBusErr s).wordCount = s.wordCount := rfl
@[simp] theorem setBusErr_mapCount : (setBusErr s).mapCount = s.mapCount := rfl
@[simp] theorem setBusErr_nameCount : (setBusErr s).nameCount = s.nameCount := rfl
@[simp] theorem setBusErr_cfg0 : (setBusErr s).cfg0 = s.cfg0 := rfl
@[simp] theorem setBusErr_cam : (setBusErr s).cam = s.cam := rfl
@[simp] theorem setBusErr_tidx : (setBusErr s).tidx = s.tidx := rfl
@[simp] theorem setBusErr_tword : (setBusErr s).tword = s.tword := rfl
@[simp] theorem setBusErr_key : (setBusErr s).key = s.key := rfl
@[simp] theorem setBusErr_pal : (setBusErr s).pal = s.pal := rfl
@[simp] theorem setBusErr_palw : (setBusErr s).palw = s.palw := rfl
@[simp] theorem setBusErr_mem : (setBusErr s).mem = s.mem := rfl
@[simp] theorem setBusErr_epochs : (setBusErr s).epochs = s.epochs := rfl
@[simp] theorem setBusErr_draws : (setBusErr s).draws = s.draws := rfl
@[simp] theorem setBusErr_events : (setBusErr s).events = s.events := rfl
@[simp] theorem setBusErr_response : (setBusErr s).response = s.response := rfl

end

section
variable (d : Word) (s : State)

@[simp] theorem answer_ctrl : (answer d s).ctrl = s.ctrl := rfl
@[simp] theorem answer_status : (answer d s).status = s.status := rfl
@[simp] theorem answer_cmd : (answer d s).cmd = s.cmd := rfl
@[simp] theorem answer_errCode : (answer d s).errCode = s.errCode := rfl
@[simp] theorem answer_errArg0 : (answer d s).errArg0 = s.errArg0 := rfl
@[simp] theorem answer_errArg1 : (answer d s).errArg1 = s.errArg1 := rfl
@[simp] theorem answer_errArg2 : (answer d s).errArg2 = s.errArg2 := rfl
@[simp] theorem answer_imgW : (answer d s).imgW = s.imgW := rfl
@[simp] theorem answer_imgH : (answer d s).imgH = s.imgH := rfl
@[simp] theorem answer_mapW : (answer d s).mapW = s.mapW := rfl
@[simp] theorem answer_mapH : (answer d s).mapH = s.mapH := rfl
@[simp] theorem answer_regionCount : (answer d s).regionCount = s.regionCount := rfl
@[simp] theorem answer_arg0 : (answer d s).arg0 = s.arg0 := rfl
@[simp] theorem answer_result : (answer d s).result = s.result := rfl
@[simp] theorem answer_palCount : (answer d s).palCount = s.palCount := rfl
@[simp] theorem answer_tileCount : (answer d s).tileCount = s.tileCount := rfl
@[simp] theorem answer_wordCount : (answer d s).wordCount = s.wordCount := rfl
@[simp] theorem answer_mapCount : (answer d s).mapCount = s.mapCount := rfl
@[simp] theorem answer_nameCount : (answer d s).nameCount = s.nameCount := rfl
@[simp] theorem answer_cfg0 : (answer d s).cfg0 = s.cfg0 := rfl
@[simp] theorem answer_cam : (answer d s).cam = s.cam := rfl
@[simp] theorem answer_tidx : (answer d s).tidx = s.tidx := rfl
@[simp] theorem answer_tword : (answer d s).tword = s.tword := rfl
@[simp] theorem answer_key : (answer d s).key = s.key := rfl
@[simp] theorem answer_pal : (answer d s).pal = s.pal := rfl
@[simp] theorem answer_palw : (answer d s).palw = s.palw := rfl
@[simp] theorem answer_mem : (answer d s).mem = s.mem := rfl
@[simp] theorem answer_epochs : (answer d s).epochs = s.epochs := rfl
@[simp] theorem answer_draws : (answer d s).draws = s.draws := rfl
@[simp] theorem answer_events : (answer d s).events = s.events := rfl
@[simp] theorem answer_response : (answer d s).response = some ⟨d, false⟩ := rfl

end

section
variable (s : State)

@[simp] theorem refuseAccess_ctrl : (refuseAccess s).ctrl = s.ctrl := rfl
@[simp] theorem refuseAccess_status : (refuseAccess s).status = { s.status with buserr := true } := rfl
@[simp] theorem refuseAccess_cmd : (refuseAccess s).cmd = s.cmd := rfl
@[simp] theorem refuseAccess_errCode : (refuseAccess s).errCode = s.errCode := rfl
@[simp] theorem refuseAccess_errArg0 : (refuseAccess s).errArg0 = s.errArg0 := rfl
@[simp] theorem refuseAccess_errArg1 : (refuseAccess s).errArg1 = s.errArg1 := rfl
@[simp] theorem refuseAccess_errArg2 : (refuseAccess s).errArg2 = s.errArg2 := rfl
@[simp] theorem refuseAccess_imgW : (refuseAccess s).imgW = s.imgW := rfl
@[simp] theorem refuseAccess_imgH : (refuseAccess s).imgH = s.imgH := rfl
@[simp] theorem refuseAccess_mapW : (refuseAccess s).mapW = s.mapW := rfl
@[simp] theorem refuseAccess_mapH : (refuseAccess s).mapH = s.mapH := rfl
@[simp] theorem refuseAccess_regionCount : (refuseAccess s).regionCount = s.regionCount := rfl
@[simp] theorem refuseAccess_arg0 : (refuseAccess s).arg0 = s.arg0 := rfl
@[simp] theorem refuseAccess_result : (refuseAccess s).result = s.result := rfl
@[simp] theorem refuseAccess_palCount : (refuseAccess s).palCount = s.palCount := rfl
@[simp] theorem refuseAccess_tileCount : (refuseAccess s).tileCount = s.tileCount := rfl
@[simp] theorem refuseAccess_wordCount : (refuseAccess s).wordCount = s.wordCount := rfl
@[simp] theorem refuseAccess_mapCount : (refuseAccess s).mapCount = s.mapCount := rfl
@[simp] theorem refuseAccess_nameCount : (refuseAccess s).nameCount = s.nameCount := rfl
@[simp] theorem refuseAccess_cfg0 : (refuseAccess s).cfg0 = s.cfg0 := rfl
@[simp] theorem refuseAccess_cam : (refuseAccess s).cam = s.cam := rfl
@[simp] theorem refuseAccess_tidx : (refuseAccess s).tidx = s.tidx := rfl
@[simp] theorem refuseAccess_tword : (refuseAccess s).tword = s.tword := rfl
@[simp] theorem refuseAccess_key : (refuseAccess s).key = s.key := rfl
@[simp] theorem refuseAccess_pal : (refuseAccess s).pal = s.pal := rfl
@[simp] theorem refuseAccess_palw : (refuseAccess s).palw = s.palw := rfl
@[simp] theorem refuseAccess_mem : (refuseAccess s).mem = s.mem := rfl
@[simp] theorem refuseAccess_epochs : (refuseAccess s).epochs = s.epochs := rfl
@[simp] theorem refuseAccess_draws : (refuseAccess s).draws = s.draws := rfl
@[simp] theorem refuseAccess_events : (refuseAccess s).events = s.events := rfl
@[simp] theorem refuseAccess_response : (refuseAccess s).response = some ⟨0, Config.refusalIsBusError⟩ := rfl

end

section
variable (w : Word) (s : State)

@[simp] theorem placeCommand_ctrl : (placeCommand w s).ctrl = s.ctrl := rfl
@[simp] theorem placeCommand_status : (placeCommand w s).status = { s.status with done := false, busy := true } := rfl
@[simp] theorem placeCommand_cmd : (placeCommand w s).cmd = w := rfl
@[simp] theorem placeCommand_errCode : (placeCommand w s).errCode = s.errCode := rfl
@[simp] theorem placeCommand_errArg0 : (placeCommand w s).errArg0 = s.errArg0 := rfl
@[simp] theorem placeCommand_errArg1 : (placeCommand w s).errArg1 = s.errArg1 := rfl
@[simp] theorem placeCommand_errArg2 : (placeCommand w s).errArg2 = s.errArg2 := rfl
@[simp] theorem placeCommand_imgW : (placeCommand w s).imgW = s.imgW := rfl
@[simp] theorem placeCommand_imgH : (placeCommand w s).imgH = s.imgH := rfl
@[simp] theorem placeCommand_mapW : (placeCommand w s).mapW = s.mapW := rfl
@[simp] theorem placeCommand_mapH : (placeCommand w s).mapH = s.mapH := rfl
@[simp] theorem placeCommand_regionCount : (placeCommand w s).regionCount = s.regionCount := rfl
@[simp] theorem placeCommand_arg0 : (placeCommand w s).arg0 = s.arg0 := rfl
@[simp] theorem placeCommand_result : (placeCommand w s).result = s.result := rfl
@[simp] theorem placeCommand_palCount : (placeCommand w s).palCount = s.palCount := rfl
@[simp] theorem placeCommand_tileCount : (placeCommand w s).tileCount = s.tileCount := rfl
@[simp] theorem placeCommand_wordCount : (placeCommand w s).wordCount = s.wordCount := rfl
@[simp] theorem placeCommand_mapCount : (placeCommand w s).mapCount = s.mapCount := rfl
@[simp] theorem placeCommand_nameCount : (placeCommand w s).nameCount = s.nameCount := rfl
@[simp] theorem placeCommand_cfg0 : (placeCommand w s).cfg0 = s.cfg0 := rfl
@[simp] theorem placeCommand_cam : (placeCommand w s).cam = s.cam := rfl
@[simp] theorem placeCommand_tidx : (placeCommand w s).tidx = s.tidx := rfl
@[simp] theorem placeCommand_tword : (placeCommand w s).tword = s.tword := rfl
@[simp] theorem placeCommand_key : (placeCommand w s).key = s.key := rfl
@[simp] theorem placeCommand_pal : (placeCommand w s).pal = s.pal := rfl
@[simp] theorem placeCommand_palw : (placeCommand w s).palw = s.palw := rfl
@[simp] theorem placeCommand_mem : (placeCommand w s).mem = s.mem := rfl
@[simp] theorem placeCommand_epochs : (placeCommand w s).epochs = s.epochs := rfl
@[simp] theorem placeCommand_draws : (placeCommand w s).draws = s.draws := rfl
@[simp] theorem placeCommand_events : (placeCommand w s).events = .engine :: s.events := rfl
@[simp] theorem placeCommand_response : (placeCommand w s).response = s.response := rfl

end

section
variable (s : State) (l : List (BitVec 10))

@[simp] theorem buildMap_ctrl : (buildMap s l).ctrl = s.ctrl := rfl
@[simp] theorem buildMap_status : (buildMap s l).status = s.status := rfl
@[simp] theorem buildMap_cmd : (buildMap s l).cmd = s.cmd := rfl
@[simp] theorem buildMap_errCode : (buildMap s l).errCode = s.errCode := rfl
@[simp] theorem buildMap_errArg0 : (buildMap s l).errArg0 = s.errArg0 := rfl
@[simp] theorem buildMap_errArg1 : (buildMap s l).errArg1 = s.errArg1 := rfl
@[simp] theorem buildMap_errArg2 : (buildMap s l).errArg2 = s.errArg2 := rfl
@[simp] theorem buildMap_imgW : (buildMap s l).imgW = s.imgW := rfl
@[simp] theorem buildMap_imgH : (buildMap s l).imgH = s.imgH := rfl
@[simp] theorem buildMap_mapW : (buildMap s l).mapW = s.mapW := rfl
@[simp] theorem buildMap_mapH : (buildMap s l).mapH = s.mapH := rfl
@[simp] theorem buildMap_regionCount : (buildMap s l).regionCount = s.regionCount := rfl
@[simp] theorem buildMap_arg0 : (buildMap s l).arg0 = s.arg0 := rfl
@[simp] theorem buildMap_result : (buildMap s l).result = s.result := rfl
@[simp] theorem buildMap_palCount : (buildMap s l).palCount = s.palCount := rfl
@[simp] theorem buildMap_tileCount : (buildMap s l).tileCount = s.tileCount := rfl
@[simp] theorem buildMap_wordCount : (buildMap s l).wordCount = s.wordCount := rfl
@[simp] theorem buildMap_mapCount : (buildMap s l).mapCount = s.mapCount := rfl
@[simp] theorem buildMap_nameCount : (buildMap s l).nameCount = s.nameCount := rfl
@[simp] theorem buildMap_cfg0 : (buildMap s l).cfg0 = s.cfg0 := rfl
@[simp] theorem buildMap_cam : (buildMap s l).cam = s.cam := rfl
@[simp] theorem buildMap_tidx : (buildMap s l).tidx = s.tidx := rfl
@[simp] theorem buildMap_tword : (buildMap s l).tword = s.tword := rfl
@[simp] theorem buildMap_key : (buildMap s l).key = s.key := rfl
@[simp] theorem buildMap_pal : (buildMap s l).pal = s.pal := rfl
@[simp] theorem buildMap_palw : (buildMap s l).palw = s.palw := rfl
@[simp] theorem buildMap_mem : (buildMap s l).mem = memWrite s.mem Config.mapBase ((mapEntries s l).flatMap bytesOfHalf) := rfl
@[simp] theorem buildMap_epochs : (buildMap s l).epochs = s.epochs := rfl
@[simp] theorem buildMap_draws : (buildMap s l).draws = s.draws := rfl
@[simp] theorem buildMap_events : (buildMap s l).events = s.events := rfl
@[simp] theorem buildMap_response : (buildMap s l).response = s.response := rfl

end

section
variable (s : State) (l : List Tile)

@[simp] theorem writeTileSet_ctrl : (writeTileSet s l).ctrl = s.ctrl := rfl
@[simp] theorem writeTileSet_status : (writeTileSet s l).status = s.status := rfl
@[simp] theorem writeTileSet_cmd : (writeTileSet s l).cmd = s.cmd := rfl
@[simp] theorem writeTileSet_errCode : (writeTileSet s l).errCode = s.errCode := rfl
@[simp] theorem writeTileSet_errArg0 : (writeTileSet s l).errArg0 = s.errArg0 := rfl
@[simp] theorem writeTileSet_errArg1 : (writeTileSet s l).errArg1 = s.errArg1 := rfl
@[simp] theorem writeTileSet_errArg2 : (writeTileSet s l).errArg2 = s.errArg2 := rfl
@[simp] theorem writeTileSet_imgW : (writeTileSet s l).imgW = s.imgW := rfl
@[simp] theorem writeTileSet_imgH : (writeTileSet s l).imgH = s.imgH := rfl
@[simp] theorem writeTileSet_mapW : (writeTileSet s l).mapW = s.mapW := rfl
@[simp] theorem writeTileSet_mapH : (writeTileSet s l).mapH = s.mapH := rfl
@[simp] theorem writeTileSet_regionCount : (writeTileSet s l).regionCount = s.regionCount := rfl
@[simp] theorem writeTileSet_arg0 : (writeTileSet s l).arg0 = s.arg0 := rfl
@[simp] theorem writeTileSet_result : (writeTileSet s l).result = s.result := rfl
@[simp] theorem writeTileSet_palCount : (writeTileSet s l).palCount = s.palCount := rfl
@[simp] theorem writeTileSet_tileCount : (writeTileSet s l).tileCount = BitVec.ofNat 16 l.length := rfl
@[simp] theorem writeTileSet_wordCount : (writeTileSet s l).wordCount = BitVec.ofNat 16 (8 * l.length) := rfl
@[simp] theorem writeTileSet_mapCount : (writeTileSet s l).mapCount = s.mapCount := rfl
@[simp] theorem writeTileSet_nameCount : (writeTileSet s l).nameCount = s.nameCount := rfl
@[simp] theorem writeTileSet_cfg0 : (writeTileSet s l).cfg0 = s.cfg0 := rfl
@[simp] theorem writeTileSet_cam : (writeTileSet s l).cam = s.cam := rfl
@[simp] theorem writeTileSet_tidx : (writeTileSet s l).tidx = s.tidx := rfl
@[simp] theorem writeTileSet_tword : (writeTileSet s l).tword = s.tword := rfl
@[simp] theorem writeTileSet_key : (writeTileSet s l).key = s.key := rfl
@[simp] theorem writeTileSet_pal : (writeTileSet s l).pal = s.pal := rfl
@[simp] theorem writeTileSet_palw : (writeTileSet s l).palw = s.palw := rfl
@[simp] theorem writeTileSet_mem : (writeTileSet s l).mem = memWrite s.mem Config.tileBufBase (l.flatMap packedBytes) := rfl
@[simp] theorem writeTileSet_epochs : (writeTileSet s l).epochs = s.epochs := rfl
@[simp] theorem writeTileSet_draws : (writeTileSet s l).draws = s.draws := rfl
@[simp] theorem writeTileSet_events : (writeTileSet s l).events = s.events := rfl
@[simp] theorem writeTileSet_response : (writeTileSet s l).response = s.response := rfl

end

end Sys2Proof.Machine
end

