-- ==== Sys2Proof/Laws/Memory.lean ====
section
/-! SUPPORT. The memory: every operation keeps the canonical form, a read after a write gives the byte written, and a
write leaves every other offset alone. -/

namespace Sys2Proof.Machine

/-! ## Cells -/

theorem cellsOf_mem {base : Nat} {bs : List Byte} {c : Host.Cell} (h : c ∈ cellsOf base bs) :
    base ≤ c.1 ∧ c.1 < base + bs.length := by
  induction bs generalizing base with
  | nil => simp [cellsOf] at h
  | cons b bs ih =>
    rcases List.mem_cons.mp h with rfl | h
    · simp
    · have := ih h
      simp only [List.length_cons]
      omega

theorem cellsOf_sorted (base : Nat) (bs : List Byte) : (cellsOf base bs).Pairwise fun x y => x.1 < y.1 := by
  induction bs generalizing base with
  | nil => exact List.Pairwise.nil
  | cons b bs ih =>
    refine List.Pairwise.cons (fun c hc => ?_) (ih _)
    have := cellsOf_mem hc
    omega

/-! ## The canonical form -/

theorem memWrite_wf {m : Memory} (h : m.wf) (base : Nat) (bs : List Byte) : Memory.wf (memWrite m base bs) := by
  obtain ⟨hs, hz⟩ := h
  refine ⟨?_, ?_⟩
  · simp only [memWrite, List.pairwise_append, List.mem_append, List.mem_filter, decide_eq_true_eq]
    refine ⟨⟨hs.filter _, (cellsOf_sorted base bs).filter _, ?_⟩, hs.filter _, ?_⟩
    · rintro x ⟨_, hx⟩ y ⟨hy, _⟩
      have := cellsOf_mem hy
      omega
    · rintro x (⟨_, hx⟩ | ⟨hx, _⟩) y ⟨_, hy⟩
      · omega
      · have := cellsOf_mem hx
        omega
  · intro c hc
    simp only [memWrite, List.mem_append, List.mem_filter, Bool.not_eq_true'] at hc
    rcases hc with (⟨hc, _⟩ | ⟨_, hc⟩) | ⟨hc, _⟩
    · exact hz c hc
    · exact hc
    · exact hz c hc

theorem memForget_wf {m : Memory} (h : m.wf) (win : Window) : Memory.wf (memForget m win) :=
  ⟨h.1.filter _, fun c hc => h.2 c (List.mem_of_mem_filter hc)⟩

theorem nil_wf : Memory.wf [] := ⟨List.Pairwise.nil, fun _ h => nomatch h⟩

/-- Every cell of a written memory was there before, or is one of the bytes written. -/
theorem memWrite_mem {m : Memory} {base : Nat} {bs : List Byte} {c : Host.Cell} (h : c ∈ memWrite m base bs) :
    c ∈ m ∨ (base ≤ c.1 ∧ c.1 < base + bs.length) := by
  simp only [memWrite, List.mem_append, List.mem_filter] at h
  rcases h with (⟨h, _⟩ | ⟨h, _⟩) | ⟨h, _⟩
  · exact .inl h
  · exact .inr (cellsOf_mem h)
  · exact .inl h

theorem memForget_mem {m : Memory} {win : Window} {c : Host.Cell} (h : c ∈ memForget m win) : c ∈ m :=
  List.mem_of_mem_filter h

/-! ## Reading back -/

theorem memLookup_append (m1 m2 : Memory) (a : Nat) :
    memLookup (m1 ++ m2) a = (memLookup m1 a).or (memLookup m2 a) := by
  induction m1 with
  | nil => simp [memLookup]
  | cons c m1 ih =>
    obtain ⟨k, b⟩ := c
    simp only [List.cons_append, memLookup]
    split <;> simp_all

/-- Filtering on the offset keeps or drops each offset as a whole. -/
theorem memLookup_filter (p : Nat → Bool) (m : Memory) (a : Nat) :
    memLookup (m.filter fun c => p c.1) a = if p a then memLookup m a else none := by
  induction m with
  | nil => simp [memLookup]
  | cons c m ih =>
    obtain ⟨k, b⟩ := c
    rw [List.filter_cons]
    by_cases hk : p k = true
    · by_cases hka : k = a
      · subst hka; simp [memLookup, hk]
      · simp [memLookup, hk, hka, ih]
    · by_cases hka : k = a
      · subst hka; simp [hk, ih]
      · simp [memLookup, hk, hka, ih]

theorem memLookup_cellsOf (base : Nat) (bs : List Byte) (a : Nat) :
    memLookup (cellsOf base bs) a = if base ≤ a then bs[a - base]? else none := by
  induction bs generalizing base with
  | nil => simp [cellsOf, memLookup]
  | cons b bs ih =>
    simp only [cellsOf, memLookup, ih]
    by_cases hab : base = a
    · subst hab; simp
    · by_cases hle : base ≤ a
      · have h1 : base + 1 ≤ a := by omega
        have h2 : a - base = (a - (base + 1)) + 1 := by omega
        simp [hab, hle, h1, h2]
      · have h1 : ¬ base + 1 ≤ a := by omega
        simp [hab, hle, h1]

theorem memLookup_memWrite (m : Memory) (base : Nat) (bs : List Byte) (a : Nat) :
    memLookup (memWrite m base bs) a =
      if base ≤ a ∧ a < base + bs.length then (if hardZero a then none else bs[a - base]?) else memLookup m a := by
  rw [memWrite, memLookup_append, memLookup_append, memLookup_filter (fun k => decide (k < base)),
    memLookup_filter (fun k => !hardZero k), memLookup_filter (fun k => decide (base + bs.length ≤ k)),
    memLookup_cellsOf]
  by_cases h1 : base ≤ a <;> by_cases h2 : a < base + bs.length
  · have hn1 : ¬ a < base := by omega
    have hn2 : ¬ base + bs.length ≤ a := by omega
    by_cases hz : hardZero a = true <;> simp [h1, h2, hn1, hn2, hz]
  · have hn1 : ¬ a < base := by omega
    have hn2 : base + bs.length ≤ a := by omega
    have hn3 : bs[a - base]? = none := by
      rw [List.getElem?_eq_none_iff]; omega
    by_cases hz : hardZero a = true <;> simp [h1, h2, hn1, hn2, hn3, hz]
  · have hn1 : a < base := by omega
    have hn2 : ¬ base + bs.length ≤ a := by omega
    simp [h1, hn1, hn2]
  · omega

/-- A read after a write: a hard-wired byte reads 0, a byte in the range reads as written, every other as before. -/
theorem memByte_storeBytes (s : State) (base : Nat) (bs : List Byte) (a : Nat) :
    memByte (storeBytes s base bs) a =
      if hardZero a then 0
      else if h : base ≤ a ∧ a < base + bs.length then bs[a - base]'(by omega) else memByte s a := by
  by_cases hz : hardZero a = true
  · simp [memByte, hz]
  · by_cases h : base ≤ a ∧ a < base + bs.length
    · have hlt : a - base < bs.length := by omega
      simp [memByte, hz, memLookup_memWrite, h, hlt]
    · simp [memByte, hz, memLookup_memWrite, h]

theorem memByte_storeBytes_outside {s : State} {base : Nat} {bs : List Byte} {a : Nat}
    (h : ¬ (base ≤ a ∧ a < base + bs.length)) : memByte (storeBytes s base bs) a = memByte s a := by
  rw [memByte_storeBytes]
  by_cases hz : hardZero a = true
  · simp [hz, memByte]
  · simp [hz, h]

theorem memByte_storeBytes_inside {s : State} {base : Nat} {bs : List Byte} {a : Nat}
    (hz : hardZero a = false) (h1 : base ≤ a) (h2 : a < base + bs.length) :
    memByte (storeBytes s base bs) a = bs[a - base]'(by omega) := by
  rw [memByte_storeBytes]
  simp [hz, h1, h2]

/-- A byte depends on the memory and the draws alone. -/
theorem memByte_congr {s t : State} (hm : t.mem = s.mem) (he : t.epochs = s.epochs) (a : Nat) :
    memByte t a = memByte s a := by
  simp [memByte, hm, he]

theorem memByte_hardZero {s : State} {a : Nat} (h : hardZero a = true) : memByte s a = 0 := by
  simp [memByte, h]

/-- Forgetting a window leaves the bytes of every other window, whatever draw the forgotten one takes. -/
theorem memByte_forget_outside {s t : State} {win : Window} {a : Nat} (hm : t.mem = memForget s.mem win)
    (he : epochOf t.epochs a = epochOf s.epochs a) (hw : windowOf a ≠ win) : memByte t a = memByte s a := by
  simp only [memByte, hm, he, memForget]
  rw [memLookup_filter (fun k => windowOf k != win)]
  simp [hw]

/-- A forgotten window's bytes are the free values of its new draw. -/
theorem memByte_forget_inside {s t : State} {win : Window} {a : Nat} (hm : t.mem = memForget s.mem win)
    (hw : windowOf a = win) (hz : hardZero a = false) :
    memByte t a = (Config.freeValue (epochOf t.epochs a) a).setWidth 8 := by
  simp only [memByte, hm, memForget]
  rw [memLookup_filter (fun k => windowOf k != win)]
  simp [hw, hz]

end Sys2Proof.Machine
end

