-- ==== Sys2Proof/Laws/AddressMap.lean ====
section
/-! SUPPORT. The address map by ranges: which window an offset lies in, and which bytes are hard-wired. -/

namespace Sys2Proof.Machine

/-- The rows of the address map (R61): the range an offset lies in, and its window. -/
theorem windowOf_cases (a : Nat) :
    (0x000000 ≤ a ∧ a < 0x000100 ∧ windowOf a = .registers) ∨
    (0x000100 ≤ a ∧ a < 0x000140 ∧ windowOf a = .tidx) ∨
    (0x000140 ≤ a ∧ a < 0x000160 ∧ windowOf a = .tword) ∨
    (0x000160 ≤ a ∧ a < 0x000180 ∧ windowOf a = .key) ∨
    (0x000180 ≤ a ∧ a < 0x000200 ∧ windowOf a = .reserved) ∨
    (0x000200 ≤ a ∧ a < 0x000240 ∧ windowOf a = .pal) ∨
    (0x000240 ≤ a ∧ a < 0x000260 ∧ windowOf a = .palw) ∨
    (0x000260 ≤ a ∧ a < 0x000400 ∧ windowOf a = .reserved) ∨
    (0x000400 ≤ a ∧ a < 0x000900 ∧ windowOf a = .map) ∨
    (0x000900 ≤ a ∧ a < 0x002000 ∧ windowOf a = .reserved) ∨
    (0x002000 ≤ a ∧ a < 0x004000 ∧ windowOf a = .region) ∨
    (0x004000 ≤ a ∧ a < 0x005000 ∧ windowOf a = .desc) ∨
    (0x005000 ≤ a ∧ a < 0x006000 ∧ windowOf a = .name) ∨
    (0x006000 ≤ a ∧ a < 0x008000 ∧ windowOf a = .reserved) ∨
    (0x008000 ≤ a ∧ a < 0x010000 ∧ windowOf a = .tileBuf) ∨
    (0x010000 ≤ a ∧ a < 0x020000 ∧ windowOf a = .reserved) ∨
    (0x020000 ≤ a ∧ a < 0x040000 ∧ windowOf a = .idx) ∨
    (0x040000 ≤ a ∧ a < 0x100000 ∧ windowOf a = .reserved) ∨
    (0x100000 ≤ a ∧ a < 0x200000 ∧ windowOf a = .src) ∨
    (0x200000 ≤ a ∧ windowOf a = .reserved) := by
  generalize hw : windowOf a = w
  unfold windowOf at hw
  by_cases h0 : a < 0x000100
  · rw [if_pos h0] at hw
    exact .inl ⟨by omega, h0, hw.symm⟩
  rw [if_neg h0] at hw
  right
  by_cases h1 : a < 0x000140
  · rw [if_pos h1] at hw
    exact .inl ⟨by omega, h1, hw.symm⟩
  rw [if_neg h1] at hw
  right
  by_cases h2 : a < 0x000160
  · rw [if_pos h2] at hw
    exact .inl ⟨by omega, h2, hw.symm⟩
  rw [if_neg h2] at hw
  right
  by_cases h3 : a < 0x000180
  · rw [if_pos h3] at hw
    exact .inl ⟨by omega, h3, hw.symm⟩
  rw [if_neg h3] at hw
  right
  by_cases h4 : a < 0x000200
  · rw [if_pos h4] at hw
    exact .inl ⟨by omega, h4, hw.symm⟩
  rw [if_neg h4] at hw
  right
  by_cases h5 : a < 0x000240
  · rw [if_pos h5] at hw
    exact .inl ⟨by omega, h5, hw.symm⟩
  rw [if_neg h5] at hw
  right
  by_cases h6 : a < 0x000260
  · rw [if_pos h6] at hw
    exact .inl ⟨by omega, h6, hw.symm⟩
  rw [if_neg h6] at hw
  right
  by_cases h7 : a < 0x000400
  · rw [if_pos h7] at hw
    exact .inl ⟨by omega, h7, hw.symm⟩
  rw [if_neg h7] at hw
  right
  by_cases h8 : a < 0x000900
  · rw [if_pos h8] at hw
    exact .inl ⟨by omega, h8, hw.symm⟩
  rw [if_neg h8] at hw
  right
  by_cases h9 : a < 0x002000
  · rw [if_pos h9] at hw
    exact .inl ⟨by omega, h9, hw.symm⟩
  rw [if_neg h9] at hw
  right
  by_cases h10 : a < 0x004000
  · rw [if_pos h10] at hw
    exact .inl ⟨by omega, h10, hw.symm⟩
  rw [if_neg h10] at hw
  right
  by_cases h11 : a < 0x005000
  · rw [if_pos h11] at hw
    exact .inl ⟨by omega, h11, hw.symm⟩
  rw [if_neg h11] at hw
  right
  by_cases h12 : a < 0x006000
  · rw [if_pos h12] at hw
    exact .inl ⟨by omega, h12, hw.symm⟩
  rw [if_neg h12] at hw
  right
  by_cases h13 : a < 0x008000
  · rw [if_pos h13] at hw
    exact .inl ⟨by omega, h13, hw.symm⟩
  rw [if_neg h13] at hw
  right
  by_cases h14 : a < 0x010000
  · rw [if_pos h14] at hw
    exact .inl ⟨by omega, h14, hw.symm⟩
  rw [if_neg h14] at hw
  right
  by_cases h15 : a < 0x020000
  · rw [if_pos h15] at hw
    exact .inl ⟨by omega, h15, hw.symm⟩
  rw [if_neg h15] at hw
  right
  by_cases h16 : a < 0x040000
  · rw [if_pos h16] at hw
    exact .inl ⟨by omega, h16, hw.symm⟩
  rw [if_neg h16] at hw
  right
  by_cases h17 : a < 0x100000
  · rw [if_pos h17] at hw
    exact .inl ⟨by omega, h17, hw.symm⟩
  rw [if_neg h17] at hw
  right
  by_cases h18 : a < 0x200000
  · rw [if_pos h18] at hw
    exact .inl ⟨by omega, h18, hw.symm⟩
  rw [if_neg h18] at hw
  exact .inr ⟨by omega, hw.symm⟩

theorem windowOf_eq_registers {a : Nat} : windowOf a = .registers ↔ a < 0x000100 := by
  rcases windowOf_cases a with h | h | h | h | h | h | h | h | h | h | h | h | h | h | h | h | h | h | h | h <;>
    simp only [h] <;> simp <;> omega

theorem windowOf_eq_tidx {a : Nat} : windowOf a = .tidx ↔ 0x000100 ≤ a ∧ a < 0x000140 := by
  rcases windowOf_cases a with h | h | h | h | h | h | h | h | h | h | h | h | h | h | h | h | h | h | h | h <;>
    simp only [h] <;> simp <;> omega

theorem windowOf_eq_tword {a : Nat} : windowOf a = .tword ↔ 0x000140 ≤ a ∧ a < 0x000160 := by
  rcases windowOf_cases a with h | h | h | h | h | h | h | h | h | h | h | h | h | h | h | h | h | h | h | h <;>
    simp only [h] <;> simp <;> omega

theorem windowOf_eq_key {a : Nat} : windowOf a = .key ↔ 0x000160 ≤ a ∧ a < 0x000180 := by
  rcases windowOf_cases a with h | h | h | h | h | h | h | h | h | h | h | h | h | h | h | h | h | h | h | h <;>
    simp only [h] <;> simp <;> omega

theorem windowOf_eq_pal {a : Nat} : windowOf a = .pal ↔ 0x000200 ≤ a ∧ a < 0x000240 := by
  rcases windowOf_cases a with h | h | h | h | h | h | h | h | h | h | h | h | h | h | h | h | h | h | h | h <;>
    simp only [h] <;> simp <;> omega

theorem windowOf_eq_palw {a : Nat} : windowOf a = .palw ↔ 0x000240 ≤ a ∧ a < 0x000260 := by
  rcases windowOf_cases a with h | h | h | h | h | h | h | h | h | h | h | h | h | h | h | h | h | h | h | h <;>
    simp only [h] <;> simp <;> omega

theorem windowOf_eq_map {a : Nat} : windowOf a = .map ↔ 0x000400 ≤ a ∧ a < 0x000900 := by
  rcases windowOf_cases a with h | h | h | h | h | h | h | h | h | h | h | h | h | h | h | h | h | h | h | h <;>
    simp only [h] <;> simp <;> omega

theorem windowOf_eq_region {a : Nat} : windowOf a = .region ↔ 0x002000 ≤ a ∧ a < 0x004000 := by
  rcases windowOf_cases a with h | h | h | h | h | h | h | h | h | h | h | h | h | h | h | h | h | h | h | h <;>
    simp only [h] <;> simp <;> omega

theorem windowOf_eq_desc {a : Nat} : windowOf a = .desc ↔ 0x004000 ≤ a ∧ a < 0x005000 := by
  rcases windowOf_cases a with h | h | h | h | h | h | h | h | h | h | h | h | h | h | h | h | h | h | h | h <;>
    simp only [h] <;> simp <;> omega

theorem windowOf_eq_name {a : Nat} : windowOf a = .name ↔ 0x005000 ≤ a ∧ a < 0x006000 := by
  rcases windowOf_cases a with h | h | h | h | h | h | h | h | h | h | h | h | h | h | h | h | h | h | h | h <;>
    simp only [h] <;> simp <;> omega

theorem windowOf_eq_tileBuf {a : Nat} : windowOf a = .tileBuf ↔ 0x008000 ≤ a ∧ a < 0x010000 := by
  rcases windowOf_cases a with h | h | h | h | h | h | h | h | h | h | h | h | h | h | h | h | h | h | h | h <;>
    simp only [h] <;> simp <;> omega

theorem windowOf_eq_idx {a : Nat} : windowOf a = .idx ↔ 0x020000 ≤ a ∧ a < 0x040000 := by
  rcases windowOf_cases a with h | h | h | h | h | h | h | h | h | h | h | h | h | h | h | h | h | h | h | h <;>
    simp only [h] <;> simp <;> omega

theorem windowOf_eq_src {a : Nat} : windowOf a = .src ↔ 0x100000 ≤ a ∧ a < 0x200000 := by
  rcases windowOf_cases a with h | h | h | h | h | h | h | h | h | h | h | h | h | h | h | h | h | h | h | h <;>
    simp only [h] <;> simp <;> omega

/-- Nothing is hard-wired outside REGION and DESC. -/
theorem hardZero_of_window {a : Nat} (h1 : windowOf a ≠ .region) (h2 : windowOf a ≠ .desc) : hardZero a = false := by
  unfold hardZero
  split <;> simp_all

theorem hardZero_idx {a : Nat} (h1 : 0x020000 ≤ a) (h2 : a < 0x040000) : hardZero a = false := by
  have : windowOf a = .idx := windowOf_eq_idx.mpr ⟨h1, h2⟩
  exact hardZero_of_window (by simp [this]) (by simp [this])

theorem hardZero_tileBuf {a : Nat} (h1 : 0x008000 ≤ a) (h2 : a < 0x010000) : hardZero a = false := by
  have : windowOf a = .tileBuf := windowOf_eq_tileBuf.mpr ⟨h1, h2⟩
  exact hardZero_of_window (by simp [this]) (by simp [this])

theorem hardZero_map {a : Nat} (h1 : 0x000400 ≤ a) (h2 : a < 0x000900) : hardZero a = false := by
  have : windowOf a = .map := windowOf_eq_map.mpr ⟨h1, h2⟩
  exact hardZero_of_window (by simp [this]) (by simp [this])

theorem hardZero_name {a : Nat} (h1 : 0x005000 ≤ a) (h2 : a < 0x006000) : hardZero a = false := by
  have : windowOf a = .name := windowOf_eq_name.mpr ⟨h1, h2⟩
  exact hardZero_of_window (by simp [this]) (by simp [this])

theorem hardZero_src {a : Nat} (h1 : 0x100000 ≤ a) (h2 : a < 0x200000) : hardZero a = false := by
  have : windowOf a = .src := windowOf_eq_src.mpr ⟨h1, h2⟩
  exact hardZero_of_window (by simp [this]) (by simp [this])

/-- REGION bytes +48..+63 are the hard-wired ones (R74). -/
theorem hardZero_region {a : Nat} (h1 : 0x002000 ≤ a) (h2 : a < 0x004000) : hardZero a = decide (48 ≤ a % 64) := by
  have : windowOf a = .region := windowOf_eq_region.mpr ⟨h1, h2⟩
  simp [hardZero, this]

/-- DESC word 7 is hard-wired (V15). -/
theorem hardZero_desc {a : Nat} (h1 : 0x004000 ≤ a) (h2 : a < 0x005000) : hardZero a = decide (28 ≤ a % 32) := by
  have : windowOf a = .desc := windowOf_eq_desc.mpr ⟨h1, h2⟩
  simp [hardZero, this]

/-- Past the aperture nothing is hard-wired. -/
theorem hardZero_reserved {a : Nat} (h : windowOf a = .reserved) : hardZero a = false :=
  hardZero_of_window (by simp [h]) (by simp [h])

/-! ## The registers -/

theorem regAt_regOffset (r : Reg) : regAt (regOffset r) = some r := by cases r <;> decide

/-- A register's offset is a multiple of 4 below 0x05C. -/
theorem regAt_some {a : Nat} {r : Reg} (h : regAt a = some r) : a = regOffset r := by
  have := List.find?_some h
  simpa using (beq_iff_eq.mp this).symm

theorem regOffset_bounds (r : Reg) : regOffset r % 4 = 0 ∧ regOffset r ≤ 0x058 := by cases r <;> decide

theorem regAt_none_of_ge {a : Nat} (h : 0x05C ≤ a) : regAt a = none := by
  cases hr : regAt a with
  | none => rfl
  | some r =>
    have h1 := regAt_some hr
    have h2 := regOffset_bounds r
    omega

end Sys2Proof.Machine
end

