-- ==== Sys2Proof/Laws/Raster.lean ====
section
/-! SUPPORT. The indexed raster: what SetNib over a range leaves in every pixel and in every byte (R68), and multi-byte
reads and writes of the memories (R62). -/

namespace Sys2Proof.Machine

theorem nibBytes_length (old f : Nat → Nib) (n : Nat) : (nibBytes old f n).length = (n + 1) / 2 := by
  simp [nibBytes]

theorem nibBytes_getElem (old f : Nat → Nib) (n j : Nat) (h : j < (nibBytes old f n).length) :
    (nibBytes old f n)[j] =
      (if 2 * j + 1 < n then f (2 * j + 1) else old (2 * j + 1)) ++ f (2 * j) := by
  simp [nibBytes]

/-- The low nibble of a byte made of two nibbles. -/
@[simp] theorem lowNib_append (h l : Nib) : (h ++ l : BitVec (4 + 4)).extractLsb' 0 4 = l := by
  ext i hi
  rw [BitVec.getElem_extractLsb', BitVec.getLsbD_append]
  simp [hi, BitVec.getLsbD_eq_getElem]

/-- The high nibble of a byte made of two nibbles. -/
@[simp] theorem highNib_append (h l : Nib) : (h ++ l : BitVec (4 + 4)).extractLsb' 4 4 = h := by
  ext i hi
  rw [BitVec.getElem_extractLsb', BitVec.getLsbD_append]
  simp [hi, BitVec.getLsbD_eq_getElem]

theorem memByte_setNibs_outside {s : State} {f : Nat → Nib} {n a : Nat}
    (h : ¬ (Config.idxBase ≤ a ∧ a < Config.idxBase + (n + 1) / 2)) :
    memByte (setNibs s f n) a = memByte s a :=
  memByte_storeBytes_outside (by rwa [nibBytes_length])

/-- SetNib over pixels 0 to n − 1: those pixels take the new indices, every other keeps its own (R68). -/
theorem nib_setNibs (s : State) (f : Nat → Nib) (n p : Nat) (hn : n ≤ 0x40000) :
    nib (setNibs s f n) p = if p < n then f p else nib s p := by
  by_cases hin : p / 2 < (n + 1) / 2
  · have hz : hardZero (Config.idxBase + p / 2) = false :=
      hardZero_idx (by simp [Config.idxBase]) (by simp only [Config.idxBase]; omega)
    have hb : memByte (setNibs s f n) (Config.idxBase + p / 2) =
        (if 2 * (p / 2) + 1 < n then f (2 * (p / 2) + 1) else nib s (2 * (p / 2) + 1)) ++ f (2 * (p / 2)) := by
      rw [setNibs, memByte_storeBytes_inside hz (by omega) (by rw [nibBytes_length]; omega), nibBytes_getElem]
      simp
    by_cases hp : p % 2 = 0
    · have he : 2 * (p / 2) = p := by omega
      have hlt : p < n := by omega
      simp only [nib, hp, if_true]
      rw [hb, lowNib_append, he, if_pos hlt]
    · have he : 2 * (p / 2) + 1 = p := by omega
      have : nib (setNibs s f n) p = (if p < n then f p else nib s p) := by
        conv => lhs; simp only [nib, hp, if_false]
        rw [hb, highNib_append, he]
      exact this
  · have hlt : ¬ p < n := by omega
    rw [if_neg hlt]
    unfold nib
    rw [memByte_setNibs_outside (by omega)]

/-! ## Little-endian values -/

/-- The value of n bytes depends on those bytes alone. -/
theorem littleEndian_congr {f g : Nat → Byte} {a n : Nat} (h : ∀ k, k < n → f (a + k) = g (a + k)) :
    littleEndian f a n = littleEndian g a n := by
  induction n with
  | zero => rfl
  | succ n ih => simp [littleEndian, ih fun k hk => h k (by omega), h n (by omega)]

theorem littleEndian_lt (f : Nat → Byte) (a n : Nat) : littleEndian f a n < 2 ^ (8 * n) := by
  induction n with
  | zero => simp [littleEndian]
  | succ n ih =>
    have hb := (f (a + n)).isLt
    have : 2 ^ (8 * (n + 1)) = 2 ^ (8 * n) * 256 := by rw [Nat.mul_add, Nat.pow_add]
    simp only [littleEndian]
    nlinarith [Nat.two_pow_pos (8 * n)]

/-- A word of the memories depends on its four bytes alone. -/
theorem memWord_toNat (s : State) (a : Nat) : (memWord s a).toNat = littleEndian (memByte s) a 4 := by
  have h := littleEndian_lt (memByte s) a 4
  rw [memWord, BitVec.toNat_ofNat]
  exact Nat.mod_eq_of_lt h

theorem memWord_congr {s t : State} {a : Nat} (h : ∀ k, k < 4 → memByte t (a + k) = memByte s (a + k)) :
    memWord t a = memWord s a := by
  rw [memWord, memWord, littleEndian_congr h]

/-- A value whose bytes are those of w is w. -/
theorem littleEndian_bytesOfWord {f : Nat → Byte} {a : Nat} {w : Word} (h : ∀ k, k < 4 → f (a + k) = byteOfWord w k) :
    littleEndian f a 4 = w.toNat := by
  simp only [littleEndian, h 0 (by omega), h 1 (by omega), h 2 (by omega), h 3 (by omega), byteOfWord,
    BitVec.extractLsb'_toNat, Nat.shiftRight_eq_div_pow]
  have := w.isLt
  omega

/-- Storing a word's bytes and reading the word back (R62). -/
theorem memWord_of_bytes {s : State} {a : Nat} {w : Word} (h : ∀ k, k < 4 → memByte s (a + k) = byteOfWord w k) :
    memWord s a = w := by
  rw [memWord, littleEndian_bytesOfWord h, BitVec.ofNat_toNat, BitVec.setWidth_eq]

theorem littleEndian_digit {b0 b1 b2 b3 : Nat} (h0 : b0 < 256) (h1 : b1 < 256) (h2 : b2 < 256) (h3 : b3 < 256) :
    let v := (b0 + b1 * 256 + b2 * 65536 + b3 * 16777216) % 4294967296
    v % 256 = b0 ∧ v / 256 % 256 = b1 ∧ v / 65536 % 256 = b2 ∧ v / 16777216 % 256 = b3 := by
  intro v
  omega

/-- Byte k of a word of the memories is the byte at offset + k (R62). -/
theorem byteOfWord_memWord (s : State) (a k : Nat) (hk : k < 4) : byteOfWord (memWord s a) k = memByte s (a + k) := by
  have h := littleEndian_digit (memByte s (a + 0)).isLt (memByte s (a + 1)).isLt (memByte s (a + 2)).isLt
    (memByte s (a + 3)).isLt
  have hv : (memWord s a).toNat = ((memByte s (a + 0)).toNat + (memByte s (a + 1)).toNat * 256 +
      (memByte s (a + 2)).toNat * 65536 + (memByte s (a + 3)).toNat * 16777216) % 4294967296 := by
    simp [memWord, littleEndian]
  rw [← hv] at h
  apply BitVec.eq_of_toNat_eq
  rw [byteOfWord, BitVec.extractLsb'_toNat, Nat.shiftRight_eq_div_pow]
  obtain ⟨h0, h1, h2, h3⟩ := h
  rcases (by omega : k = 0 ∨ k = 1 ∨ k = 2 ∨ k = 3) with rfl | rfl | rfl | rfl
  · simpa using h0
  · exact h1
  · exact h2
  · exact h3

theorem bytesOfWord_length (w : Word) : (bytesOfWord w).length = 4 := rfl

theorem bytesOfHalf_length (h : Half) : (bytesOfHalf h).length = 2 := rfl

/-- A list of images of one size: element k of image j. -/
theorem flatMap_getElem? {α β : Type} (f : α → List β) (size : Nat) (hf : ∀ x, (f x).length = size) (l : List α)
    (j k : Nat) (hk : k < size) : (l.flatMap f)[size * j + k]? = (l[j]?).bind fun x => (f x)[k]? := by
  induction l generalizing j with
  | nil => simp
  | cons x l ih =>
    cases j with
    | zero => simp [List.flatMap_cons, List.getElem?_append_left, hf, hk]
    | succ j =>
      rw [List.flatMap_cons, List.getElem?_append_right (by rw [hf]; nlinarith)]
      rw [show size * (j + 1) + k - (f x).length = size * j + k by rw [hf, Nat.mul_succ]; omega]
      simpa using ih j

theorem flatMap_length_const {α β : Type} (f : α → List β) (size : Nat) (hf : ∀ x, (f x).length = size)
    (l : List α) : (l.flatMap f).length = size * l.length := by
  induction l with
  | nil => simp
  | cons x l ih => simp [List.flatMap_cons, ih, hf, Nat.mul_succ, Nat.add_comm]

end Sys2Proof.Machine
end

