-- ==== Sys2Proof/Laws/Codec.lean ====
section
/-! SUPPORT. The tile codec: which bits of a packed word hold an index, and that packing and unpacking undo each other
(R151, R152). -/

namespace Sys2Proof.Machine

@[simp] theorem tileNib_lt (t : Tile) (k : Nat) (h : k < 64) : tileNib t k = t[k] := by
  simp [tileNib, h]

/-- Nibble n of a word made of four bytes. -/
theorem wordNib_of_bytes (b3 b2 b1 b0 : Byte) (n : Nat) (hn : n < 8) :
    (b3 ++ b2 ++ b1 ++ b0 : Word).extractLsb' (4 * n) 4 =
      (match n / 2 with | 0 => b0 | 1 => b1 | 2 => b2 | _ => b3).extractLsb' (4 * (n % 2)) 4 := by
  ext i hi
  simp only [BitVec.getElem_extractLsb', BitVec.getLsbD_append]
  interval_cases n <;> simp <;> interval_cases i <;> simp

/-- Word j of a packed tile holds row j, column n in bits [4n+3:4n] (R151's one-step form). -/
theorem pack_nib (t : Tile) (j n : Nat) (hj : j < 8) (hn : n < 8) :
    ((pack t)[j]).extractLsb' (4 * n) 4 = t[8 * j + n] := by
  simp only [pack, Vector.getElem_ofFn]
  rw [wordNib_of_bytes _ _ _ _ n hn]
  have hpair : ∀ m, m < 32 → ∀ c, c < 2 → (packByte t m).extractLsb' (4 * c) 4 = tileNib t (2 * m + c) := by
    intro m _ c hc
    interval_cases c
    · simp [packByte]
    · simp [packByte]
  have hc : n % 2 < 2 := Nat.mod_lt _ (by omega)
  have hk : 2 * (4 * j + n / 2) + n % 2 = 8 * j + n := by omega
  have hd : n / 2 < 4 := by omega
  rcases (by omega : n / 2 = 0 ∨ n / 2 = 1 ∨ n / 2 = 2 ∨ n / 2 = 3) with h | h | h | h <;>
    simp only [h] <;> rw [hpair _ (by omega) _ hc] <;> rw [← tileNib_lt t _ (by omega)] <;> congr 1 <;> omega

/-- Index k of an unpacked tile (R152). -/
theorem unpack_get (w : PackedTile) (k : Nat) (hk : k < 64) :
    (unpack w)[k] = (w[k / 8]).extractLsb' (4 * (k % 8)) 4 := by
  have : k / 8 < 8 := by omega
  simp [unpack, this]

/-- unpack(pack(t)) = t (R152). -/
theorem unpack_pack (t : Tile) : unpack (pack t) = t := by
  ext k hk
  rw [unpack_get _ _ hk, pack_nib t (k / 8) (k % 8) (by omega) (by omega)]
  congr 2
  omega

/-- Two words with the same eight nibbles are the same. -/
theorem word_ext_nibs {v w : Word} (h : ∀ n, n < 8 → v.extractLsb' (4 * n) 4 = w.extractLsb' (4 * n) 4) : v = w := by
  ext i hi
  have := congrArg (fun x => x.getLsbD (i % 4)) (h (i / 4) (by omega))
  have hm : i % 4 < 4 := Nat.mod_lt _ (by omega)
  have he : 4 * (i / 4) + i % 4 = i := by omega
  simpa [hm, he, BitVec.getLsbD_eq_getElem hi] using this

/-- pack(unpack(w)) = w (R152). -/
theorem pack_unpack (w : PackedTile) : pack (unpack w) = w := by
  ext1 j hj
  refine word_ext_nibs fun n hn => ?_
  rw [pack_nib _ _ _ hj hn, unpack_get _ _ (by omega)]
  congr 2 <;> omega

/-- The 32 bytes of a packed tile: byte 4j + k is byte k of word j (R73). -/
theorem packedBytes_length (t : Tile) : (packedBytes t).length = 32 := by
  rw [packedBytes, flatMap_length_const bytesOfWord 4 bytesOfWord_length]
  simp

theorem packedBytes_get (t : Tile) (j k : Nat) (hj : j < 8) (hk : k < 4) :
    (packedBytes t)[4 * j + k]? = some (byteOfWord ((pack t)[j]) k) := by
  rw [packedBytes, flatMap_getElem? bytesOfWord 4 bytesOfWord_length _ _ _ hk]
  have : (pack t).toList[j]? = some ((pack t)[j]) := by simp [hj]
  rw [this]
  interval_cases k <;> rfl

/-- The packed blank tile is eight zero words (R175). -/
theorem pack_blank (j : Nat) (hj : j < 8) : (pack blankTile)[j] = 0 := by
  refine word_ext_nibs fun n hn => ?_
  rw [pack_nib _ _ _ hj hn]
  simp [blankTile]

/-- A word is its four bytes (R62). -/
theorem word_of_bytes (w : Word) :
    (w.extractLsb' 24 8 ++ w.extractLsb' 16 8 ++ w.extractLsb' 8 8 ++ w.extractLsb' 0 8 : Word) = w := by
  refine word_ext_nibs fun n hn => ?_
  rw [wordNib_of_bytes _ _ _ _ n hn]
  have hb : ∀ k c, c < 2 → (w.extractLsb' (8 * k) 8).extractLsb' (4 * c) 4 = w.extractLsb' (8 * k + 4 * c) 4 := by
    intro k c hc
    ext i hi
    simp [show 4 * c + i < 8 by omega, Nat.add_assoc]
  rcases (by omega : n / 2 = 0 ∨ n / 2 = 1 ∨ n / 2 = 2 ∨ n / 2 = 3) with h | h | h | h <;> simp only [h]
  · rw [show 4 * n = 8 * 0 + 4 * (n % 2) by omega]; exact hb 0 _ (by omega)
  · rw [show 4 * n = 8 * 1 + 4 * (n % 2) by omega]; exact hb 1 _ (by omega)
  · rw [show 4 * n = 8 * 2 + 4 * (n % 2) by omega]; exact hb 2 _ (by omega)
  · rw [show 4 * n = 8 * 3 + 4 * (n % 2) by omega]; exact hb 3 _ (by omega)

/-- The value of four bytes in a word (R62). -/
theorem bytes_toNat (b3 b2 b1 b0 : Byte) :
    (b3 ++ b2 ++ b1 ++ b0 : Word).toNat = b0.toNat + 256 * b1.toNat + 65536 * b2.toNat + 16777216 * b3.toNat := by
  have append (n : Nat) (x : BitVec n) (y : Byte) : (x ++ y).toNat = x.toNat * 256 + y.toNat := by
    rw [BitVec.toNat_append, ← Nat.shiftLeft_add_eq_or_of_lt y.isLt, Nat.shiftLeft_eq]
  rw [append, append, append]
  omega

theorem byteOfWord_toNat (w : Word) (k : Nat) : (byteOfWord w k).toNat = w.toNat / 2 ^ (8 * k) % 256 := by
  rw [byteOfWord, BitVec.extractLsb'_toNat, Nat.shiftRight_eq_div_pow]

/-- C5 is a 5-bit value (R132). -/
theorem c5_bound (c : Byte) : c5 c ≤ 31 := by
  have := c.isLt; unfold c5; omega

/-- ENC as a number (R133). -/
theorem encodeRgb_toNat (c : Rgb) : (encodeRgb c).toNat = encNat c := by
  have h1 := c5_bound c.r; have h2 := c5_bound c.g; have h3 := c5_bound c.b
  have : encNat c = c5 c.b * 1024 + c5 c.g * 32 + c5 c.r := rfl
  rw [this]
  generalize hr : c5 c.r = r at *
  generalize hg : c5 c.g = g at *
  generalize hb : c5 c.b = b at *
  unfold encodeRgb; rw [hr, hg, hb]
  have : ∀ b g r : Fin 32,
      ((BitVec.ofNat 15 b.val <<< 10) ||| (BitVec.ofNat 15 g.val <<< 5) ||| BitVec.ofNat 15 r.val).toNat = b.val*1024+g.val*32+r.val := by
    intro b g r
    simp only [BitVec.toNat_or, BitVec.toNat_shiftLeft, BitVec.toNat_ofNat]
    have := b.isLt; have := g.isLt; have := r.isLt
    rw [show b.val % 2^15 = b.val by omega, show g.val % 2^15 = g.val by omega, show r.val % 2^15 = r.val by omega]
    simp only [Nat.shiftLeft_eq]
    rw [show b.val * 2^10 % 2^15 = b.val * 2^10 by omega, show g.val * 2^5 % 2^15 = g.val * 2^5 by omega]
    have e1 : b.val * 2^10 ||| g.val * 2^5 = b.val * 2^10 + g.val * 2^5 := by
      rw [← Nat.shiftLeft_eq b.val]
      exact (Nat.shiftLeft_add_eq_or_of_lt (by omega) _).symm
    rw [e1, show b.val * 2^10 + g.val * 2^5 = (b.val * 32 + g.val) <<< 5 by rw [Nat.shiftLeft_eq]; omega]
    rw [← Nat.shiftLeft_add_eq_or_of_lt (by omega), Nat.shiftLeft_eq]; omega
  exact this ⟨b, by omega⟩ ⟨g, by omega⟩ ⟨r, by omega⟩

end Sys2Proof.Machine
end

