-- ==== Sys2Proof/Laws/Dedup.lean ====
section
/-! SUPPORT. Deduplication: the CAM key says exactly which tile it is, and what the walk leaves (R37, R172, R173). -/

namespace Sys2Proof.Machine

/-- The number whose base-16 digits, least significant first, are the list. -/
theorem foldr_nib_lt (l : List Nib) : l.foldr (fun v acc => v.toNat + 16 * acc) 0 < 16 ^ l.length := by
  induction l with
  | nil => simp
  | cons v l ih =>
    have := v.isLt
    simp only [List.foldr_cons, List.length_cons, Nat.pow_succ]
    omega

theorem foldr_nib_inj {l m : List Nib} (hlen : l.length = m.length)
    (h : l.foldr (fun v acc => v.toNat + 16 * acc) 0 = m.foldr (fun v acc => v.toNat + 16 * acc) 0) : l = m := by
  induction l generalizing m with
  | nil => simpa using hlen.symm
  | cons v l ih =>
    cases m with
    | nil => simp at hlen
    | cons w m =>
      have hv := v.isLt
      have hw := w.isLt
      simp only [List.foldr_cons] at h
      have h1 : v = w := BitVec.eq_of_toNat_eq (by omega)
      rw [h1, ih (by simpa using hlen) (by omega)]

/-- The key is the tile: equal keys are equal tiles (R37, R150). -/
theorem keyOf_inj {t u : Tile} : keyOf t = keyOf u ↔ t = u := by
  refine ⟨fun h => ?_, fun h => h ▸ rfl⟩
  have hb : ∀ x : Tile, x.toList.foldr (fun v acc => v.toNat + 16 * acc) 0 < 2 ^ 256 := fun x => by
    have := foldr_nib_lt x.toList
    simpa using this
  have := congrArg BitVec.toNat h
  simp only [keyOf, BitVec.toNat_ofNat, Nat.mod_eq_of_lt (hb _)] at this
  exact Vector.toList_inj.mp (foldr_nib_inj (by simp) this)

/-- The CAM of a list of distinct tiles, numbered from n on. -/
def camFrom (n : Nat) : List Tile → List CamEntry
  | [] => []
  | t :: ts => ⟨keyOf t, BitVec.ofNat 10 n⟩ :: camFrom (n + 1) ts

theorem camFrom_append (n : Nat) (ts : List Tile) (t : Tile) :
    camFrom n (ts ++ [t]) = camFrom n ts ++ [⟨keyOf t, BitVec.ofNat 10 (n + ts.length)⟩] := by
  induction ts generalizing n with
  | nil => simp [camFrom]
  | cons u ts ih => simp [camFrom, ih, Nat.add_assoc, Nat.add_comm 1]

theorem camFrom_length (n : Nat) (ts : List Tile) : (camFrom n ts).length = ts.length := by
  induction ts generalizing n with
  | nil => rfl
  | cons u ts ih => simp [camFrom, ih]

theorem camFrom_key {n : Nat} {ts : List Tile} {e : CamEntry} (h : e ∈ camFrom n ts) : ∃ t ∈ ts, e.key = keyOf t := by
  induction ts generalizing n with
  | nil => simp [camFrom] at h
  | cons u ts ih =>
    rcases List.mem_cons.mp h with rfl | h
    · exact ⟨u, by simp, rfl⟩
    · obtain ⟨t, ht, he⟩ := ih h
      exact ⟨t, by simp [ht], he⟩

theorem camFrom_pairwise {n : Nat} {ts : List Tile} (h : ts.Nodup) :
    (camFrom n ts).Pairwise fun x y => x.key ≠ y.key := by
  induction ts generalizing n with
  | nil => exact List.Pairwise.nil
  | cons u ts ih =>
    obtain ⟨hu, hts⟩ := List.nodup_cons.mp h
    refine List.Pairwise.cons (fun e he hk => ?_) (ih hts)
    obtain ⟨t, ht, hte⟩ := camFrom_key he
    exact hu (keyOf_inj.mp (hk.trans hte) ▸ ht)

/-- A lookup in the CAM of distinct tiles: the number of the tile, or a miss (R37, R173). -/
theorem camLookup_camFrom (n : Nat) (ts : List Tile) (t : Tile) :
    (∃ k, ∃ h : k < ts.length, ts[k] = t ∧ camLookup (camFrom n ts) (keyOf t) = some (BitVec.ofNat 10 (n + k))) ∨
      (t ∉ ts ∧ camLookup (camFrom n ts) (keyOf t) = none) := by
  induction ts generalizing n with
  | nil => exact .inr ⟨by simp, rfl⟩
  | cons u ts ih =>
    by_cases hu : u = t
    · exact .inl ⟨0, by simp, by simp [hu], by simp [camFrom, camLookup, hu]⟩
    · have hk : ¬ keyOf u = keyOf t := fun h => hu (keyOf_inj.mp h)
      rcases ih (n + 1) with ⟨k, hlt, hget, hl⟩ | ⟨hmem, hl⟩
      · refine .inl ⟨k + 1, by simpa using hlt, by simpa using hget, ?_⟩
        simp [camFrom, camLookup, hk, hl, Nat.add_comm, Nat.add_left_comm]
      · exact .inr ⟨by simp [hmem, Ne.symm hu], by simp [camFrom, camLookup, hk, hl]⟩

/-- What the walk has done after the blocks l: the tile set is the blank tile and then the distinct blocks in order of
first occurrence, the CAM numbers them from 1, and each block's entry is its tile's number (R172, R173). -/
structure Walked (d : DedupState) (l ts : List Tile) : Prop where
  tiles : d.tiles = blankTile :: ts
  cam : d.cam = camFrom 1 ts
  nodup : ts.Nodup
  mem : ∀ t, t ∈ ts ↔ t ∈ l
  short : ts.length ≤ l.length
  len : d.blocks.length = l.length
  entry : ∀ i (h : i < l.length), ∃ k, ∃ hk : k < ts.length, ts[k] = l[i] ∧ d.blocks[i]? = some (BitVec.ofNat 10 (k + 1))

theorem walked_nil : Walked dedupInit [] [] :=
  ⟨rfl, rfl, List.nodup_nil, by simp, by simp, rfl, fun i h => absurd h (by simp)⟩

/-- One block more (R173). -/
theorem walked_step {d : DedupState} {l ts : List Tile} (h : Walked d l ts) (t : Tile) :
    Walked (dedupStep d t) (l ++ [t]) (if t ∈ ts then ts else ts ++ [t]) := by
  have hl : camLookup d.cam (keyOf t) = camLookup (camFrom 1 ts) (keyOf t) := by rw [h.cam]
  rcases camLookup_camFrom 1 ts t with ⟨k, hk, hget, hc⟩ | ⟨hmem, hc⟩
  · have hin : t ∈ ts := hget ▸ List.getElem_mem hk
    have hd : dedupStep d t = { d with blocks := d.blocks ++ [BitVec.ofNat 10 (1 + k)] } := by
      simp [dedupStep, hl, hc]
    rw [hd, if_pos hin]
    refine ⟨h.tiles, h.cam, h.nodup, fun u => ?_, ?_, by simp [h.len], fun i hi => ?_⟩
    · rw [h.mem u]
      constructor
      · intro hu; simp [hu]
      · intro hu
        rcases List.mem_append.mp hu with hu | hu
        · exact hu
        · rw [List.mem_singleton.mp hu]; exact (h.mem t).mp hin
    · have := h.short; simp; omega
    · by_cases hil : i < l.length
      · obtain ⟨k', hk', hg, hb⟩ := h.entry i hil
        exact ⟨k', hk', by simp [hg, hil], by rw [List.getElem?_append_left (by rw [h.len]; exact hil), hb]⟩
      · have hie : i = l.length := by simp at hi; omega
        subst hie
        exact ⟨k, hk, by simp [hget], by simp [h.len, Nat.add_comm]⟩
  · have hd : dedupStep d t =
        ⟨d.cam ++ [⟨keyOf t, BitVec.ofNat 10 d.tiles.length⟩], d.tiles ++ [t],
          d.blocks ++ [BitVec.ofNat 10 d.tiles.length]⟩ := by
      simp [dedupStep, hl, hc]
    have hlen : d.tiles.length = 1 + ts.length := by simp [h.tiles, Nat.add_comm]
    rw [hd, if_neg hmem]
    refine ⟨by simp [h.tiles], by rw [camFrom_append, h.cam, hlen], ?_, fun u => ?_, ?_, by simp [h.len],
      fun i hi => ?_⟩
    · exact List.nodup_append.mpr ⟨h.nodup, by simp, fun a ha b hb => by
        rw [List.mem_singleton.mp hb]; exact fun he => hmem (he ▸ ha)⟩
    · simp [h.mem u]
    · have := h.short; simp; omega
    · by_cases hil : i < l.length
      · obtain ⟨k', hk', hg, hb⟩ := h.entry i hil
        exact ⟨k', by simp; omega, by simp [hk', hg, hil], by rw [List.getElem?_append_left (by rw [h.len]; exact hil), hb]⟩
      · have hie : i = l.length := by simp at hi; omega
        subst hie
        exact ⟨ts.length, by simp, by simp, by simp [h.len, hlen, Nat.add_comm]⟩

/-- The distinct tiles of a list in order of first occurrence. -/
def distinctTiles (l : List Tile) : List Tile := l.foldl (fun ts t => if t ∈ ts then ts else ts ++ [t]) []

theorem walked_append {d : DedupState} {l ts : List Tile} (h : Walked d l ts) (m : List Tile) :
    Walked (m.foldl dedupStep d) (l ++ m) (m.foldl (fun ts t => if t ∈ ts then ts else ts ++ [t]) ts) := by
  induction m generalizing d l ts with
  | nil => simpa using h
  | cons t m ih => simpa using ih (walked_step h t)

/-- What Dedup leaves (R172, R173). -/
theorem dedup_walked (s : State) : Walked (dedup s) (rasterBlocks s) (distinctTiles (rasterBlocks s)) := by
  simpa [dedup, distinctTiles] using walked_append walked_nil (rasterBlocks s)

end Sys2Proof.Machine
end

