-- ==== Sys2Proof/Laws/TileSet.lean ====
section
/-! SUPPORT. What the bulk writers leave: packed tiles in TILE_BUF, tilemap entries in MAP, and the order of the
raster's blocks (R72, R73, R173-R175, R195). -/

namespace Sys2Proof.Machine

/-- Reading a word whose four bytes were stored together. -/
theorem memWord_storeBytes_inside {s : State} {base o : Nat} {bs : List Byte} {w : Word}
    (hb : ∀ k, k < 4 → bs[o + k]? = some (byteOfWord w k)) (hz : ∀ k, k < 4 → hardZero (base + o + k) = false) :
    memWord (storeBytes s base bs) (base + o) = w := by
  refine memWord_of_bytes fun k hk => ?_
  obtain ⟨hlt, hget⟩ := List.getElem?_eq_some_iff.mp (hb k hk)
  rw [memByte_storeBytes_inside (hz k hk) (by omega) (by omega), ← hget]
  congr 1
  omega

/-- A packed tile stored in TILE_BUF reads back word by word (R73, R175, R195). -/
theorem memWord_storeTiles {s : State} {base : Nat} {tiles : List Tile} (h1 : 0x008000 ≤ base)
    (h2 : base + 32 * tiles.length ≤ 0x010000) (i : Nat) (hi : i < tiles.length) (j : Nat) (hj : j < 8) :
    memWord (storeBytes s base (tiles.flatMap packedBytes)) (base + (32 * i + 4 * j)) = (pack tiles[i])[j] := by
  refine memWord_storeBytes_inside (fun k hk => ?_) fun k hk => hardZero_tileBuf (by omega) (by omega)
  rw [Nat.add_assoc, flatMap_getElem? packedBytes 32 packedBytes_length _ _ _ (by omega),
    List.getElem?_eq_getElem hi]
  exact packedBytes_get _ _ _ hj hk

/-- A tilemap entry stored in MAP reads back (R72, R174). -/
theorem memHalf_storeHalves {s : State} {base : Nat} {hs : List Half} (h1 : 0x000400 ≤ base)
    (h2 : base + 2 * hs.length ≤ 0x000900) (e : Nat) (he : e < hs.length) :
    memHalf (storeBytes s base (hs.flatMap bytesOfHalf)) (base + 2 * e) = hs[e] := by
  have hlen := flatMap_length_const bytesOfHalf 2 bytesOfHalf_length hs
  have hb : ∀ k, k < 2 → memByte (storeBytes s base (hs.flatMap bytesOfHalf)) (base + 2 * e + k) =
      (hs[e]).extractLsb' (8 * k) 8 := fun k hk => by
    have hg := flatMap_getElem? bytesOfHalf 2 bytesOfHalf_length hs e k hk
    rw [List.getElem?_eq_getElem he] at hg
    have hv : (bytesOfHalf hs[e])[k]? = some ((hs[e]).extractLsb' (8 * k) 8) := by interval_cases k <;> rfl
    rw [memByte_storeBytes_inside (hardZero_map (by omega) (by omega)) (by omega) (by omega)]
    refine Option.some.inj ?_
    rw [← List.getElem?_eq_getElem, show base + 2 * e + k - base = 2 * e + k by omega, hg]
    simpa using hv
  simp only [memHalf, littleEndian]
  rw [show base + 2 * e + 0 = base + 2 * e + 0 from rfl, hb 0 (by omega), hb 1 (by omega)]
  apply BitVec.eq_of_toNat_eq
  have := (hs[e]).isLt
  simp only [BitVec.extractLsb'_toNat, Nat.shiftRight_eq_div_pow, BitVec.toNat_ofNat]
  omega

/-- A grid listed row by row: the element of row r, column c. -/
theorem grid_getElem? {β : Type} (n m : Nat) (f : Nat → Nat → β) (r c : Nat) (hr : r < n) (hc : c < m) :
    ((List.range n).flatMap fun r => (List.range m).map (f r))[m * r + c]? = some (f r c) := by
  rw [flatMap_getElem? (fun r => (List.range m).map (f r)) m (by simp) _ _ _ hc]
  simp [hr, hc]

theorem grid_length {β : Type} (n m : Nat) (f : Nat → Nat → β) :
    ((List.range n).flatMap fun r => (List.range m).map (f r)).length = m * n := by
  rw [flatMap_length_const (fun r => (List.range m).map (f r)) m (by simp)]
  simp

theorem rasterBlocks_length (s : State) : (rasterBlocks s).length = blockCount s := grid_length _ _ _

/-- The walk's order (R173): block p of the raster. -/
theorem rasterBlocks_get (s : State) (p : Nat) (hp : p < blockCount s) : (rasterBlocks s)[p]? = some (blockAt s p) := by
  have hw : 0 < s.imgW.toNat / 8 := by
    rcases Nat.eq_zero_or_pos (s.imgW.toNat / 8) with h | h
    · simp [blockCount, h] at hp
    · exact h
  have hr : p / (s.imgW.toNat / 8) < s.imgH.toNat / 8 := by
    rw [Nat.div_lt_iff_lt_mul hw, Nat.mul_comm]; exact hp
  have := grid_getElem? (s.imgH.toNat / 8) (s.imgW.toNat / 8) (fun r c => block s (8 * c) (8 * r))
    (p / (s.imgW.toNat / 8)) (p % (s.imgW.toNat / 8)) hr (Nat.mod_lt _ hw)
  rw [Nat.div_add_mod] at this
  exact this

/-- The tilemap's entries in order (R174). -/
theorem mapEntries_length (s : State) (l : List (BitVec 10)) :
    (mapEntries s l).length = s.mapW.toNat * s.mapH.toNat := grid_length _ _ _

theorem mapEntries_get (s : State) (l : List (BitVec 10)) (r c : Nat) (hr : r < s.mapH.toNat) (hc : c < s.mapW.toNat) :
    (mapEntries s l)[s.mapW.toNat * r + c]? = some (mapEntry l (s.imgW.toNat / 8) r c) :=
  grid_getElem? _ _ (fun r c => mapEntry l (s.imgW.toNat / 8) r c) r c hr hc

/-- The walk over the first blocks (R173). -/
theorem dedup_walked_take (s : State) (n : Nat) :
    Walked (((rasterBlocks s).take n).foldl dedupStep dedupInit) ((rasterBlocks s).take n)
      (distinctTiles ((rasterBlocks s).take n)) := by
  simpa [distinctTiles] using walked_append walked_nil ((rasterBlocks s).take n)

/-- The distinct tiles among the first n blocks, counted (R176, R177 d). -/
theorem distinctTiles_take (s : State) {n : Nat} (hn : n ≤ blockCount s) :
    (distinctTiles ((rasterBlocks s).take n)).length = distinctBlocks s n := by
  have h := dedup_walked_take s n
  have hlen := rasterBlocks_length s
  rw [distinctBlocks, ← List.toFinset_card_of_nodup h.nodup]
  congr 1
  ext t
  simp only [List.mem_toFinset, h.mem t, Finset.mem_image, Finset.mem_range]
  constructor
  · intro ht
    obtain ⟨p, hp, hget⟩ := List.getElem_of_mem ht
    rw [List.length_take, hlen] at hp
    have hp' : p < blockCount s := by omega
    refine ⟨p, by omega, ?_⟩
    have := rasterBlocks_get s p hp'
    rw [List.getElem?_eq_getElem (by omega)] at this
    rw [List.getElem_take] at hget
    exact (Option.some.inj this).symm.trans hget
  · rintro ⟨p, hp, rfl⟩
    refine List.mem_of_getElem? (i := p) ?_
    rw [List.getElem?_take_of_lt hp]
    exact rasterBlocks_get s p (by omega)

theorem distinctTiles_spec (s : State) : (distinctTiles (rasterBlocks s)).length = distinctBlocks s (blockCount s) := by
  have := distinctTiles_take s (Nat.le_refl (blockCount s))
  rwa [List.take_of_length_le (Nat.le_of_eq (rasterBlocks_length s))] at this

/-- A tile that is new after the first p blocks is tile number p's count of distinct tiles (R176). -/
theorem distinctTiles_first {s : State} {p : Nat} (hp : p < blockCount s)
    (hnew : ∀ q, q < p → blockAt s q ≠ blockAt s p) :
    (distinctTiles (rasterBlocks s))[distinctBlocks s p]? = some (blockAt s p) := by
  have hlen := rasterBlocks_length s
  have hget := rasterBlocks_get s p hp
  obtain ⟨hlt, hget⟩ := List.getElem?_eq_some_iff.mp hget
  have hsplit : rasterBlocks s = (rasterBlocks s).take p ++ blockAt s p :: (rasterBlocks s).drop (p + 1) := by
    conv => lhs; rw [← List.take_append_drop p (rasterBlocks s), List.drop_eq_getElem_cons hlt, hget]
  have hmem : blockAt s p ∉ distinctTiles ((rasterBlocks s).take p) := by
    rw [(dedup_walked_take s p).mem]
    intro hin
    obtain ⟨q, hq, hqe⟩ := List.getElem_of_mem hin
    rw [List.length_take] at hq
    have := rasterBlocks_get s q (by omega)
    rw [List.getElem?_eq_getElem (by omega)] at this
    rw [List.getElem_take] at hqe
    exact hnew q (by omega) ((Option.some.inj this).symm.trans hqe)
  have hgrow (l : List Tile) (ts : List Tile) (k : Nat) (t : Tile) (h : ts[k]? = some t) :
      (l.foldl (fun ts t => if t ∈ ts then ts else ts ++ [t]) ts)[k]? = some t := by
    induction l generalizing ts with
    | nil => exact h
    | cons u l ih =>
      refine ih _ ?_
      dsimp only
      split
      · exact h
      · obtain ⟨hk, -⟩ := List.getElem?_eq_some_iff.mp h
        rw [List.getElem?_append_left hk, h]
  rw [hsplit, distinctTiles, List.foldl_append, List.foldl_cons]
  refine hgrow _ _ _ _ ?_
  have hl := distinctTiles_take s (Nat.le_of_lt hp)
  rw [distinctTiles] at hl hmem
  rw [if_neg hmem, ← hl]
  simp

/-! ## What BGTILE leaves -/

/-- The index of block p in the walk's result: its tile's number, from 1 (R173). -/
theorem dedup_entry (s : State) {p : Nat} (hp : p < blockCount s) :
    ∃ k, ∃ h : k + 1 < (dedup s).tiles.length,
      (dedup s).tiles[k + 1] = blockAt s p ∧ (dedup s).blocks[p]? = some (BitVec.ofNat 10 (k + 1)) ∧
      (distinctTiles (rasterBlocks s))[k]? = some (blockAt s p) := by
  have hw := dedup_walked s
  have hget := rasterBlocks_get s p hp
  obtain ⟨hlt, hget⟩ := List.getElem?_eq_some_iff.mp hget
  obtain ⟨k, hk, hkt, hb⟩ := hw.entry p hlt
  refine ⟨k, by rw [hw.tiles, List.length_cons]; omega, ?_, hb, ?_⟩
  · simp only [hw.tiles, List.getElem_cons_succ, hkt, hget]
  · rw [List.getElem?_eq_getElem hk, hkt, hget]

end Sys2Proof.Machine
end

