-- ==== Sys2Proof/Laws/Atlas.lean ====
section
/-! SUPPORT. ATLAS: the region checks as propositions, pass 1 as a whole, and what pass 2 writes (R190-R199). -/

namespace Sys2Proof.Machine

/-! ## Pass 1 -/

/-- CheckRegion on any record, by propositions that say when each test fails (R192, R198). -/
theorem checkRegion_of (i : Nat) (r : RegionRec) (w h : Nat) (strict : Bool) (S O : Prop)
    (hs : S ↔ (r.w.toInt < 0 ∨ r.h.toInt < 0 ∨ r.w.toInt % 8 ≠ 0 ∨ r.h.toInt % 8 ≠ 0) ∨
      (strict = true ∧ (64 < r.w.toInt ∨ 64 < r.h.toInt)))
    (ho : O ↔ r.x.toInt < 0 ∨ r.y.toInt < 0 ∨ (w : Int) < r.x.toInt + r.w.toInt ∨ (h : Int) < r.y.toInt + r.h.toInt) :
    checkRegion i r w h strict =
      open Classical in
      if S then some ⟨.regionSizeInvalid, BitVec.ofNat 32 i, r.w, r.h⟩
      else if O then some ⟨.regionOutOfBounds, BitVec.ofNat 32 i, r.w, r.h⟩
      else none := by
  simp only [checkRegion, Config.strictBound, Nat.cast_ofNat]
  generalize r.x.toInt = x at *
  generalize r.y.toInt = y at *
  generalize r.w.toInt = rw at *
  generalize r.h.toInt = rh at *
  by_cases h1 : rw < 0 ∨ rh < 0 ∨ rw % 8 ≠ 0 ∨ rh % 8 ≠ 0
  · rw [if_pos h1, if_pos (hs.mpr (.inl h1))]
  · by_cases h2 : strict = true ∧ (64 < rw ∨ 64 < rh)
    · rw [if_neg h1, if_pos h2, if_pos (hs.mpr (.inr h2))]
    · rw [if_neg h1, if_neg h2, if_neg (fun h => (hs.mp h).elim h1 h2)]
      simp only [ho]

theorem sizeInvalid_iff (s : State) (i : Nat) :
    SizeInvalid s i ↔
      (regW s i < 0 ∨ regH s i < 0 ∨ regW s i % 8 ≠ 0 ∨ regH s i % 8 ≠ 0) ∨
        (s.ctrl.strictSize = true ∧ (64 < regW s i ∨ 64 < regH s i)) := by
  simp only [SizeInvalid, Int.dvd_iff_emod_eq_zero]
  generalize regW s i = w
  generalize regH s i = h
  constructor
  · rintro (h | h | h | h | h)
    · exact .inl (.inl h)
    · exact .inl (.inr (.inl h))
    · exact .inl (.inr (.inr (.inl h)))
    · exact .inl (.inr (.inr (.inr h)))
    · exact .inr h
  · rintro ((h | h | h | h) | h)
    · exact .inl h
    · exact .inr (.inl h)
    · exact .inr (.inr (.inl h))
    · exact .inr (.inr (.inr (.inl h)))
    · exact .inr (.inr (.inr (.inr h)))

/-- CheckRegion by the propositions of Safety.lean (R192, R198). -/
theorem checkRegion_eq (s : State) (i : Nat) :
    checkRegion i (regionRec s i) s.imgW.toNat s.imgH.toNat s.ctrl.strictSize =
      open Classical in
      if SizeInvalid s i then
        some ⟨.regionSizeInvalid, BitVec.ofNat 32 i, memWord s (regionAddr i + 8), memWord s (regionAddr i + 12)⟩
      else if OutOfRaster s i then
        some ⟨.regionOutOfBounds, BitVec.ofNat 32 i, memWord s (regionAddr i + 8), memWord s (regionAddr i + 12)⟩
      else none :=
  checkRegion_of i (regionRec s i) _ _ _ _ _ (sizeInvalid_iff s i) Iff.rfl

/-- Region i as pass 1 places it, from the raster and the records alone (R194). -/
def placedAt (s : State) (i : Nat) : Placed := placeRegion i (regionRec s i) (tilesBefore s i)

theorem placedAt_eq (s : State) (i : Nat) :
    placedAt s i =
      { index := i, x := (regX s i).toNat, y := (regY s i).toNat, w := (regW s i).toNat, h := (regH s i).toNat
        wordOffset := 8 * tilesBefore s i } := rfl

theorem placedAt_tiles (s : State) (i : Nat) : (placedAt s i).tiles = regTiles s i := by
  rw [placedAt_eq]
  rfl

/-- Tile (tr, tc) of a region, in the list its outputs are written from (R195). -/
theorem regionTiles_get (s : State) (p : Placed) {tr tc : Nat} (hr : tr < p.h / 8) (hc : tc < p.w / 8) :
    (regionTiles s p)[p.w / 8 * tr + tc]? = some (block s (p.x + 8 * tc) (p.y + 8 * tr)) :=
  grid_getElem? (p.h / 8) (p.w / 8) (fun tr tc => block s (p.x + 8 * tc) (p.y + 8 * tr)) tr tc hr hc

theorem placeWithin_ok (i : Nat) (p : Placed) {t : Nat} (h : t ≤ 1024) : placeWithin i p t = .ok (p, t) :=
  if_neg (Nat.not_lt.mpr h)

theorem placeWithin_over (i : Nat) (p : Placed) {t : Nat} (h : 1024 < t) :
    placeWithin i p t = .error ⟨.capacityExceeded, BitVec.ofNat 32 i, BitVec.ofNat 32 t, 1024⟩ :=
  if_pos h

/-- Pass 1 on one region, by the propositions of Safety.lean (R190, R192-R194). -/
theorem placeOne_eq (s : State) (i : Nat) :
    placeOne s i (tilesBefore s i) =
      open Classical in
      if SizeInvalid s i then
        .error ⟨.regionSizeInvalid, BitVec.ofNat 32 i, memWord s (regionAddr i + 8), memWord s (regionAddr i + 12)⟩
      else if OutOfRaster s i then
        .error ⟨.regionOutOfBounds, BitVec.ofNat 32 i, memWord s (regionAddr i + 8), memWord s (regionAddr i + 12)⟩
      else if 1024 < tilesBefore s (i + 1) then
        .error ⟨.capacityExceeded, BitVec.ofNat 32 i, BitVec.ofNat 32 (tilesBefore s (i + 1)), 1024⟩
      else .ok (placedAt s i, tilesBefore s (i + 1)) := by
  have ht : tilesBefore s i + (placeRegion i (regionRec s i) (tilesBefore s i)).tiles = tilesBefore s (i + 1) := rfl
  simp only [placeOne, checkRegion_eq, ht]
  by_cases h1 : SizeInvalid s i
  · simp only [if_pos h1, unlessError]
  · by_cases h2 : OutOfRaster s i
    · simp only [if_neg h1, if_pos h2, unlessError]
    · simp only [if_neg h1, if_neg h2, unlessError]
      by_cases h3 : 1024 < tilesBefore s (i + 1)
      · simp only [placeWithin_over _ _ h3, if_pos h3]
      · simp only [placeWithin_ok _ _ (Nat.not_lt.mp h3), if_neg h3, placedAt]

/-- Pass 1 on a region that passes. -/
theorem placeOne_ok {s : State} {i : Nat} (h1 : ¬ SizeInvalid s i) (h2 : ¬ OutOfRaster s i)
    (h3 : tilesBefore s (i + 1) ≤ 1024) :
    placeOne s i (tilesBefore s i) = .ok (placedAt s i, tilesBefore s (i + 1)) := by
  simp only [placeOne_eq, if_neg h1, if_neg h2, if_neg (Nat.not_lt.mpr h3)]

/-- Regions i, …, i + k − 1 pass every check (R190). -/
def PassFrom (s : State) (i k : Nat) : Prop :=
  ∀ j, i ≤ j → j < i + k → ¬ SizeInvalid s j ∧ ¬ OutOfRaster s j ∧ tilesBefore s (j + 1) ≤ 1024

theorem placeRegions_cons_ok {s : State} {i t t' t'' : Nat} {p : Placed} {rest : List Nat} {ps : List Placed}
    (h : placeOne s i t = .ok (p, t')) (hr : placeRegions s rest t' = .ok (ps, t'')) :
    placeRegions s (i :: rest) t = .ok (p :: ps, t'') := by
  rw [placeRegions, h]
  show (placeRegions s rest t').map _ = _
  rw [hr]
  rfl

theorem placeRegions_cons_error {s : State} {i t : Nat} {e : CmdError} {rest : List Nat}
    (h : placeOne s i t = .error e) : placeRegions s (i :: rest) t = .error e := by
  rw [placeRegions, h]
  rfl

theorem placeRegions_rest_error {s : State} {i t t' : Nat} {p : Placed} {e : CmdError} {rest : List Nat}
    (h : placeOne s i t = .ok (p, t')) (hr : placeRegions s rest t' = .error e) :
    placeRegions s (i :: rest) t = .error e := by
  rw [placeRegions, h]
  show (placeRegions s rest t').map _ = _
  rw [hr]
  rfl

/-- Pass 1 over regions i, …, i + k − 1 when each passes (R190, R194). -/
theorem placeRegions_ok {s : State} {i k : Nat} (h : PassFrom s i k) :
    placeRegions s (List.range' i k) (tilesBefore s i) =
      .ok ((List.range' i k).map (placedAt s), tilesBefore s (i + k)) := by
  induction k generalizing i with
  | zero => rw [Nat.add_zero, List.range'_zero, placeRegions, List.map_nil]
  | succ k ih =>
    obtain ⟨h1, h2, h3⟩ := h i (Nat.le_refl _) (by omega)
    have ih := ih (i := i + 1) fun j hj1 hj2 => h j (by omega) (by omega)
    rw [show i + 1 + k = i + (k + 1) by omega] at ih
    exact placeRegions_cons_ok (placeOne_ok h1 h2 h3) ih

/-- Pass 1 when regions i, …, j − 1 pass and region j, in range, does not: region j's error (R190, R193). -/
theorem placeRegions_error {s : State} {i j k : Nat} {e : CmdError} (hij : i ≤ j) (hjk : j < i + k)
    (h : PassFrom s i (j - i)) (he : placeOne s j (tilesBefore s j) = .error e) :
    placeRegions s (List.range' i k) (tilesBefore s i) = .error e := by
  induction k generalizing i with
  | zero => omega
  | succ k ih =>
    by_cases hi : i = j
    · rw [hi]; exact placeRegions_cons_error he
    · obtain ⟨h1, h2, h3⟩ := h i (Nat.le_refl _) (by omega)
      have ih := ih (i := i + 1) (by omega) (by omega) fun l hl1 hl2 => h l (by omega) (by omega)
      exact placeRegions_rest_error (placeOne_ok h1 h2 h3) ih

theorem tilesBefore_mono (s : State) {i j : Nat} (h : i ≤ j) : tilesBefore s i ≤ tilesBefore s j := by
  induction j, h using Nat.le_induction with
  | base => exact Nat.le_refl _
  | succ j _ ih => exact ih.trans (Nat.le_add_right _ _)

/-! ## Pass 2 -/

theorem regionTiles_length (s : State) (p : Placed) : (regionTiles s p).length = p.tiles := by
  rw [regionTiles, grid_length, Placed.tiles]

theorem regionTiles_bytes_length (s : State) (p : Placed) :
    ((regionTiles s p).flatMap packedBytes).length = 32 * p.tiles := by
  rw [flatMap_length_const _ 32 packedBytes_length, regionTiles_length]

theorem descriptor_bytes_length (p : Placed) : ((descriptor p).flatMap bytesOfWord).length = 32 := rfl

/-- The eight words of a descriptor (R196). -/
theorem descriptor_words (p : Placed) :
    ((descriptor p)[0]?).getD 0 = BitVec.ofNat 32 p.w ∧ ((descriptor p)[1]?).getD 0 = BitVec.ofNat 32 p.h ∧
    ((descriptor p)[2]?).getD 0 = BitVec.ofNat 32 p.tiles ∧ ((descriptor p)[3]?).getD 0 = 1 ∧
    ((descriptor p)[4]?).getD 0 = BitVec.ofNat 32 p.wordOffset ∧ ((descriptor p)[5]?).getD 0 = sizeCode p.w ∧
    ((descriptor p)[6]?).getD 0 = sizeCode p.h ∧ ((descriptor p)[7]?).getD 0 = 0 :=
  ⟨rfl, rfl, rfl, rfl, rfl, rfl, rfl, rfl⟩

theorem regionName_length (s : State) (i : Nat) : (regionName s i).length = 32 := by simp [regionName, Config.nameBytes]

/-- What one region's outputs leave outside its three ranges. -/
theorem memByte_emitRegion_outside {s t : State} {p : Placed} {a : Nat}
    (h1 : ¬ (0x8000 + 4 * p.wordOffset ≤ a ∧ a < 0x8000 + 4 * p.wordOffset + 32 * p.tiles))
    (h2 : ¬ (0x4000 + 32 * p.index ≤ a ∧ a < 0x4000 + 32 * p.index + 32))
    (h3 : ¬ (0x5000 + 32 * p.index ≤ a ∧ a < 0x5000 + 32 * p.index + 32)) :
    memByte (emitRegion s t p) a = memByte t a := by
  simp only [emitRegion]
  rw [memByte_storeBytes_outside (by rw [regionName_length]; exact h3),
    memByte_storeBytes_outside (by rw [descriptor_bytes_length]; exact h2),
    memByte_storeBytes_outside (by rw [regionTiles_bytes_length]; exact h1)]

/-- The outputs of many regions change the memories only. -/
theorem emitRegions_frame (s t : State) (ps : List Placed) :
    ∃ m, ps.foldl (emitRegion s) t = { t with mem := m } := by
  induction ps generalizing t with
  | nil => exact ⟨_, rfl⟩
  | cons p ps ih =>
    obtain ⟨m, h⟩ := ih (emitRegion s t p)
    exact ⟨m, by rw [List.foldl_cons, h, emitRegion]; rfl⟩

/-- The outputs of many regions leave a byte outside all their ranges alone. -/
theorem memByte_emitRegions_outside {s t : State} {ps : List Placed} {a : Nat}
    (h : ∀ p ∈ ps,
      ¬ (0x8000 + 4 * p.wordOffset ≤ a ∧ a < 0x8000 + 4 * p.wordOffset + 32 * p.tiles) ∧
      ¬ (0x4000 + 32 * p.index ≤ a ∧ a < 0x4000 + 32 * p.index + 32) ∧
      ¬ (0x5000 + 32 * p.index ≤ a ∧ a < 0x5000 + 32 * p.index + 32)) :
    memByte (ps.foldl (emitRegion s) t) a = memByte t a := by
  induction ps generalizing t with
  | nil => rfl
  | cons p ps ih =>
    rw [List.foldl_cons, ih fun q hq => h q (List.mem_cons_of_mem _ hq)]
    obtain ⟨h1, h2, h3⟩ := h p (by simp)
    exact memByte_emitRegion_outside h1 h2 h3

/-- A byte of region j's three ranges is as region j's own outputs leave it: no other region stores there (R194). -/
theorem memByte_emitAt (s t : State) {n j : Nat} (hj : j < n) (hn : n ≤ 128) (ht : tilesBefore s n ≤ 1024) :
    ∃ u, ∀ a,
      (0x8000 + 32 * tilesBefore s j ≤ a ∧ a < 0x8000 + 32 * tilesBefore s (j + 1)) ∨
        (0x4000 + 32 * j ≤ a ∧ a < 0x4000 + 32 * j + 32) ∨ (0x5000 + 32 * j ≤ a ∧ a < 0x5000 + 32 * j + 32) →
      memByte (((List.range' 0 n).map (placedAt s)).foldl (emitRegion s) t) a =
        memByte (emitRegion s u (placedAt s j)) a := by
  have hrange : List.range' 0 n = List.range' 0 (j + 1) ++ List.range' (j + 1) (n - (j + 1)) := by
    have := List.range'_append (s := 0) (m := j + 1) (n := n - (j + 1)) (step := 1)
    rw [show 0 + 1 * (j + 1) = j + 1 by omega, show j + 1 + (n - (j + 1)) = n by omega] at this
    exact this.symm
  rw [hrange, List.range'_concat, List.map_append, List.map_append, List.foldl_append, List.foldl_append]
  refine ⟨((List.range' 0 j).map (placedAt s)).foldl (emitRegion s) t, fun a ha => ?_⟩
  rw [memByte_emitRegions_outside]
  · simp
  · intro p hp
    obtain ⟨l, hl, rfl⟩ := List.mem_map.mp hp
    rw [List.mem_range'_1] at hl
    have hm := tilesBefore_mono s (show j + 1 ≤ l by omega)
    have hm' := tilesBefore_mono s (show l + 1 ≤ n by omega)
    have hm'' := tilesBefore_mono s (show j + 1 ≤ n by omega)
    have htl : tilesBefore s (l + 1) = tilesBefore s l + (placedAt s l).tiles := rfl
    have hwo : (placedAt s l).wordOffset = 8 * tilesBefore s l := rfl
    have hix : (placedAt s l).index = l := rfl
    rw [hwo, hix]
    omega

/-- NAME[i] after region i's outputs (R199). -/
theorem emitRegion_name (s u : State) {i b : Nat} (hi : i < 128) (hb : b < 32) :
    memByte (emitRegion s u (placedAt s i)) (0x5000 + 32 * i + b) = memByte s (0x2000 + 64 * i + 16 + b) := by
  have hl := regionName_length s i
  have hix : (placedAt s i).index = i := rfl
  have hn : nameAddr i = 0x5000 + 32 * i := rfl
  simp only [emitRegion, hix]
  rw [memByte_storeBytes_inside (hardZero_name (by omega) (by omega)) (by omega) (by omega)]
  have e : 0x5000 + 32 * i + b - nameAddr i = b := by omega
  simp only [e, regionName, List.getElem_map, List.getElem_range]
  rfl

/-- DESC[i]'s word k after region i's outputs (R75, R196). -/
theorem emitRegion_desc (s u : State) {i k : Nat} (hi : i < 128) (hk : k < 8) :
    memWord (emitRegion s u (placedAt s i)) (0x4000 + 32 * i + 4 * k) = ((descriptor (placedAt s i))[k]?).getD 0 := by
  have hlen := descriptor_bytes_length (placedAt s i)
  have hname := regionName_length s i
  have hd : descAddr (placedAt s i).index = 0x4000 + 32 * i := rfl
  have hn : nameAddr (placedAt s i).index = 0x5000 + 32 * i := rfl
  refine memWord_of_bytes fun c hc => ?_
  simp only [emitRegion]
  rw [memByte_storeBytes_outside (by rw [hn, show (placedAt s i).index = i from rfl]; omega)]
  by_cases hz : 28 ≤ 4 * k + c
  · have hk7 : k = 7 := by omega
    rw [memByte_hardZero (by rw [hardZero_desc (by omega) (by omega)]; exact decide_eq_true (by omega)), hk7]
    exact (show (0 : Byte) = byteOfWord 0 c by simp [byteOfWord])
  · rw [memByte_storeBytes_inside (by rw [hardZero_desc (by omega) (by omega)]; exact decide_eq_false (by omega))
      (by omega) (by omega)]
    have hg := flatMap_getElem? bytesOfWord 4 bytesOfWord_length (descriptor (placedAt s i)) k c hc
    obtain ⟨w, hw⟩ : ∃ w, (descriptor (placedAt s i))[k]? = some w := by
      rw [List.getElem?_eq_getElem (show k < (descriptor (placedAt s i)).length from hk)]
      exact ⟨_, rfl⟩
    have hv : (bytesOfWord w)[c]? = some (byteOfWord w c) := by interval_cases c <;> rfl
    rw [hw] at hg ⊢
    refine Option.some.inj ?_
    rw [← List.getElem?_eq_getElem, hd, show 0x4000 + 32 * i + 4 * k + c - (0x4000 + 32 * i) = 4 * k + c by omega, hg]
    simpa using hv

/-- Tile j of region i after region i's outputs (R195). -/
theorem emitRegion_tileWord (s u : State) {i j m : Nat} (ht : tilesBefore s (i + 1) ≤ 1024) (hi : i < 128)
    (hj : j < (regionTiles s (placedAt s i)).length) (hm : m < 8) :
    tileWord (emitRegion s u (placedAt s i)) (8 * (tilesBefore s i + j) + m) =
      (pack (regionTiles s (placedAt s i))[j])[m] := by
  have hlen := regionTiles_length s (placedAt s i)
  have htl : tilesBefore s (i + 1) = tilesBefore s i + (placedAt s i).tiles := rfl
  have hname := regionName_length s i
  have hd : descAddr (placedAt s i).index = 0x4000 + 32 * i := rfl
  have hn : nameAddr (placedAt s i).index = 0x5000 + 32 * i := rfl
  have hdl := descriptor_bytes_length (placedAt s i)
  have hbase : Config.tileBufBase = 0x8000 := rfl
  have hwo : (placedAt s i).wordOffset = 8 * tilesBefore s i := rfl
  have e : Config.tileBufBase + 4 * (8 * (tilesBefore s i + j) + m) =
      (Config.tileBufBase + 4 * (placedAt s i).wordOffset) + (32 * j + 4 * m) := by
    rw [hwo]
    omega
  rw [← memWord_storeTiles (s := u) (base := Config.tileBufBase + 4 * (placedAt s i).wordOffset) (by omega)
    (by omega) j hj m hm, tileWord, e]
  refine memWord_congr fun c hc => ?_
  simp only [emitRegion]
  rw [memByte_storeBytes_outside (by rw [hn, show (placedAt s i).index = i from rfl]; omega),
    memByte_storeBytes_outside (by rw [hd]; omega)]

/-- A region that passes its checks has non-negative fields, its dimensions below 2^31 (R192). -/
theorem pass_nonneg {s : State} {i : Nat} (h : ¬ SizeInvalid s i) (h2 : ¬ OutOfRaster s i) :
    0 ≤ regW s i ∧ 0 ≤ regH s i ∧ regW s i < 2^31 ∧ regH s i < 2^31 ∧ 0 ≤ regX s i ∧ 0 ≤ regY s i := by
  have h1 : ∀ w : Word, w.toInt < 2^31 := fun w => by have := BitVec.toInt_lt (x := w); simpa using this
  have a1 := h1 (memWord s (regionAddr i + 8)); have a2 := h1 (memWord s (regionAddr i + 12))
  have e1 : regW s i = (memWord s (regionAddr i + 8)).toInt := rfl
  have e2 : regH s i = (memWord s (regionAddr i + 12)).toInt := rfl
  rw [← e1] at a1; rw [← e2] at a2
  unfold OutOfRaster at h2
  unfold SizeInvalid at h
  generalize regW s i = w at *
  generalize regH s i = hh at *
  generalize regX s i = x at *
  generalize regY s i = y at *
  refine ⟨?_, ?_, a1, a2, ?_, ?_⟩ <;> by_contra hc
  · exact h (.inl (by omega))
  · exact h (.inr (.inl (by omega)))
  · exact h2 (.inl (by omega))
  · exact h2 (.inr (.inl (by omega)))

/-- SizeCode as a number (R197). -/
theorem sizeCode_toNat (v : Nat) :
    ((sizeCode v).toNat : Int) = if (v : Int) ≤ 8 then 0 else if (v : Int) ≤ 16 then 1 else if (v : Int) ≤ 32 then 2 else 3 := by
  unfold sizeCode
  by_cases h1 : v ≤ 8
  · rw [if_pos h1, if_pos (by omega)]; rfl
  · by_cases h2 : v ≤ 16
    · rw [if_neg h1, if_pos h2, if_neg (by omega), if_pos (by omega)]; rfl
    · by_cases h3 : v ≤ 32
      · rw [if_neg h1, if_neg h2, if_pos h3, if_neg (by omega), if_neg (by omega), if_pos (by omega)]; rfl
      · rw [if_neg h1, if_neg h2, if_neg h3, if_neg (by omega), if_neg (by omega), if_neg (by omega)]; rfl

/-- A name equals KEY when its 32 bytes do (R200). -/
theorem nameMatches_iff (s : State) (i : Nat) :
    nameMatches s i = true ↔ ∀ (b : Nat) (hb : b < 32), memByte s (0x5000 + 32 * i + b) = s.key[b] := by
  simp only [nameMatches, Config.nameBytes, List.all_eq_true, List.mem_range, beq_iff_eq]
  constructor
  · intro h b hb; have := h b hb; rw [Vector.getElem?_eq_getElem hb] at this; exact this
  · intro h b hb; rw [Vector.getElem?_eq_getElem hb]; exact h b hb

end Sys2Proof.Machine
end

