-- ==== Sys2Proof/Laws/Bus.lean ====
section
/-! SUPPORT. The bus port: which accesses are admitted, register accesses, and what a write to a window can change. -/

namespace Sys2Proof.Machine

theorem regAt_isSome_iff {a : Nat} : (regAt a).isSome = true ↔ a % 4 = 0 ∧ a < 0x05C := by
  constructor
  · intro h
    obtain ⟨r, hr⟩ := Option.isSome_iff_exists.mp h
    have := regOffset_bounds r
    rw [regAt_some hr]; omega
  · rintro ⟨h1, h2⟩
    have : ∀ k : Fin 23, (regAt (4 * k.val)).isSome = true := by decide
    have := this ⟨a / 4, by omega⟩
    simp only at this
    rwa [show 4 * (a / 4) = a by omega] at this

theorem busyAccessible_iff {a : Nat} :
    busyAccessible a = true ↔ a ∈ [0x000, 0x004, 0x008, 0x00C, 0x050, 0x054, 0x058] := by
  constructor
  · intro h
    unfold busyAccessible at h
    split at h
    · next r hr => rw [regAt_some hr]; revert h; cases r <;> decide
    · cases h
  · intro h
    simp only [List.mem_cons, List.not_mem_nil, or_false] at h
    rcases h with rfl | rfl | rfl | rfl | rfl | rfl | rfl <;> decide

/-- An access is admitted just when it is not refused. -/
theorem accessOk_iff {s : State} {w : Width} {a : Nat} (ha : a < 0x200000) : accessOk s w a = true ↔ ¬ Refused s w a := by
  have hb := @busyAccessible_iff a
  have hw : w.bytes = 1 ∨ w.bytes = 2 ∨ w.bytes = 4 := by cases w <;> simp [Width.bytes]
  have hx : s.status.busy = true ∨ s.status.busy = false := by cases s.status.busy <;> simp
  have hm : (!s.status.busy || busyAccessible a) = true ↔
      ¬ (s.status.busy = true ∧ a ∉ [0x000, 0x004, 0x008, 0x00C, 0x050, 0x054, 0x058]) := by
    rcases hx with h | h <;> simp [h, ← hb]
  have ho : a % w.bytes = 0 → (offsetMapped s w a = true ↔ ¬ (
      (a < 0x000100 ∧ (w ≠ .w32 ∨ 0x00005C ≤ a)) ∨
      (0x000180 ≤ a ∧ a < 0x000200) ∨
      (0x000260 ≤ a ∧ a < 0x000400) ∨
      (0x000900 ≤ a ∧ a < 0x002000) ∨
      (0x006000 ≤ a ∧ a < 0x008000) ∨
      (0x010000 ≤ a ∧ a < 0x020000) ∨
      (0x020000 ≤ a ∧ a < 0x040000 ∧ 0x020000 + s.rasterMaxW * s.rasterMaxH / 2 < a + w.bytes) ∨
      (0x040000 ≤ a ∧ a < 0x100000) ∨
      (0x100000 ≤ a ∧ 0x100000 + s.rasterMaxW * s.rasterMaxH * 4 < a + w.bytes))) := by
    intro hal
    have hi : s.idxBytes = s.rasterMaxW * s.rasterMaxH / 2 := rfl
    have hs : s.srcBytes = s.rasterMaxW * s.rasterMaxH * 4 := rfl
    rw [← hi, ← hs]
    rcases windowOf_cases a with ⟨h1, h2, h⟩ | ⟨h1, h2, h⟩ | ⟨h1, h2, h⟩ | ⟨h1, h2, h⟩ | ⟨h1, h2, h⟩ | ⟨h1, h2, h⟩ |
        ⟨h1, h2, h⟩ | ⟨h1, h2, h⟩ | ⟨h1, h2, h⟩ | ⟨h1, h2, h⟩ | ⟨h1, h2, h⟩ | ⟨h1, h2, h⟩ | ⟨h1, h2, h⟩ | ⟨h1, h2, h⟩ |
        ⟨h1, h2, h⟩ | ⟨h1, h2, h⟩ | ⟨h1, h2, h⟩ | ⟨h1, h2, h⟩ | ⟨h1, h2, h⟩ | ⟨h1, h⟩
    · have hr := @regAt_isSome_iff a
      cases w <;> simp [offsetMapped, h, hr, Width.bytes] at hal ⊢ <;> omega
    all_goals
      simp only [offsetMapped, h, decide_eq_true_eq, true_iff, Bool.false_eq_true, false_iff]
      try simp only [Config.idxBase, Config.srcBase]
      omega
  have hal : (a % w.bytes == 0) = true ↔ ¬ a % w.bytes ≠ 0 := by simp
  simp only [accessOk, Bool.and_eq_true, hm, Refused, hal, not_or]
  constructor
  · rintro ⟨⟨h1, h2⟩, h3⟩
    rw [ho (by simpa using h1)] at h2
    simp only [not_or] at h2
    simp only [h2, h1, h3, and_true, not_false_eq_true]
  · intro h
    have h2 := ho (by simpa using h.1)
    refine ⟨⟨h.1, h2.mpr ?_⟩, h.2.2.2.2.2.2.2.2.2.2⟩
    simp only [h, not_or, and_true, not_false_eq_true]

/-! ## Register accesses -/

/-- Is the register one the host may access while BUSY = 1? (R77) -/
def Reg.control : Reg → Bool
  | .id | .ctrl | .status | .cmd | .cfg0 | .cfg1 | .cfg2 => true
  | _ => false

theorem accessOk_reg (s : State) (r : Reg) : accessOk s .w32 (regOffset r) = (!s.status.busy || r.control) := by
  have h := regOffset_bounds r
  have hw : windowOf (regOffset r) = .registers := windowOf_eq_registers.mpr (by omega)
  rw [accessOk, offsetMapped, hw, busyAccessible, regAt_regOffset]
  simp only [Width.bytes, h.1]
  cases r <;> rfl

theorem offset_reg (r : Reg) : (BitVec.ofNat 21 (regOffset r)).toNat = regOffset r := by cases r <;> rfl

/-- A host write to a register. -/
theorem hostWrite_reg {s : State} {r : Reg} (v : Word) (h : s.status.busy = false ∨ r.control = true) :
    hostWrite .w32 (BitVec.ofNat 21 (regOffset r)) v s = answer 0 (writeReg v s r) := by
  have : accessOk s .w32 (regOffset r) = true := by
    rw [accessOk_reg]; rcases h with h | h <;> simp [h]
  rw [hostWrite, offset_reg, if_pos this, writeData, regAt_regOffset]

/-- A host read of a register. -/
theorem hostRead_reg {s : State} {r : Reg} (h : s.status.busy = false ∨ r.control = true) :
    hostRead .w32 (BitVec.ofNat 21 (regOffset r)) s = answer (readReg s r) s := by
  have : accessOk s .w32 (regOffset r) = true := by
    rw [accessOk_reg]; rcases h with h | h <;> simp [h]
  rw [hostRead, offset_reg, if_pos this, readData, regAt_regOffset]

/-! ## Writes to the windows -/

/-- What a byte write can change: the staging registers, PAL and the memories. -/
theorem writeByte_frame (s : State) (a : Nat) (b : Byte) :
    ∃ x w k p m, writeByte s a b = { s with tidx := x, tword := w, key := k, pal := p, mem := m } := by
  unfold writeByte
  split <;> exact ⟨_, _, _, _, _, rfl⟩

/-- What a write to a window can change. -/
theorem writeBytes_frame (s : State) (a : Nat) (v : Word) (n : Nat) :
    ∃ x w k p m, writeBytes s a v n = { s with tidx := x, tword := w, key := k, pal := p, mem := m } := by
  induction n with
  | zero => exact ⟨_, _, _, _, _, rfl⟩
  | succ n ih =>
    obtain ⟨x, w, k, p, m, ih⟩ := ih
    obtain ⟨x', w', k', p', m', h⟩ := writeByte_frame (writeBytes s a v n) (a + n) (byteOfWord v n)
    exact ⟨x', w', k', p', m', by rw [writeBytes, h, ih]⟩

/-- A byte write either leaves the memories alone or stores its byte in REGION, IDX or SRC RAM. -/
theorem writeByte_mem (s : State) (a : Nat) (b : Byte) :
    (writeByte s a b).mem =
      if windowOf a = .region ∨ windowOf a = .idx ∨ windowOf a = .src then memWrite s.mem a [b] else s.mem := by
  unfold writeByte
  split <;> simp_all [storeBytes]

/-- A window is a whole number of words. -/
theorem windowOf_word (a : Nat) : windowOf a = windowOf (4 * (a / 4)) := by
  have h (n : Nat) (hn : n % 4 = 0) : 4 * (a / 4) < n ↔ a < n := by omega
  simp only [windowOf, h 0x000100 rfl, h 0x000140 rfl, h 0x000160 rfl, h 0x000180 rfl, h 0x000200 rfl, h 0x000240 rfl, h 0x000260
    rfl, h 0x000400 rfl, h 0x000900 rfl, h 0x002000 rfl, h 0x004000 rfl, h 0x005000 rfl, h 0x006000 rfl, h
    0x008000 rfl, h 0x010000 rfl, h 0x020000 rfl, h 0x040000 rfl, h 0x100000 rfl, h 0x200000 rfl]

/-- An accepted write whose first byte lies in one window lies in it whole. -/
theorem windowOf_access {w : Width} {a k : Nat} (hal : a % w.bytes = 0) (hk : k < w.bytes) :
    windowOf (a + k) = windowOf a := by
  have hal4 : (a + k) / 4 = a / 4 := by cases w <;> simp [Width.bytes] at hal hk ⊢ <;> omega
  have h := windowOf_word a
  have h' := windowOf_word (a + k)
  rw [h, h', hal4]

/-- A write to read-only windows does nothing. -/
theorem writeBytes_readOnly {s : State} {w : Width} {a : Nat} {v : Word} (hal : a % w.bytes = 0)
    (hw : windowOf a = .palw ∨ windowOf a = .map ∨ windowOf a = .desc ∨ windowOf a = .name ∨ windowOf a = .tileBuf)
    (n : Nat) (hn : n ≤ w.bytes) : writeBytes s a v n = s := by
  induction n with
  | zero => rfl
  | succ n ih =>
    have := windowOf_access hal (show n < w.bytes by omega)
    rw [writeBytes, ih (by omega), writeByte, this]
    rcases hw with h | h | h | h | h <;> rw [h]

/-- A write to REGION, IDX or SRC RAM stores its bytes, least significant first. -/
theorem writeBytes_memory {s : State} {w : Width} {a : Nat} {v : Word} (hal : a % w.bytes = 0)
    (hw : windowOf a = .region ∨ windowOf a = .idx ∨ windowOf a = .src) (n : Nat) (hn : n ≤ w.bytes) :
    (writeBytes s a v n = { s with mem := (writeBytes s a v n).mem }) ∧
    ∀ b, memByte (writeBytes s a v n) b =
      if hardZero b then 0 else if a ≤ b ∧ b < a + n then byteOfWord v (b - a) else memByte s b := by
  induction n with
  | zero =>
    refine ⟨rfl, fun b => ?_⟩
    simp only [writeBytes, Nat.add_zero]
    split
    · next h => exact memByte_hardZero h
    · rw [if_neg (by omega)]
  | succ n ih =>
    obtain ⟨ih1, ih2⟩ := ih (by omega)
    have hx := windowOf_access hal (show n < w.bytes by omega)
    have hs : writeBytes s a v (n + 1) = storeBytes (writeBytes s a v n) (a + n) [byteOfWord v n] := by
      rw [writeBytes, writeByte, hx]
      rcases hw with h | h | h <;> rw [h]
    refine ⟨by rw [hs, storeBytes, ih1], fun b => ?_⟩
    rw [hs, memByte_storeBytes, ih2]
    by_cases hz : hardZero b = true
    · simp [hz]
    · by_cases h1 : b = a + n
      · subst h1; simp [hz]
      · have : ¬ (a + n ≤ b ∧ b < a + n + [byteOfWord v n].length) := by simp; omega
        rw [if_neg hz, if_neg hz, dif_neg this, if_neg hz]
        have : (a ≤ b ∧ b < a + n) ↔ (a ≤ b ∧ b < a + (n + 1)) := by omega
        simp only [this]

theorem rgbWord_toNat (c : Rgb) : (rgbWord c).toNat = c.r.toNat + 256 * c.g.toNat + 65536 * c.b.toNat := by
  rw [rgbWord, bytes_toNat]
  simp

/-- An RGB triple written as a word reads back without its top byte (R31, R69). -/
theorem rgbWord_wordRgb (v : Word) : rgbWord (wordRgb v) = (v.setWidth 24).setWidth 32 := by
  have := v.isLt
  apply BitVec.eq_of_toNat_eq
  rw [rgbWord_toNat]
  simp only [wordRgb, byteOfWord_toNat, BitVec.toNat_setWidth]
  omega

/-! ## Reads of the windows -/

/-- A read of a register's window offset that holds no register, or of a window (R62). -/
theorem hostRead_window {s : State} {w : Width} {off : Offset} (h : accessOk s w off.toNat = true)
    (hr : 0x05C ≤ off.toNat) : hostRead w off s = answer (readBytes s w.bytes off.toNat) s := by
  rw [hostRead, if_pos h, readData, regAt_none_of_ge hr]

/-- A write to a window (R62). -/
theorem hostWrite_window {s : State} {w : Width} {off : Offset} (v : Word) (h : accessOk s w off.toNat = true)
    (hr : 0x05C ≤ off.toNat) : hostWrite w off v s = answer 0 (writeBytes s off.toNat v w.bytes) := by
  rw [hostWrite, if_pos h, writeData, regAt_none_of_ge hr]

theorem readBytes_toNat (s : State) (w : Width) (a : Nat) :
    (readBytes s w.bytes a).toNat = littleEndian (readByte s) a w.bytes := by
  have h := littleEndian_lt (readByte s) a w.bytes
  rw [readBytes, BitVec.toNat_ofNat]
  refine Nat.mod_eq_of_lt (Nat.lt_of_lt_of_le h (Nat.pow_le_pow_right (by omega) ?_))
  cases w <;> simp [Width.bytes]

/-- A byte of one of the memories as the host sees it. -/
theorem readByte_memory {s : State} {a : Nat}
    (h : windowOf a = .map ∨ windowOf a = .region ∨ windowOf a = .desc ∨ windowOf a = .name ∨ windowOf a = .tileBuf ∨
      windowOf a = .idx ∨ windowOf a = .src) : readByte s a = memByte s a := by
  unfold readByte
  rcases h with h | h | h | h | h | h | h <;> rw [h]

/-- The value of bytes that are a word's, least significant first (R62). -/
theorem littleEndian_word {f : Nat → Byte} {a n : Nat} {v : Word} (h : ∀ k, k < n → f (a + k) = byteOfWord v k) :
    littleEndian f a n = v.toNat % 2 ^ (8 * n) := by
  induction n with
  | zero => simp [littleEndian, Nat.mod_one]
  | succ n ih =>
    rw [littleEndian, ih fun k hk => h k (by omega), h n (by omega), byteOfWord_toNat,
      show 8 * (n + 1) = 8 * n + 8 by omega, Nat.pow_add, Nat.mod_mul, Nat.mul_comm (2 ^ (8 * n))]

/-! ## Writes to the staging registers and PAL -/

theorem byteMask (n : Nat) : (0xFF : Word).getLsbD n = decide (n < 8) := by
  by_cases hn : n < 32
  · revert n
    decide
  · rw [BitVec.getLsbD_of_ge _ _ (by omega)]
    exact (decide_eq_false (by omega)).symm

/-- A byte of a word with one byte replaced (R62). -/
theorem setByteOfWord_byte (w : Word) (b : Byte) {k c : Nat} (hk : k < 4) (hc : c < 4) :
    byteOfWord (setByteOfWord w k b) c = if c = k then b else byteOfWord w c := by
  by_cases h : c = k
  · rw [if_pos h, h]
    ext i hi
    have e : 8 * k + i - 8 * k = i := by omega
    simp only [byteOfWord, setByteOfWord, BitVec.getElem_extractLsb', BitVec.getLsbD_or, BitVec.getLsbD_and,
      BitVec.getLsbD_not, BitVec.getLsbD_shiftLeft, BitVec.getLsbD_setWidth, byteMask, e]
    simp [hi, show 8 * k + i < 32 by omega, show i < 32 by omega]
  · rw [if_neg h]
    ext i hi
    have hlt : 8 * c + i < 32 := by omega
    simp only [byteOfWord, setByteOfWord, BitVec.getElem_extractLsb', BitVec.getLsbD_or, BitVec.getLsbD_and,
      BitVec.getLsbD_not, BitVec.getLsbD_shiftLeft, BitVec.getLsbD_setWidth, byteMask]
    rcases Nat.lt_or_gt_of_ne h with h' | h'
    · simp [show 8 * c + i < 8 * k by omega, hlt]
    · have h1 : ¬ 8 * c + i < 8 * k := by omega
      have h2 : ¬ 8 * c + i - 8 * k < 8 := by omega
      have h3 : b.getLsbD (8 * c + i - 8 * k) = false := BitVec.getLsbD_of_ge _ _ (by omega)
      simp [h1, h2, h3, hlt]

/-- A word is its four bytes. -/
theorem word_ext_bytes {v w : Word} (h : ∀ k, k < 4 → byteOfWord v k = byteOfWord w k) : v = w := by
  rw [← word_of_bytes v, ← word_of_bytes w]
  have h0 := h 0 (by omega)
  have h1 := h 1 (by omega)
  have h2 := h 2 (by omega)
  have h3 := h 3 (by omega)
  simp only [byteOfWord] at h0 h1 h2 h3
  rw [h0, h1, h2, h3]

/-- A write to TIDX keeps the low nibble of each byte (R42). -/
theorem writeBytes_tidx {s : State} {w : Width} {a : Nat} {v : Word} (hal : a % w.bytes = 0)
    (hw : windowOf a = .tidx) (n : Nat) (hn : n ≤ w.bytes) :
    ∃ x, writeBytes s a v n = { s with tidx := x } ∧
      ∀ (k : Nat) (hk : k < 64),
        x[k] = if a ≤ 0x100 + k ∧ 0x100 + k < a + n then (byteOfWord v (0x100 + k - a)).setWidth 4 else s.tidx[k] := by
  induction n with
  | zero => exact ⟨s.tidx, rfl, fun k hk => by rw [if_neg (by omega)]⟩
  | succ n ih =>
    obtain ⟨x, h1, h2⟩ := ih (by omega)
    have hx := (windowOf_access hal (show n < w.bytes by omega)).trans hw
    have hr := windowOf_eq_tidx.mp hx
    have hb : Config.tidxBase = 0x100 := rfl
    refine ⟨x.setIfInBounds (a + n - Config.tidxBase) ((byteOfWord v n).setWidth 4), ?_, fun k hk => ?_⟩
    · rw [writeBytes, h1, writeByte, hx]
    · rw [Vector.getElem_setIfInBounds, h2 k hk, hb]
      by_cases hk' : a + n - 0x100 = k
      · rw [if_pos hk', if_pos (by omega), show 0x100 + k - a = n by omega]
      · rw [if_neg hk']
        have : (a ≤ 0x100 + k ∧ 0x100 + k < a + n) ↔ (a ≤ 0x100 + k ∧ 0x100 + k < a + (n + 1)) := by omega
        simp only [this]

/-- A write to KEY stores its bytes (R42). -/
theorem writeBytes_key {s : State} {w : Width} {a : Nat} {v : Word} (hal : a % w.bytes = 0)
    (hw : windowOf a = .key) (n : Nat) (hn : n ≤ w.bytes) :
    ∃ x, writeBytes s a v n = { s with key := x } ∧
      ∀ (k : Nat) (hk : k < 32),
        x[k] = if a ≤ 0x160 + k ∧ 0x160 + k < a + n then byteOfWord v (0x160 + k - a) else s.key[k] := by
  induction n with
  | zero => exact ⟨s.key, rfl, fun k hk => by rw [if_neg (by omega)]⟩
  | succ n ih =>
    obtain ⟨x, h1, h2⟩ := ih (by omega)
    have hx := (windowOf_access hal (show n < w.bytes by omega)).trans hw
    have hr := windowOf_eq_key.mp hx
    have hb : Config.keyBase = 0x160 := rfl
    refine ⟨x.setIfInBounds (a + n - Config.keyBase) (byteOfWord v n), ?_, fun k hk => ?_⟩
    · rw [writeBytes, h1, writeByte, hx]
    · rw [Vector.getElem_setIfInBounds, h2 k hk, hb]
      by_cases hk' : a + n - 0x160 = k
      · rw [if_pos hk', if_pos (by omega), show 0x160 + k - a = n by omega]
      · rw [if_neg hk']
        have : (a ≤ 0x160 + k ∧ 0x160 + k < a + n) ↔ (a ≤ 0x160 + k ∧ 0x160 + k < a + (n + 1)) := by omega
        simp only [this]

/-- A write to TWORD stores its bytes in the words' little-endian images (R42, R62). -/
theorem writeBytes_tword {s : State} {w : Width} {a : Nat} {v : Word} (hal : a % w.bytes = 0)
    (hw : windowOf a = .tword) (n : Nat) (hn : n ≤ w.bytes) :
    ∃ x : PackedTile, writeBytes s a v n = { s with tword := x } ∧
      ∀ (j c : Nat) (hj : j < 8), c < 4 →
        byteOfWord x[j] c =
          if a ≤ 0x140 + 4 * j + c ∧ 0x140 + 4 * j + c < a + n then byteOfWord v (0x140 + 4 * j + c - a)
          else byteOfWord s.tword[j] c := by
  induction n with
  | zero => exact ⟨s.tword, rfl, fun j c hj hc => by rw [if_neg (by omega)]⟩
  | succ n ih =>
    obtain ⟨x, h1, h2⟩ := ih (by omega)
    have hx := (windowOf_access hal (show n < w.bytes by omega)).trans hw
    have hr := windowOf_eq_tword.mp hx
    have hb : Config.twordBase = 0x140 := rfl
    refine ⟨x.setIfInBounds ((a + n - Config.twordBase) / 4)
      (setByteOfWord ((x[(a + n - Config.twordBase) / 4]?).getD 0) ((a + n) % 4) (byteOfWord v n)), ?_,
      fun j c hj hc => ?_⟩
    · rw [writeBytes, h1, writeByte, hx]
    · rw [Vector.getElem_setIfInBounds, hb]
      by_cases hq : (a + n - 0x140) / 4 = j
      · rw [if_pos hq, setByteOfWord_byte _ _ (by omega) hc, hq, Vector.getElem?_eq_getElem hj, Option.getD_some,
          h2 j c hj hc]
        by_cases hc' : c = (a + n) % 4
        · rw [if_pos hc', if_pos (by omega), show 0x140 + 4 * j + c - a = n by omega]
        · rw [if_neg hc']
          have : (a ≤ 0x140 + 4 * j + c ∧ 0x140 + 4 * j + c < a + n) ↔
            (a ≤ 0x140 + 4 * j + c ∧ 0x140 + 4 * j + c < a + (n + 1)) := by omega
          simp only [this]
      · rw [if_neg hq, h2 j c hj hc]
        have : (a ≤ 0x140 + 4 * j + c ∧ 0x140 + 4 * j + c < a + n) ↔
          (a ≤ 0x140 + 4 * j + c ∧ 0x140 + 4 * j + c < a + (n + 1)) := by omega
        simp only [this]

/-- Byte c of a palette slot: R, G, B, and 0 (R69). -/
theorem rgbByte_eq (x : Rgb) {c : Nat} (hc : c < 4) :
    byteOfWord (rgbWord x) c = if c = 0 then x.r else if c = 1 then x.g else if c = 2 then x.b else 0 := by
  have h := rgbWord_toNat x
  have := x.r.isLt
  have := x.g.isLt
  have := x.b.isLt
  apply BitVec.eq_of_toNat_eq
  rw [byteOfWord_toNat, h]
  rcases (by omega : c = 0 ∨ c = 1 ∨ c = 2 ∨ c = 3) with rfl | rfl | rfl | rfl <;> simp <;> omega

theorem setRgbByte_byte (x : Rgb) (b : Byte) {k c : Nat} (hk : k < 4) (hc : c < 3) :
    byteOfWord (rgbWord (setRgbByte x k b)) c = if c = k then b else byteOfWord (rgbWord x) c := by
  rw [rgbByte_eq _ (by omega), rgbByte_eq _ (by omega)]
  rcases (by omega : k = 0 ∨ k = 1 ∨ k = 2 ∨ k = 3) with rfl | rfl | rfl | rfl <;>
    rcases (by omega : c = 0 ∨ c = 1 ∨ c = 2) with rfl | rfl | rfl <;> rfl

/-- A write to PAL stores its bytes in R, G and B; the slot's byte 3 is ignored (R69). -/
theorem writeBytes_pal {s : State} {w : Width} {a : Nat} {v : Word} (hal : a % w.bytes = 0)
    (hw : windowOf a = .pal) (n : Nat) (hn : n ≤ w.bytes) :
    ∃ x : Vector Rgb 16, writeBytes s a v n = { s with pal := x } ∧
      ∀ (j c : Nat) (hj : j < 16), c < 3 →
        byteOfWord (rgbWord x[j]) c =
          if a ≤ 0x200 + 4 * j + c ∧ 0x200 + 4 * j + c < a + n then byteOfWord v (0x200 + 4 * j + c - a)
          else byteOfWord (rgbWord s.pal[j]) c := by
  induction n with
  | zero => exact ⟨s.pal, rfl, fun j c hj hc => by rw [if_neg (by omega)]⟩
  | succ n ih =>
    obtain ⟨x, h1, h2⟩ := ih (by omega)
    have hx := (windowOf_access hal (show n < w.bytes by omega)).trans hw
    have hr := windowOf_eq_pal.mp hx
    have hb : Config.palBase = 0x200 := rfl
    refine ⟨x.setIfInBounds ((a + n - Config.palBase) / 4)
      (setRgbByte ((x[(a + n - Config.palBase) / 4]?).getD ⟨0, 0, 0⟩) ((a + n) % 4) (byteOfWord v n)), ?_,
      fun j c hj hc => ?_⟩
    · rw [writeBytes, h1, writeByte, hx]
    · rw [Vector.getElem_setIfInBounds, hb]
      by_cases hq : (a + n - 0x200) / 4 = j
      · rw [if_pos hq, setRgbByte_byte _ _ (by omega) hc, hq, Vector.getElem?_eq_getElem hj, Option.getD_some,
          h2 j c hj hc]
        by_cases hc' : c = (a + n) % 4
        · rw [if_pos hc', if_pos (by omega), show 0x200 + 4 * j + c - a = n by omega]
        · rw [if_neg hc']
          have : (a ≤ 0x200 + 4 * j + c ∧ 0x200 + 4 * j + c < a + n) ↔
            (a ≤ 0x200 + 4 * j + c ∧ 0x200 + 4 * j + c < a + (n + 1)) := by omega
          simp only [this]
      · rw [if_neg hq, h2 j c hj hc]
        have : (a ≤ 0x200 + 4 * j + c ∧ 0x200 + 4 * j + c < a + n) ↔
          (a ≤ 0x200 + 4 * j + c ∧ 0x200 + 4 * j + c < a + (n + 1)) := by omega
        simp only [this]

/-- A palette entry is its three bytes. -/
theorem rgb_ext_bytes {x y : Rgb} (h : ∀ c, c < 3 → byteOfWord (rgbWord x) c = byteOfWord (rgbWord y) c) : x = y := by
  have h0 := h 0 (by omega)
  have h1 := h 1 (by omega)
  have h2 := h 2 (by omega)
  rw [rgbByte_eq _ (by omega), rgbByte_eq _ (by omega)] at h0 h1 h2
  cases x
  cases y
  simp at h0 h1 h2
  simp [h0, h1, h2]

/-- An offset below 2 MiB is itself (R60). -/
theorem offset_toNat {a : Nat} (h : a < 0x200000) : (BitVec.ofNat 21 a).toNat = a := by
  rw [BitVec.toNat_ofNat]; exact Nat.mod_eq_of_lt h

/-- While idle, an aligned access to a window that is whole in the map is not refused (R61, R63). -/
theorem accessOk_small {s : State} (hb : s.status.busy = false) {w : Width} {a : Nat} (hal : a % w.bytes = 0)
    (h : (0x100 ≤ a ∧ a < 0x180) ∨ (0x200 ≤ a ∧ a < 0x260) ∨ (0x400 ≤ a ∧ a < 0x900) ∨
      (0x2000 ≤ a ∧ a < 0x6000) ∨ (0x8000 ≤ a ∧ a < 0x10000)) :
    accessOk s w a = true := by
  rw [accessOk_iff (by omega)]
  simp only [Refused, hb, Bool.false_eq_true, false_and, or_false]
  omega

/-- An idle host's aligned write to a register file stores its bytes (R62). -/
theorem hostWrite_small {s : State} (hb : s.status.busy = false) (w : Width) (v : Word) {a : Nat} (hal : a % w.bytes = 0)
    (h : (0x100 ≤ a ∧ a < 0x180) ∨ (0x200 ≤ a ∧ a < 0x260)) :
    hostWrite w (BitVec.ofNat 21 a) v s = answer 0 (writeBytes s a v w.bytes) := by
  have e := offset_toNat (a := a) (by omega)
  rw [hostWrite_window v (by rw [e]; exact accessOk_small hb hal (by omega)) (by rw [e]; omega), e]

/-- A read of a window that is not refused gives the little-endian value of its bytes (R62). -/
theorem hostRead_data {s : State} {w : Width} {a : Nat} (hok : accessOk s w a = true) (h0 : 0x5C ≤ a) (h1 : a < 0x200000) :
    ((hostRead w (BitVec.ofNat 21 a) s).response.map fun r => r.data.toNat) = some (littleEndian (readByte s) a w.bytes) := by
  have e := offset_toNat h1
  rw [hostRead_window (by rw [e]; exact hok) (by rw [e]; omega), e, ← readBytes_toNat]
  rfl

/-- An idle host's read of a window that is whole in the map (R62). -/
theorem hostRead_small {s : State} (hb : s.status.busy = false) {w : Width} {a : Nat} (hal : a % w.bytes = 0)
    (h : (0x100 ≤ a ∧ a < 0x180) ∨ (0x200 ≤ a ∧ a < 0x260) ∨ (0x400 ≤ a ∧ a < 0x900) ∨
      (0x2000 ≤ a ∧ a < 0x6000) ∨ (0x8000 ≤ a ∧ a < 0x10000)) :
    ((hostRead w (BitVec.ofNat 21 a) s).response.map fun r => r.data.toNat) = some (littleEndian (readByte s) a w.bytes) :=
  hostRead_data (accessOk_small hb hal h) (by omega) (by omega)

/-- While idle, an aligned access inside the physical IDX RAM is not refused (R65). -/
theorem accessOk_idx {s : State} (hb : s.status.busy = false) {w : Width} {k : Nat} (hal : k % w.bytes = 0)
    (h : k + w.bytes ≤ min 0x20000 (s.rasterMaxW * s.rasterMaxH / 2)) : accessOk s w (0x20000 + k) = true := by
  have hw : w.bytes = 1 ∨ w.bytes = 2 ∨ w.bytes = 4 := by cases w <;> simp [Width.bytes]
  rw [accessOk_iff (by omega)]
  simp only [Refused, hb, Bool.false_eq_true, false_and, or_false]
  generalize s.rasterMaxW * s.rasterMaxH = n at *
  rcases hw with hw | hw | hw <;> rw [hw] at hal h ⊢ <;> omega

/-- While idle, an aligned access inside the physical SRC RAM is not refused (R65). -/
theorem accessOk_src {s : State} (hb : s.status.busy = false) {w : Width} {k : Nat} (hal : k % w.bytes = 0)
    (h : k + w.bytes ≤ min 0x100000 (s.rasterMaxW * s.rasterMaxH * 4)) : accessOk s w (0x100000 + k) = true := by
  have hw : w.bytes = 1 ∨ w.bytes = 2 ∨ w.bytes = 4 := by cases w <;> simp [Width.bytes]
  rw [accessOk_iff (by omega)]
  simp only [Refused, hb, Bool.false_eq_true, false_and, or_false]
  generalize s.rasterMaxW * s.rasterMaxH = n at *
  rcases hw with hw | hw | hw <;> rw [hw] at hal h ⊢ <;> omega

/-! ## The bytes of the register files as the host sees them -/

theorem readByte_tidx (s : State) {b : Nat} (hb : b < 64) :
    readByte s (0x100 + b) = ((s.tidx[b]?).getD 0).setWidth 8 := by
  unfold readByte
  rw [windowOf_eq_tidx.mpr (by omega)]
  simp only [show 0x100 + b - Config.tidxBase = b from Nat.add_sub_cancel_left _ _]

theorem readByte_tword (s : State) {b : Nat} (hb : b < 32) :
    readByte s (0x140 + b) = byteOfWord ((s.tword[b / 4]?).getD 0) (b % 4) := by
  unfold readByte
  rw [windowOf_eq_tword.mpr (by omega)]
  simp only [show 0x140 + b - Config.twordBase = b from Nat.add_sub_cancel_left _ _, show (0x140 + b) % 4 = b % 4 by omega]

theorem readByte_key (s : State) {b : Nat} (hb : b < 32) : readByte s (0x160 + b) = (s.key[b]?).getD 0 := by
  unfold readByte
  rw [windowOf_eq_key.mpr (by omega)]
  simp only [show 0x160 + b - Config.keyBase = b from Nat.add_sub_cancel_left _ _]

theorem readByte_pal (s : State) {b : Nat} (hb : b < 64) :
    readByte s (0x200 + b) = byteOfWord (rgbWord ((s.pal[b / 4]?).getD ⟨0, 0, 0⟩)) (b % 4) := by
  unfold readByte
  rw [windowOf_eq_pal.mpr (by omega)]
  simp only [show 0x200 + b - Config.palBase = b from Nat.add_sub_cancel_left _ _, show (0x200 + b) % 4 = b % 4 by omega]

theorem readByte_palw (s : State) {b : Nat} (hb : b < 32) :
    readByte s (0x240 + b) = byteOfWord (((s.palw[b / 2]?).getD 0).setWidth 32) (b % 2) := by
  unfold readByte
  rw [windowOf_eq_palw.mpr (by omega)]
  simp only [show 0x240 + b - Config.palwBase = b from Nat.add_sub_cancel_left _ _, show (0x240 + b) % 2 = b % 2 by omega]

/-! ## BUSERR -/

/-- Nothing but a refusal sets BUSERR (R24, R228). -/
theorem writeReg_buserr (v : Word) (s : State) (r : Reg) (h : (writeReg v s r).status.buserr = true) :
    s.status.buserr = true := by
  cases r
  case ctrl =>
    simp only [writeReg, writeCtrl] at h
    split at h
    · cases h
    · exact h
  case status =>
    simp only [writeReg, writeStatus] at h
    split at h <;> simp_all [ackError]
  case cmd =>
    simp only [writeReg, offerCommand] at h
    split at h <;> exact h
  all_goals exact h

/-! ## The STATUS and CTRL words -/

/-- DONE and ERROR in the STATUS word (R24). -/
theorem statusWord_bits (t : Status) : (statusWord t).getLsbD 1 = t.done ∧ (statusWord t).getLsbD 2 = t.error := by
  rcases t with ⟨a,b,c,d,e⟩
  cases a <;> cases b <;> cases c <;> cases d <;> cases e <;> decide

/-- IE_DONE and IE_ERR in the CTRL word (R23). -/
theorem ctrlWord_bits (t : Ctrl) : (ctrlWord t).getLsbD 0 = t.ieDone ∧ (ctrlWord t).getLsbD 1 = t.ieErr := by
  rcases t with ⟨a,b,c⟩
  cases a <;> cases b <;> cases c <;> decide

/-- The STATUS word as a number (R24). -/
theorem statusWord_eq (t : Status) :
    statusWord t =
      BitVec.ofNat 32 ((if t.busy then 2 ^ 0 else 0) + (if t.done then 2 ^ 1 else 0) + (if t.error then 2 ^ 2 else 0) +
        (if t.cmdrej then 2 ^ 3 else 0) + (if t.buserr then 2 ^ 4 else 0)) := by
  rcases t with ⟨a, b, c, d, e⟩
  cases a <;> cases b <;> cases c <;> cases d <;> cases e <;> decide

/-- The CTRL word as a number (R23). -/
theorem ctrlWord_eq (t : Ctrl) :
    ctrlWord t =
      BitVec.ofNat 32 ((if t.ieDone then 2 ^ 0 else 0) + (if t.ieErr then 2 ^ 1 else 0) +
        (if t.strictSize then 2 ^ 2 else 0)) := by
  rcases t with ⟨a, b, c⟩
  cases a <;> cases b <;> cases c <;> decide

/-- CFG0 is its two halves (R36). -/
theorem cfg0_eq (s : State) : s.cfg0 = BitVec.ofNat 32 (s.rasterMaxW + 65536 * s.rasterMaxH) := by
  apply BitVec.eq_of_toNat_eq
  have := s.cfg0.isLt
  simp only [State.rasterMaxW, State.rasterMaxH, BitVec.extractLsb'_toNat, Nat.shiftRight_eq_div_pow, BitVec.toNat_ofNat]
  omega

/-! ## A window as the image of its bytes -/

/-- A multiple of 4 keeps an access's alignment. -/
theorem aligned_add (w : Width) {base k : Nat} (hb : base % 4 = 0) (h : k % w.bytes = 0) : (base + k) % w.bytes = 0 := by
  cases w <;> simp only [Width.bytes] at h ⊢ <;> omega

/-- Reads of every width in a window, from what its bytes are (R62). -/
theorem hostRead_image {s : State} {base size : Nat} {f : Nat → Byte} (h0 : 0x5C ≤ base) (h1 : base + size ≤ 0x200000)
    (hok : ∀ (w : Width) (k : Nat), k % w.bytes = 0 → k + w.bytes ≤ size → accessOk s w (base + k) = true)
    (hf : ∀ b, b < size → readByte s (base + b) = f b) (w : Width) (k : Nat) (hal : k % w.bytes = 0)
    (hk : k + w.bytes ≤ size) :
    ((hostRead w (BitVec.ofNat 21 (base + k)) s).response.map fun r => r.data.toNat) =
      some (littleEndian f k w.bytes) := by
  have hw : 0 < w.bytes := by cases w <;> simp [Width.bytes]
  rw [hostRead_data (hok w k hal hk) (by omega) (by omega)]
  have (n : Nat) : k + n ≤ size → littleEndian (readByte s) (base + k) n = littleEndian f k n := by
    induction n with
    | zero => intro _; rfl
    | succ n ih =>
      intro h
      simp only [littleEndian]
      rw [ih (by omega), Nat.add_assoc, hf _ (by omega)]
  rw [this _ hk]

end Sys2Proof.Machine
end

