-- ==== Sys2Proof/Laws/Encoding.lean ====
section
/-! SUPPORT. The command word's three fields as numbers, and the legal words' fields (R100-R104). -/

namespace Sys2Proof

theorem opcOf_toNat (w : Word) : (opcOf w).toNat = w.toNat / 16777216 := by
  have := w.isLt
  rw [opcOf, BitVec.extractLsb'_toNat, Nat.shiftRight_eq_div_pow]
  omega

theorem flagsOf_toNat (w : Word) : (flagsOf w).toNat = w.toNat / 65536 % 256 := by
  rw [flagsOf, BitVec.extractLsb'_toNat, Nat.shiftRight_eq_div_pow]

theorem immOf_toNat (w : Word) : (immOf w).toNat = w.toNat % 65536 := by
  rw [immOf, BitVec.extractLsb'_toNat, Nat.shiftRight_eq_div_pow]
  simp

/-- A word is its three fields (R100). -/
theorem word_ext_fields {v w : Word} (h1 : opcOf v = opcOf w) (h2 : flagsOf v = flagsOf w) (h3 : immOf v = immOf w) :
    v = w := by
  have e1 := congrArg BitVec.toNat h1
  have e2 := congrArg BitVec.toNat h2
  have e3 := congrArg BitVec.toNat h3
  simp only [opcOf_toNat, flagsOf_toNat, immOf_toNat] at e1 e2 e3
  exact BitVec.eq_of_toNat_eq (by omega)

theorem append16_toNat (hi lo : BitVec 16) : (hi ++ lo : Word).toNat = hi.toNat * 65536 + lo.toNat := by
  have h := lo.isLt
  have := BitVec.toNat_append hi lo
  rw [Nat.shiftLeft_eq, ← Nat.shiftLeft_eq, ← Nat.shiftLeft_add_eq_or_of_lt h, Nat.shiftLeft_eq] at this
  exact this

/-- The fields of a word built from its upper half and IMM16. -/
theorem fields_append16 (hi lo : BitVec 16) :
    opcOf (hi ++ lo) = hi.extractLsb' 8 8 ∧ flagsOf (hi ++ lo) = hi.extractLsb' 0 8 ∧ immOf (hi ++ lo) = lo := by
  have h1 := hi.isLt
  have h2 := lo.isLt
  refine ⟨BitVec.eq_of_toNat_eq ?_, BitVec.eq_of_toNat_eq ?_, BitVec.eq_of_toNat_eq ?_⟩
  · rw [opcOf_toNat, append16_toNat, BitVec.extractLsb'_toNat, Nat.shiftRight_eq_div_pow]
    omega
  · rw [flagsOf_toNat, append16_toNat, BitVec.extractLsb'_toNat, Nat.shiftRight_eq_div_pow]
    omega
  · rw [immOf_toNat, append16_toNat]
    omega

theorem opcOf_and (v w : Word) : opcOf (v &&& w) = opcOf v &&& opcOf w := by
  simp [opcOf, BitVec.extractLsb'_and]

theorem flagsOf_and (v w : Word) : flagsOf (v &&& w) = flagsOf v &&& flagsOf w := by
  simp [flagsOf, BitVec.extractLsb'_and]

theorem immOf_and (v w : Word) : immOf (v &&& w) = immOf v &&& immOf w := by
  simp [immOf, BitVec.extractLsb'_and]

/-- A word meets a match/mask pair just when each field does. -/
theorem match_iff_fields (w m p : Word) :
    w &&& m = p ↔ opcOf w &&& opcOf m = opcOf p ∧ flagsOf w &&& flagsOf m = flagsOf p ∧ immOf w &&& immOf m = immOf p := by
  rw [← opcOf_and, ← flagsOf_and, ← immOf_and]
  exact ⟨fun h => by simp [h], fun ⟨h1, h2, h3⟩ => word_ext_fields h1 h2 h3⟩

/-- FLAGS with FLAGS[7:1] = 0 is 0 or 1 (R102). -/
theorem flags_and_fe (f : BitVec 8) : f &&& 0xFE = 0 ↔ f = 0 ∨ f = 1 := by
  revert f; decide +kernel

/-- The legal words by their fields (R104, R105). -/
theorem isLegalWord_iff (w : Word) :
    isLegalWord w = true ↔
      ((opcOf w = 0x01 ∨ opcOf w = 0x06) ∧ (flagsOf w = 0 ∨ flagsOf w = 1) ∧ immOf w = 0) ∨
      ((opcOf w = 0x04 ∨ opcOf w = 0x05) ∧ flagsOf w = 0) ∨
      ((opcOf w = 0x02 ∨ opcOf w = 0x03 ∨ opcOf w = 0x07 ∨ opcOf w = 0x08) ∧ flagsOf w = 0 ∧ immOf w = 0) := by
  have hff : ∀ b : BitVec 8, b &&& 0xFF = b := by decide +kernel
  have hffff : ∀ h : BitVec 16, h &&& 0xFFFF = h := fun h => BitVec.and_allOnes
  have hz : ∀ h : BitVec 16, (h &&& 0 = 0) = True := fun h => by simp
  have field (p m : Word) (om fm op fp : BitVec 8) (im ip : BitVec 16)
      (h : opcOf m = om ∧ flagsOf m = fm ∧ immOf m = im ∧ opcOf p = op ∧ flagsOf p = fp ∧ immOf p = ip) :
      (w &&& m = p) = (opcOf w &&& om = op ∧ flagsOf w &&& fm = fp ∧ immOf w &&& im = ip) := by
    obtain ⟨rfl, rfl, rfl, rfl, rfl, rfl⟩ := h
    exact propext (match_iff_fields w m p)
  simp only [isLegalWord, legalPatterns, List.any_cons, List.any_nil, Bool.or_false, Bool.or_eq_true, beq_iff_eq]
  rw [field 0x01000000 0xFFFEFFFF 0xFF 0xFE 0x01 0 0xFFFF 0 (by decide +kernel),
    field 0x02000000 0xFFFFFFFF 0xFF 0xFF 0x02 0 0xFFFF 0 (by decide +kernel),
    field 0x03000000 0xFFFFFFFF 0xFF 0xFF 0x03 0 0xFFFF 0 (by decide +kernel),
    field 0x04000000 0xFFFF0000 0xFF 0xFF 0x04 0 0 0 (by decide +kernel),
    field 0x05000000 0xFFFF0000 0xFF 0xFF 0x05 0 0 0 (by decide +kernel),
    field 0x06000000 0xFFFEFFFF 0xFF 0xFE 0x06 0 0xFFFF 0 (by decide +kernel),
    field 0x07000000 0xFFFFFFFF 0xFF 0xFF 0x07 0 0xFFFF 0 (by decide +kernel),
    field 0x08000000 0xFFFFFFFF 0xFF 0xFF 0x08 0 0xFFFF 0 (by decide +kernel)]
  simp only [hff, hffff, hz, flags_and_fe]
  generalize opcOf w = o, flagsOf w = f, immOf w = m
  clear hff hffff hz field
  by_cases hm : m = 0 <;> by_cases h0 : f = 0 <;> by_cases h1 : f = 1 <;> simp [hm, h0, h1] <;> tauto

/-! ## The decoder, by opcode (R113) -/

theorem decodeWord_opc1 {w : Word} (h : opcOf w = 0x01) : decodeWord w = flaggedCommand w .quantBg .quantAtlas := by
  simp [decodeWord, h]

theorem decodeWord_opc2 {w : Word} (h : opcOf w = 0x02) : decodeWord w = plainCommand w .encpal := by
  simp [decodeWord, h]

theorem decodeWord_opc3 {w : Word} (h : opcOf w = 0x03) : decodeWord w = plainCommand w .encrgb := by
  simp [decodeWord, h]

theorem decodeWord_opc4 {w : Word} (h : opcOf w = 0x04) : decodeWord w = lengthCommand w .tpack := by
  simp [decodeWord, h]

theorem decodeWord_opc5 {w : Word} (h : opcOf w = 0x05) : decodeWord w = lengthCommand w .tunpack := by
  simp [decodeWord, h]

theorem decodeWord_opc6 {w : Word} (h : opcOf w = 0x06) : decodeWord w = flaggedCommand w .bgtile .bgtileRemap := by
  simp [decodeWord, h]

theorem decodeWord_opc7 {w : Word} (h : opcOf w = 0x07) : decodeWord w = plainCommand w .atlas := by
  simp [decodeWord, h]

theorem decodeWord_opc8 {w : Word} (h : opcOf w = 0x08) : decodeWord w = plainCommand w .find := by
  simp [decodeWord, h]

/-- Any other OPC is illegal (R106). -/
theorem decodeWord_other {w : Word} (h1 : opcOf w ≠ 0x01) (h2 : opcOf w ≠ 0x02) (h3 : opcOf w ≠ 0x03)
    (h4 : opcOf w ≠ 0x04) (h5 : opcOf w ≠ 0x05) (h6 : opcOf w ≠ 0x06) (h7 : opcOf w ≠ 0x07) (h8 : opcOf w ≠ 0x08) :
    decodeWord w = .illegal w := by
  simp only [decodeWord]
  rw [if_neg h1, if_neg h2, if_neg h3, if_neg h4, if_neg h5, if_neg h6, if_neg h7, if_neg h8]

/-- A flagged command's three outcomes (R102). -/
theorem flaggedCommand_cases (w : Word) (i0 i1 : Instr) :
    (immOf w = 0 ∧ flagsOf w = 0 ∧ flaggedCommand w i0 i1 = i0) ∨
    (immOf w = 0 ∧ flagsOf w = 1 ∧ flaggedCommand w i0 i1 = i1) ∨
    (¬ (immOf w = 0 ∧ (flagsOf w = 0 ∨ flagsOf w = 1)) ∧ flaggedCommand w i0 i1 = .illegal w) := by
  unfold flaggedCommand
  by_cases hm : immOf w = 0
  · by_cases h0 : flagsOf w = 0
    · exact .inl ⟨hm, h0, by simp [hm, h0]⟩
    · by_cases h1 : flagsOf w = 1
      · exact .inr (.inl ⟨hm, h1, by simp [hm, h1]⟩)
      · exact .inr (.inr ⟨by tauto, by rw [if_neg (not_not_intro hm), if_neg h0, if_neg h1]⟩)
  · exact .inr (.inr ⟨by tauto, if_pos hm⟩)

theorem plainCommand_cases (w : Word) (i : Instr) :
    (flagsOf w = 0 ∧ immOf w = 0 ∧ plainCommand w i = i) ∨
    (¬ (flagsOf w = 0 ∧ immOf w = 0) ∧ plainCommand w i = .illegal w) := by
  unfold plainCommand
  split <;> simp_all

theorem lengthCommand_cases (w : Word) (i : BitVec 16 → Instr) :
    (flagsOf w = 0 ∧ lengthCommand w i = i (immOf w)) ∨ (flagsOf w ≠ 0 ∧ lengthCommand w i = .illegal w) := by
  unfold lengthCommand
  split <;> simp_all

/-- Every word's fields and what it decodes to (R104-R106, R113). -/
theorem decodeWord_cases (w : Word) :
    (opcOf w = 0x01 ∧ flagsOf w = 0 ∧ immOf w = 0 ∧ decodeWord w = .quantBg) ∨
    (opcOf w = 0x01 ∧ flagsOf w = 1 ∧ immOf w = 0 ∧ decodeWord w = .quantAtlas) ∨
    (opcOf w = 0x02 ∧ flagsOf w = 0 ∧ immOf w = 0 ∧ decodeWord w = .encpal) ∨
    (opcOf w = 0x03 ∧ flagsOf w = 0 ∧ immOf w = 0 ∧ decodeWord w = .encrgb) ∨
    (opcOf w = 0x04 ∧ flagsOf w = 0 ∧ decodeWord w = .tpack (immOf w)) ∨
    (opcOf w = 0x05 ∧ flagsOf w = 0 ∧ decodeWord w = .tunpack (immOf w)) ∨
    (opcOf w = 0x06 ∧ flagsOf w = 0 ∧ immOf w = 0 ∧ decodeWord w = .bgtile) ∨
    (opcOf w = 0x06 ∧ flagsOf w = 1 ∧ immOf w = 0 ∧ decodeWord w = .bgtileRemap) ∨
    (opcOf w = 0x07 ∧ flagsOf w = 0 ∧ immOf w = 0 ∧ decodeWord w = .atlas) ∨
    (opcOf w = 0x08 ∧ flagsOf w = 0 ∧ immOf w = 0 ∧ decodeWord w = .find) ∨
    (isLegalWord w = false ∧ decodeWord w = .illegal w) := by
  have hno : ¬ isLegalWord w = true → isLegalWord w = false := by simp
  have hl := isLegalWord_iff w
  by_cases h1 : opcOf w = 0x01
  · rw [decodeWord_opc1 h1]
    rcases flaggedCommand_cases w .quantBg .quantAtlas with ⟨hm, hf, hd⟩ | ⟨hm, hf, hd⟩ | ⟨hn, hd⟩
    · simp [h1, hm, hf, hd]
    · simp [h1, hm, hf, hd]
    · have : isLegalWord w = false := hno (by rw [hl]; simp [h1]; tauto)
      simp [this, hd]
  by_cases h6 : opcOf w = 0x06
  · rw [decodeWord_opc6 h6]
    rcases flaggedCommand_cases w .bgtile .bgtileRemap with ⟨hm, hf, hd⟩ | ⟨hm, hf, hd⟩ | ⟨hn, hd⟩
    · simp [h6, hm, hf, hd]
    · simp [h6, hm, hf, hd]
    · have : isLegalWord w = false := hno (by rw [hl]; simp [h6]; tauto)
      simp [this, hd]
  by_cases h4 : opcOf w = 0x04
  · rw [decodeWord_opc4 h4]
    rcases lengthCommand_cases w .tpack with ⟨hf, hd⟩ | ⟨hn, hd⟩
    · simp [h4, hf, hd]
    · have : isLegalWord w = false := hno (by rw [hl]; simp [h4]; tauto)
      simp [this, hd]
  by_cases h5 : opcOf w = 0x05
  · rw [decodeWord_opc5 h5]
    rcases lengthCommand_cases w .tunpack with ⟨hf, hd⟩ | ⟨hn, hd⟩
    · simp [h5, hf, hd]
    · have : isLegalWord w = false := hno (by rw [hl]; simp [h5]; tauto)
      simp [this, hd]
  by_cases h2 : opcOf w = 0x02
  · rw [decodeWord_opc2 h2]
    rcases plainCommand_cases w .encpal with ⟨hf, hm, hd⟩ | ⟨hn, hd⟩
    · simp [h2, hf, hm, hd]
    · have : isLegalWord w = false := hno (by rw [hl]; simp [h2]; tauto)
      simp [this, hd]
  by_cases h3 : opcOf w = 0x03
  · rw [decodeWord_opc3 h3]
    rcases plainCommand_cases w .encrgb with ⟨hf, hm, hd⟩ | ⟨hn, hd⟩
    · simp [h3, hf, hm, hd]
    · have : isLegalWord w = false := hno (by rw [hl]; simp [h3]; tauto)
      simp [this, hd]
  by_cases h7 : opcOf w = 0x07
  · rw [decodeWord_opc7 h7]
    rcases plainCommand_cases w .atlas with ⟨hf, hm, hd⟩ | ⟨hn, hd⟩
    · simp [h7, hf, hm, hd]
    · have : isLegalWord w = false := hno (by rw [hl]; simp [h7]; tauto)
      simp [this, hd]
  by_cases h8 : opcOf w = 0x08
  · rw [decodeWord_opc8 h8]
    rcases plainCommand_cases w .find with ⟨hf, hm, hd⟩ | ⟨hn, hd⟩
    · simp [h8, hf, hm, hd]
    · have : isLegalWord w = false := hno (by rw [hl]; simp [h8]; tauto)
      simp [this, hd]
  have : isLegalWord w = false := hno (by rw [hl]; simp_all)
  rw [decodeWord_other h1 h2 h3 h4 h5 h6 h7 h8]
  simp [this]

/-- The command words' fields (R104). -/
theorem tpack_fields (len : BitVec 16) :
    opcOf (encode (.tpack len)) = 0x04 ∧ flagsOf (encode (.tpack len)) = 0 ∧ immOf (encode (.tpack len)) = len := by
  obtain ⟨h1, h2, h3⟩ := fields_append16 0x0400 len
  exact ⟨h1.trans (by decide), h2.trans (by decide), h3⟩

theorem tunpack_fields (len : BitVec 16) :
    opcOf (encode (.tunpack len)) = 0x05 ∧ flagsOf (encode (.tunpack len)) = 0 ∧ immOf (encode (.tunpack len)) = len := by
  obtain ⟨h1, h2, h3⟩ := fields_append16 0x0500 len
  exact ⟨h1.trans (by decide), h2.trans (by decide), h3⟩

end Sys2Proof
end

