-- ==== Sys2Proof/Laws/Exec.lean ====
section
/-! SUPPORT. What a command can do: each meaning as its checks and its writes, one lemma for each shared operation, and
the inversion of a whole execution. -/

namespace Sys2Proof.Machine

/-- The checks and writes of a command, before the engine step is finished (R40, R113). -/
def commandBody : Instr → State → Except CmdError State
  | .quantBg, s => quantize Config.canvasW Config.canvasH s
  | .quantAtlas, s => quantize s.rasterMaxW s.rasterMaxH s
  | .encpal, s => .ok { s with palw := s.pal.map encodeRgb }
  | .encrgb, s => .ok { s with result := (encodeRgb s.arg0).setWidth 32 }
  | .tpack len, s => if len = 64 then .ok { s with tword := pack s.tidx } else .error (tileSizeError len 64)
  | .tunpack len, s => if len = 32 then .ok { s with tidx := unpack s.tword } else .error (tileSizeError len 32)
  | .bgtile, s => backgroundTiles false s
  | .bgtileRemap, s => backgroundTiles true s
  | .atlas, s => packAtlas s
  | .find, s =>
    .ok { s with result := match findName s with | some i => BitVec.ofNat 32 i | none => Config.allOnes }
  | .illegal w, _ => .error ⟨.illegalCommand, Config.allOnes, w, 0⟩

theorem exec_eq_finish (i : Instr) (s : State) : exec i s = finish s (commandBody i s) := by cases i <;> rfl

/-- A command either completes with its writes or raises one error; it never stops the machine (R40, R220). -/
theorem exec_cases (i : Instr) (s : State) :
    (∃ t, commandBody i s = .ok t ∧ exec i s = .next (completeOk t)) ∨
      ∃ e, commandBody i s = .error e ∧ exec i s = .next (raiseError e s) := by
  rw [exec_eq_finish]
  cases h : commandBody i s with
  | ok t => exact .inl ⟨t, rfl, rfl⟩
  | error e => exact .inr ⟨e, rfl, rfl⟩

theorem exec_of_ok {i : Instr} {s t : State} (h : commandBody i s = .ok t) : exec i s = .next (completeOk t) := by
  rw [exec_eq_finish, h]; rfl

theorem exec_of_error {i : Instr} {s : State} {e : CmdError} (h : commandBody i s = .error e) :
    exec i s = .next (raiseError e s) := by
  rw [exec_eq_finish, h]; rfl

/-- An error leaves the error state (R224). -/
theorem raiseError_eq (e : CmdError) (s : State) :
    raiseError e s = errorState s (errCodeOf e.kind) e.arg0 e.arg1 e.arg2 := rfl

theorem exec_next (i : Instr) (s : State) : ∃ t, exec i s = .next t := by
  rcases exec_cases i s with ⟨t, _, h⟩ | ⟨e, _, h⟩ <;> exact ⟨_, h⟩

/-! ## Geometry -/

theorem rasterOk_iff (s : State) (maxW maxH : Nat) : rasterOk s maxW maxH = true ↔ RasterOk s maxW maxH := by
  simp only [rasterOk, RasterOk, Bool.not_eq_true', Bool.or_eq_false_iff, beq_eq_false_iff_ne, bne_eq_false_iff_eq,
    decide_eq_false_iff_not]
  omega

theorem backgroundOk_iff (s : State) : backgroundOk s = true ↔ BackgroundOk s := by
  simp only [backgroundOk, BackgroundOk, Bool.not_eq_true', Bool.or_eq_false_iff, beq_eq_false_iff_ne,
    bne_eq_false_iff_eq, decide_eq_false_iff_not]
  simp only [Config.mapWMax, Config.mapHMax]
  omega

/-- A raster within the bounds holds at most as many pixels as the IDX window (R9, R44). -/
theorem pixels_le_of_cfg {s : State} (hc : CfgValid s) (h : RasterOk s s.rasterMaxW s.rasterMaxH) :
    s.imgW.toNat * s.imgH.toNat ≤ s.rasterMaxW * s.rasterMaxH ∧ s.imgW.toNat * s.imgH.toNat ≤ 0x40000 := by
  obtain ⟨_, _, _, _, h1, h2⟩ := h
  have := Nat.mul_le_mul h1 h2
  exact ⟨this, this.trans hc.2.2.2.2.2.2⟩

theorem pixels_le_canvas {s : State} (h : RasterOk s 256 160) : s.imgW.toNat * s.imgH.toNat ≤ 40960 := by
  obtain ⟨_, _, _, _, h1, h2⟩ := h
  exact (Nat.mul_le_mul h1 h2).trans (by norm_num)

/-- BGTILE's raster: at most 256 × 160 pixels in at most 640 blocks (R170). -/
theorem background_bounds {s : State} (h : BackgroundOk s) :
    s.imgW.toNat * s.imgH.toNat ≤ 40960 ∧ blockCount s ≤ 640 ∧ s.mapW.toNat * s.mapH.toNat ≤ 640 ∧
      s.imgH.toNat / 8 = s.mapH.toNat ∧ s.imgW.toNat / 8 ≤ s.mapW.toNat ∧ 1 ≤ s.imgW.toNat / 8 := by
  obtain ⟨h1, h2, h3, h4, h5, h6, h7, h8⟩ := h
  have hw : s.imgW.toNat ≤ 256 := by omega
  have hh : s.imgH.toNat ≤ 160 := by omega
  have hb : s.imgW.toNat / 8 ≤ 32 := by omega
  have hb' : s.imgH.toNat / 8 ≤ 20 := by omega
  exact ⟨(Nat.mul_le_mul hw hh).trans (by norm_num), (Nat.mul_le_mul hb hb').trans (by norm_num),
    (Nat.mul_le_mul h2 h4).trans (by norm_num), by omega, by omega, by omega⟩

/-! ## QUANT -/

theorem qfn_bounds (w h : Nat) (pix : List Rgba) : 1 ≤ (qfn w h pix).n ∧ (qfn w h pix).n ≤ 16 := by
  simp only [qfn]
  omega

/-- A source pixel's word gives its four bytes (R67). -/
theorem srcPixel_bytes (s : State) (p : Nat) :
    srcPixel s p = ⟨memByte s (Config.srcBase + 4 * p), memByte s (Config.srcBase + 4 * p + 1),
      memByte s (Config.srcBase + 4 * p + 2), memByte s (Config.srcBase + 4 * p + 3)⟩ := by
  have hb := byteOfWord_memWord s (Config.srcBase + 4 * p)
  exact congr (congr (congr (congrArg _ (hb 0 (by omega))) (hb 1 (by omega))) (hb 2 (by omega))) (hb 3 (by omega))

theorem srcPixels_eq (s : State) :
    (List.range (s.imgW.toNat * s.imgH.toNat)).map (srcPixel s) = rasterPixels s := by
  simp only [rasterPixels]
  exact List.map_congr_left fun p _ => srcPixel_bytes s p

end Sys2Proof.Machine
end

