-- ==== Sys2Proof/Laws/Frames.lean ====
section
/-! SUPPORT. What a completing command can change: its fields, and the ranges of memory it stores to (R109). -/

namespace Sys2Proof.Machine

/-! ## Each command's body, once its checks pass -/

theorem quantize_ok {s t : State} {maxW maxH : Nat} (h : quantize maxW maxH s = .ok t) :
    RasterOk s maxW maxH ∧
      let q := qfn s.imgW.toNat s.imgH.toNat (rasterPixels s)
      t = { setNibs s q.idx (s.imgW.toNat * s.imgH.toNat) with pal := q.pal, palCount := BitVec.ofNat 5 q.n } := by
  unfold quantize at h
  split at h
  · next hr =>
    refine ⟨(rasterOk_iff _ _ _).mp hr, ?_⟩
    rw [← srcPixels_eq]
    cases h
    rfl
  · cases h

theorem backgroundTiles_ok {r : Bool} {s t : State} (h : backgroundTiles r s = .ok t) :
    BackgroundOk s ∧ t = tileBackground (if r then remap s else s) := by
  unfold backgroundTiles at h
  split at h
  · next hr =>
    cases h
    exact ⟨(backgroundOk_iff _).mp hr, rfl⟩
  · cases h

/-- QUANT's effect on a legal raster (R130, R131). -/
theorem quantize_of_ok {s : State} {maxW maxH : Nat} (h : RasterOk s maxW maxH) :
    quantize maxW maxH s =
      let q := qfn s.imgW.toNat s.imgH.toNat (rasterPixels s)
      .ok { setNibs s q.idx (s.imgW.toNat * s.imgH.toNat) with pal := q.pal, palCount := BitVec.ofNat 5 q.n } := by
  rw [← srcPixels_eq]
  exact if_pos ((rasterOk_iff _ _ _).mpr h)

theorem quantize_of_bad {s : State} {maxW maxH : Nat} (h : ¬ RasterOk s maxW maxH) :
    quantize maxW maxH s = .error (geometryError .invalidGeometry s) :=
  if_neg fun hr => h ((rasterOk_iff _ _ _).mp hr)

theorem backgroundTiles_of_ok {r : Bool} {s : State} (h : BackgroundOk s) :
    backgroundTiles r s = .ok (tileBackground (if r then remap s else s)) :=
  if_pos ((backgroundOk_iff _).mpr h)

theorem backgroundTiles_of_bad {r : Bool} {s : State} (h : ¬ BackgroundOk s) :
    backgroundTiles r s = .error (geometryError .geometryOutOfBounds s) :=
  if_neg fun hr => h ((backgroundOk_iff _).mp hr)

/-- ATLAS completes just when the raster, the count and every region pass, and then pass 2 is done (R190). -/
theorem packAtlas_ok {s t : State} (h : packAtlas s = .ok t) :
    AtlasInputsOk s ∧ ∃ ps total, placeRegions s (List.range s.regionCount.toNat) 0 = .ok (ps, total) ∧
      t = emitAtlas s ps total := by
  unfold packAtlas at h
  simp only at h
  split at h
  · cases h
  · next hr =>
    split at h
    · cases h
    · next hn =>
      simp only [Bool.not_eq_true', Bool.not_eq_false] at hr
      obtain ⟨h1, h2, h3, h4, h5, h6⟩ := (rasterOk_iff _ _ _).mp hr
      refine ⟨⟨h1, h2, h3, h4, h5, h6, Nat.not_lt.mp hn⟩, ?_⟩
      cases hp : placeRegions s (List.range s.regionCount.toNat) 0 with
      | error e => rw [hp] at h; cases h
      | ok r => rw [hp] at h; cases h; exact ⟨r.1, r.2, rfl, rfl⟩

/-- Pass 1 succeeds only when every region passes (R190). -/
theorem placeRegions_inv {s : State} {i k : Nat} {r : List Placed × Nat}
    (h : placeRegions s (List.range' i k) (tilesBefore s i) = .ok r) : PassFrom s i k := by
  induction k generalizing i r with
  | zero => exact fun j h1 h2 => by omega
  | succ k ih =>
    rw [List.range'_succ] at h
    by_cases hp : ¬ SizeInvalid s i ∧ ¬ OutOfRaster s i ∧ tilesBefore s (i + 1) ≤ 1024
    · obtain ⟨h1, h2, h3⟩ := hp
      rw [placeRegions, placeOne_ok h1 h2 h3] at h
      have h : (placeRegions s (List.range' (i + 1) k) (tilesBefore s (i + 1))).map _ = .ok r := h
      cases hr : placeRegions s (List.range' (i + 1) k) (tilesBefore s (i + 1)) with
      | error e => rw [hr] at h; cases h
      | ok q =>
        intro j hj1 hj2
        by_cases hj : j = i
        · exact hj ▸ ⟨h1, h2, h3⟩
        · exact ih hr j (by omega) (by omega)
    · exfalso
      have he : ∃ e, placeOne s i (tilesBefore s i) = .error e := by
        rw [placeOne_eq]
        by_cases h1 : SizeInvalid s i
        · exact ⟨_, if_pos h1⟩
        · by_cases h2 : OutOfRaster s i
          · exact ⟨_, by simp only [if_neg h1, if_pos h2]; rfl⟩
          · have h3 : 1024 < tilesBefore s (i + 1) := Nat.lt_of_not_le fun h3 => hp ⟨h1, h2, h3⟩
            exact ⟨_, by simp only [if_neg h1, if_neg h2]; exact if_pos h3⟩
      obtain ⟨e, he⟩ := he
      rw [placeRegions_cons_error he] at h
      cases h

/-- What ATLAS leaves, by the raster and the records alone (R190). -/
theorem packAtlas_eq {s t : State} (h : packAtlas s = .ok t) :
    AtlasInputsOk s ∧ RegionsPass s s.regionCount.toNat ∧
      t = emitAtlas s ((List.range' 0 s.regionCount.toNat).map (placedAt s)) (tilesBefore s s.regionCount.toNat) := by
  obtain ⟨hi, ps, total, hp, ht⟩ := packAtlas_ok h
  rw [List.range_eq_range'] at hp
  have hp : placeRegions s (List.range' 0 s.regionCount.toNat) (tilesBefore s 0) = .ok (ps, total) := hp
  have hpass := placeRegions_inv hp
  rw [placeRegions_ok hpass, Nat.zero_add] at hp
  cases hp
  exact ⟨hi, fun i h => hpass i (Nat.zero_le _) (by omega), ht⟩

/-- ATLAS completes when every check passes (R190). -/
theorem packAtlas_of_pass {s : State} (hi : AtlasInputsOk s) (hp : RegionsPass s s.regionCount.toNat) :
    packAtlas s =
      .ok (emitAtlas s ((List.range' 0 s.regionCount.toNat).map (placedAt s)) (tilesBefore s s.regionCount.toNat)) := by
  obtain ⟨h1, h2, h3, h4, h5, h6, h7⟩ := hi
  have hr := (rasterOk_iff s s.rasterMaxW s.rasterMaxH).mpr ⟨h1, h2, h3, h4, h5, h6⟩
  have hpass : PassFrom s 0 s.regionCount.toNat := fun j _ hj => hp j (by omega)
  have ho := placeRegions_ok hpass
  rw [Nat.zero_add] at ho
  rw [← List.range_eq_range', show tilesBefore s 0 = 0 from rfl] at ho
  have hn : ¬ Config.regionMax < s.regionCount.toNat := Nat.not_lt.mpr h7
  simp only [packAtlas, hr, Bool.not_true, Bool.false_eq_true, if_false, if_neg hn, ho, Except.map]
  rw [List.range_eq_range']

/-- The first failing region's error is ATLAS's (R190). -/
theorem packAtlas_of_fail {s : State} {j : Nat} {e : CmdError} (hi : AtlasInputsOk s) (hj : j < s.regionCount.toNat)
    (hp : RegionsPass s j) (he : placeOne s j (tilesBefore s j) = .error e) : packAtlas s = .error e := by
  obtain ⟨h1, h2, h3, h4, h5, h6, h7⟩ := hi
  have hr := (rasterOk_iff s s.rasterMaxW s.rasterMaxH).mpr ⟨h1, h2, h3, h4, h5, h6⟩
  have ho := placeRegions_error (i := 0) (k := s.regionCount.toNat) (Nat.zero_le _) (by omega)
    (fun l _ hl => hp l (by omega)) he
  rw [← List.range_eq_range', show tilesBefore s 0 = 0 from rfl] at ho
  have hn : ¬ Config.regionMax < s.regionCount.toNat := Nat.not_lt.mpr h7
  simp only [packAtlas, hr, Bool.not_true, Bool.false_eq_true, if_false, if_neg hn, ho, Except.map]

/-! ## Fields -/

theorem tileBackground_eq (s : State) :
    tileBackground s =
      { s with
        mem := (writeTileSet (buildMap s (dedup s).blocks) (dedup s).tiles).mem
        cam := (dedup s).cam
        tileCount := BitVec.ofNat 16 (dedup s).tiles.length
        wordCount := BitVec.ofNat 16 (8 * (dedup s).tiles.length)
        mapCount := BitVec.ofNat 16 (s.mapW.toNat * s.mapH.toNat) } := rfl

theorem remap_frame (s : State) : ∃ m p, remap s = { s with mem := m, pal := p } := by
  by_cases h : px s 0 0 = 0
  · exact ⟨s.mem, s.pal, by simp only [remap, h, if_true]⟩
  · exact ⟨_, _, by simp only [remap, h, if_false, setNibs, storeBytes]; rfl⟩

/-- The geometry is as it was after the remap. -/
theorem remap_background {s : State} (h : BackgroundOk s) : BackgroundOk (remap s) := by
  obtain ⟨m, p, hr⟩ := remap_frame s
  rw [hr]
  exact h

theorem emitAtlas_eq (s : State) (ps : List Placed) (total : Nat) :
    emitAtlas s ps total =
      { s with
        mem := (ps.foldl (emitRegion s) s).mem
        tileCount := BitVec.ofNat 16 total
        wordCount := BitVec.ofNat 16 (8 * total)
        nameCount := s.regionCount } := by
  obtain ⟨m, h⟩ := emitRegions_frame s s ps
  rw [emitAtlas, h]

/-- The fields a completing command can change (R109). -/
theorem commandBody_frame {i : Instr} {s t : State} (h : commandBody i s = .ok t) :
    ∃ result palCount tileCount wordCount mapCount nameCount cam tidx tword pal palw mem,
      t = { s with
        result := result, palCount := palCount, tileCount := tileCount, wordCount := wordCount
        mapCount := mapCount, nameCount := nameCount, cam := cam, tidx := tidx, tword := tword
        pal := pal, palw := palw, mem := mem } := by
  cases i with
  | quantBg =>
    obtain ⟨-, h⟩ := quantize_ok h
    exact ⟨_, _, _, _, _, _, _, _, _, _, _, _, h⟩
  | quantAtlas =>
    obtain ⟨-, h⟩ := quantize_ok h
    exact ⟨_, _, _, _, _, _, _, _, _, _, _, _, h⟩
  | encpal => cases h; exact ⟨_, _, _, _, _, _, _, _, _, _, _, _, rfl⟩
  | encrgb => cases h; exact ⟨_, _, _, _, _, _, _, _, _, _, _, _, rfl⟩
  | tpack len =>
    simp only [commandBody] at h
    split at h
    · cases h; exact ⟨_, _, _, _, _, _, _, _, _, _, _, _, rfl⟩
    · cases h
  | tunpack len =>
    simp only [commandBody] at h
    split at h
    · cases h; exact ⟨_, _, _, _, _, _, _, _, _, _, _, _, rfl⟩
    · cases h
  | bgtile =>
    obtain ⟨-, h⟩ := backgroundTiles_ok h
    simp only [Bool.false_eq_true, if_false, tileBackground_eq] at h
    exact ⟨_, _, _, _, _, _, _, _, _, _, _, _, h⟩
  | bgtileRemap =>
    obtain ⟨-, h⟩ := backgroundTiles_ok h
    obtain ⟨m, p, hr⟩ := remap_frame s
    simp only [if_true, tileBackground_eq, hr] at h
    exact ⟨_, _, _, _, _, _, _, _, _, _, _, _, h⟩
  | atlas =>
    obtain ⟨-, -, h⟩ := packAtlas_eq h
    rw [emitAtlas_eq] at h
    exact ⟨_, _, _, _, _, _, _, _, _, _, _, _, h⟩
  | find => cases h; exact ⟨_, _, _, _, _, _, _, _, _, _, _, _, rfl⟩
  | illegal w => cases h

/-! ## Errors -/

/-- The error kinds each command can raise (R222). -/
def mayRaise : Instr → List ErrKind
  | .quantBg => [.invalidGeometry]
  | .quantAtlas => [.invalidGeometry]
  | .encpal => []
  | .encrgb => []
  | .tpack _ => [.invalidTileSize]
  | .tunpack _ => [.invalidTileSize]
  | .bgtile => [.geometryOutOfBounds]
  | .bgtileRemap => [.geometryOutOfBounds]
  | .atlas => [.invalidGeometry, .capacityExceeded, .regionSizeInvalid, .regionOutOfBounds]
  | .find => []
  | .illegal _ => [.illegalCommand]

theorem placeOne_error {s : State} {i t : Nat} {e : CmdError} (h : placeOne s i t = .error e) :
    e.kind ∈ [ErrKind.capacityExceeded, .regionSizeInvalid, .regionOutOfBounds] := by
  simp only [placeOne, checkRegion_eq] at h
  by_cases h1 : SizeInvalid s i
  · simp only [if_pos h1, unlessError] at h; cases h; simp
  · by_cases h2 : OutOfRaster s i
    · simp only [if_neg h1, if_pos h2, unlessError] at h; cases h; simp
    · simp only [if_neg h1, if_neg h2, unlessError, placeWithin] at h
      split at h <;> cases h; simp

theorem placeRegions_error_kind {s : State} {l : List Nat} {t : Nat} {e : CmdError}
    (h : placeRegions s l t = .error e) :
    e.kind ∈ [ErrKind.capacityExceeded, .regionSizeInvalid, .regionOutOfBounds] := by
  induction l generalizing t with
  | nil => cases h
  | cons i rest ih =>
    rw [placeRegions] at h
    cases hp : placeOne s i t with
    | error e' => rw [hp] at h; cases h; exact placeOne_error hp
    | ok q =>
      rw [hp] at h
      have h : (placeRegions s rest q.2).map _ = .error e := h
      cases hr : placeRegions s rest q.2 with
      | error e' => rw [hr] at h; cases h; exact ih hr
      | ok r => rw [hr] at h; cases h

/-- A command raises only the errors R222 lists for it. -/
theorem commandBody_error_kind {i : Instr} {s : State} {e : CmdError} (h : commandBody i s = .error e) :
    e.kind ∈ mayRaise i := by
  cases i <;> simp only [commandBody, quantize, backgroundTiles, packAtlas] at h <;> rw [mayRaise]
  case atlas =>
    split at h
    · cases h; exact List.mem_cons_self
    · split at h
      · cases h; exact List.mem_cons_of_mem _ List.mem_cons_self
      · cases hp : placeRegions s (List.range s.regionCount.toNat) 0 with
        | error e' => rw [hp] at h; cases h; exact List.mem_cons_of_mem _ (placeRegions_error_kind hp)
        | ok r => rw [hp] at h; cases h
  all_goals (try split at h) <;> cases h <;> exact List.mem_cons_self

/-! ## Memory -/

/-- The ranges of the memories a completing command stores to, as (first offset, length). -/
def storedRanges (i : Instr) (s : State) : List (Nat × Nat) :=
  let raster := (Config.idxBase, (s.imgW.toNat * s.imgH.toNat + 1) / 2)
  let map := (Config.mapBase, 2 * (s.mapW.toNat * s.mapH.toNat))
  match i with
  | .quantBg => [raster]
  | .quantAtlas => [raster]
  | .encpal => []
  | .encrgb => []
  | .tpack _ => []
  | .tunpack _ => []
  | .bgtile => [map, (Config.tileBufBase, 32 * (dedup s).tiles.length)]
  | .bgtileRemap => [raster, map, (Config.tileBufBase, 32 * (dedup (remap s)).tiles.length)]
  | .atlas =>
    [(Config.tileBufBase, 32 * tilesBefore s s.regionCount.toNat), (Config.descBase, 32 * s.regionCount.toNat),
      (Config.nameBase, 32 * s.regionCount.toNat)]
  | .find => []
  | .illegal _ => []

/-- A store of n bytes at base lies in one of the ranges. -/
def StoreIn (ranges : List (Nat × Nat)) (base n : Nat) : Prop := ∃ r ∈ ranges, r.1 ≤ base ∧ base + n ≤ r.1 + r.2

theorem mapEntries_bytes_length (s : State) (l : List (BitVec 10)) :
    ((mapEntries s l).flatMap bytesOfHalf).length = 2 * (s.mapW.toNat * s.mapH.toNat) := by
  rw [flatMap_length_const _ 2 bytesOfHalf_length, mapEntries_length]

/-- A property of memories that stores in the two ranges keep is kept by the tiling. -/
theorem tileBackground_mem {P : Memory → Prop} {s : State} (h : P s.mem)
    (hw : ∀ m base bs, P m →
      StoreIn [(Config.mapBase, 2 * (s.mapW.toNat * s.mapH.toNat)),
        (Config.tileBufBase, 32 * (dedup s).tiles.length)] base bs.length → P (memWrite m base bs)) :
    P (tileBackground s).mem := by
  rw [tileBackground_eq]
  refine hw _ _ _ (hw _ _ _ h ⟨_, List.mem_cons_self, Nat.le_refl _, ?_⟩)
    ⟨_, List.mem_cons_of_mem _ List.mem_cons_self, Nat.le_refl _, ?_⟩
  · rw [mapEntries_bytes_length]
  · rw [flatMap_length_const _ 32 packedBytes_length]

/-- A property of memories that stores in the raster keep is kept by the remap. -/
theorem remap_mem {P : Memory → Prop} {s : State} (h : P s.mem)
    (hw : ∀ m base bs, P m →
      StoreIn [(Config.idxBase, (s.imgW.toNat * s.imgH.toNat + 1) / 2)] base bs.length → P (memWrite m base bs)) :
    P (remap s).mem := by
  by_cases h0 : px s 0 0 = 0
  · simp only [remap, h0, if_true]
    exact h
  · simp only [remap, h0, if_false]
    exact hw _ _ _ h ⟨_, List.mem_cons_self, Nat.le_refl _, by rw [nibBytes_length]⟩

/-- A property of memories that stores in the three ranges keep is kept by pass 2. -/
theorem emitAtlas_mem {P : Memory → Prop} {s : State} {n : Nat} (h : P s.mem)
    (hw : ∀ m base bs, P m →
      StoreIn [(Config.tileBufBase, 32 * tilesBefore s n), (Config.descBase, 32 * n), (Config.nameBase, 32 * n)]
        base bs.length → P (memWrite m base bs)) (total : Nat) :
    P (emitAtlas s ((List.range' 0 n).map (placedAt s)) total).mem := by
  rw [emitAtlas_eq]
  have key (ps : List Nat) (hps : ∀ i ∈ ps, i < n) (t : State) (ht : P t.mem) :
      P ((ps.map (placedAt s)).foldl (emitRegion s) t).mem := by
    induction ps generalizing t with
    | nil => exact ht
    | cons i ps ih =>
      refine ih (fun j hj => hps j (List.mem_cons_of_mem _ hj)) _ ?_
      have hi := hps i List.mem_cons_self
      have hm := tilesBefore_mono s (show i + 1 ≤ n by omega)
      have ht' : tilesBefore s (i + 1) = tilesBefore s i + (placedAt s i).tiles := rfl
      have hwo : (placedAt s i).wordOffset = 8 * tilesBefore s i := rfl
      have hix : (placedAt s i).index = i := rfl
      refine hw _ _ _ (hw _ _ _ (hw _ _ _ ht ⟨_, List.mem_cons_self, ?_⟩)
        ⟨_, List.mem_cons_of_mem _ List.mem_cons_self, ?_⟩)
        ⟨_, List.mem_cons_of_mem _ (List.mem_cons_of_mem _ List.mem_cons_self), ?_⟩
      · rw [regionTiles_bytes_length, hwo]; dsimp only; omega
      · rw [descriptor_bytes_length, hix, descAddr]; dsimp only; omega
      · rw [regionName_length, hix, nameAddr]; dsimp only; omega
  exact key _ (fun i hi => by rw [List.mem_range'_1] at hi; omega) s h

/-- A property of memories that stores in the command's ranges keep is kept by the command. -/
theorem commandBody_mem {P : Memory → Prop} {i : Instr} {s t : State} (hb : commandBody i s = .ok t) (h : P s.mem)
    (hw : ∀ m base bs, P m → StoreIn (storedRanges i s) base bs.length → P (memWrite m base bs)) : P t.mem := by
  have hq (maxW maxH : Nat) (hr : storedRanges i s = [(Config.idxBase, (s.imgW.toNat * s.imgH.toNat + 1) / 2)])
      (hb : quantize maxW maxH s = .ok t) : P t.mem := by
    obtain ⟨-, rfl⟩ := quantize_ok hb
    exact hw _ _ _ h ⟨_, by rw [hr]; exact List.mem_cons_self, Nat.le_refl _, by rw [nibBytes_length]⟩
  cases i with
  | quantBg => exact hq _ _ rfl hb
  | quantAtlas => exact hq _ _ rfl hb
  | encpal => cases hb; exact h
  | encrgb => cases hb; exact h
  | tpack len =>
    simp only [commandBody] at hb
    split at hb
    · cases hb; exact h
    · cases hb
  | tunpack len =>
    simp only [commandBody] at hb
    split at hb
    · cases hb; exact h
    · cases hb
  | bgtile =>
    obtain ⟨-, rfl⟩ := backgroundTiles_ok hb
    exact tileBackground_mem h hw
  | bgtileRemap =>
    obtain ⟨-, rfl⟩ := backgroundTiles_ok hb
    obtain ⟨m, p, hr⟩ := remap_frame s
    have hmap : (remap s).mapW = s.mapW ∧ (remap s).mapH = s.mapH := by rw [hr]; exact ⟨rfl, rfl⟩
    refine tileBackground_mem (remap_mem h fun m base bs hm hs => hw m base bs hm ?_) fun m base bs hm hs =>
      hw m base bs hm ?_
    · obtain ⟨r, hr, hin⟩ := hs
      rw [List.mem_singleton] at hr
      exact ⟨r, by rw [hr]; exact List.mem_cons_self, hin⟩
    · obtain ⟨r, hr, hin⟩ := hs
      rw [if_pos rfl, hmap.1, hmap.2] at hr
      exact ⟨r, List.mem_cons_of_mem _ hr, hin⟩
  | atlas =>
    obtain ⟨-, -, rfl⟩ := packAtlas_eq hb
    exact emitAtlas_mem h hw _
  | find => cases hb; exact h
  | illegal w => cases hb

/-- A store outside of which a byte lies leaves it alone. -/
theorem memByte_memWrite_outside {s : State} {m : Memory} {base : Nat} {bs : List Byte} {a : Nat}
    (h : ¬ (base ≤ a ∧ a < base + bs.length)) :
    memByte { s with mem := memWrite m base bs } a = memByte { s with mem := m } a :=
  memByte_storeBytes_outside (s := { s with mem := m }) h

/-- The tile set holds between one and 641 tiles (R170, R172). -/
theorem dedup_tiles_length {s : State} (h : BackgroundOk s) :
    1 ≤ (dedup s).tiles.length ∧ (dedup s).tiles.length ≤ 641 := by
  have hw := dedup_walked s
  have h1 := hw.short
  have h2 := (background_bounds h).2.1
  rw [rasterBlocks_length] at h1
  rw [hw.tiles, List.length_cons]
  omega

theorem tilesBefore_le {s : State} {n : Nat} (h : RegionsPass s n) : tilesBefore s n ≤ 1024 := by
  cases n with
  | zero => exact Nat.zero_le _
  | succ n => exact (h n (Nat.lt_succ_self n)).2.2

/-- The physical IDX RAM holds exactly the largest raster's pixels, two a byte (R9, R44). -/
theorem idxBytes_even {s : State} (hc : CfgValid s) : 2 * s.idxBytes = s.rasterMaxW * s.rasterMaxH := by
  have h := Nat.mul_mod s.rasterMaxW s.rasterMaxH 8
  rw [hc.1, Nat.zero_mul, Nat.zero_mod] at h
  have : s.idxBytes = s.rasterMaxW * s.rasterMaxH / 2 := rfl
  omega

/-- A completing command stores inside its "writes" column (R109). -/
theorem storedRanges_writable {i : Instr} {s t : State} (hc : CfgValid s) (hb : commandBody i s = .ok t) :
    ∀ r ∈ storedRanges i s, ∃ q ∈ writableRanges s i, q.1 ≤ r.1 ∧ r.1 + r.2 ≤ q.1 + q.2 := by
  have hidx := idxBytes_even hc
  have hbytes (h : s.imgW.toNat * s.imgH.toNat ≤ s.rasterMaxW * s.rasterMaxH) :
      (s.imgW.toNat * s.imgH.toNat + 1) / 2 ≤ rasterBytes s := by
    rw [rasterBytes, Nat.min_eq_left (by omega)]
  have h40 : 40960 ≤ s.rasterMaxW * s.rasterMaxH := Nat.mul_le_mul hc.2.2.1 hc.2.2.2.1
  cases i with
  | quantBg =>
    obtain ⟨hr, -⟩ := quantize_ok hb
    have := pixels_le_canvas hr
    simpa [storedRanges, writableRanges] using hbytes (by omega)
  | quantAtlas =>
    obtain ⟨hr, -⟩ := quantize_ok hb
    simpa [storedRanges, writableRanges] using hbytes (pixels_le_of_cfg hc hr).1
  | bgtile =>
    obtain ⟨hg, -⟩ := backgroundTiles_ok hb
    have h1 := background_bounds hg
    have h2 := dedup_tiles_length hg
    simp only [storedRanges, writableRanges, List.mem_cons, List.not_mem_nil, or_false]
    rintro r (rfl | rfl)
    · exact ⟨(Config.mapBase, 0x500), .inr rfl, Nat.le_refl _, by dsimp only; omega⟩
    · exact ⟨(Config.tileBufBase, 0x8000), .inl rfl, Nat.le_refl _, by dsimp only; omega⟩
  | bgtileRemap =>
    obtain ⟨hg, -⟩ := backgroundTiles_ok hb
    have h1 := background_bounds hg
    have h2 := dedup_tiles_length (remap_background hg)
    simp only [storedRanges, writableRanges, List.mem_cons, List.not_mem_nil, or_false]
    rintro r (rfl | rfl | rfl)
    · exact ⟨(Config.idxBase, 0x20000), .inr (.inr rfl), Nat.le_refl _, by dsimp only; omega⟩
    · exact ⟨(Config.mapBase, 0x500), .inr (.inl rfl), Nat.le_refl _, by dsimp only; omega⟩
    · exact ⟨(Config.tileBufBase, 0x8000), .inl rfl, Nat.le_refl _, by dsimp only; omega⟩
  | atlas =>
    obtain ⟨hi, hp, -⟩ := packAtlas_eq hb
    have hn := hi.2.2.2.2.2.2
    have ht := tilesBefore_le hp
    simp only [storedRanges, writableRanges, List.mem_cons, List.not_mem_nil, or_false]
    rintro r (rfl | rfl | rfl)
    · exact ⟨(Config.tileBufBase, 0x8000), .inl rfl, Nat.le_refl _, by dsimp only; omega⟩
    · exact ⟨(Config.descBase, 0x1000), .inr (.inl rfl), Nat.le_refl _, by dsimp only; omega⟩
    · exact ⟨(Config.nameBase, 0x1000), .inr (.inr rfl), Nat.le_refl _, by dsimp only; omega⟩
  | _ => simp [storedRanges]

/-- The physical memories depend on CFG0 alone (R44). -/
theorem ramByte_congr {s t : State} (h : t.cfg0 = s.cfg0) (a : Nat) : ramByte t a = ramByte s a := by
  have h1 : t.idxBytes = s.idxBytes := by simp only [State.idxBytes, State.rasterMaxW, State.rasterMaxH, h]
  have h2 : t.srcBytes = s.srcBytes := by simp only [State.srcBytes, State.rasterMaxW, State.rasterMaxH, h]
  unfold ramByte
  rw [h1, h2]

/-- A completing command stores inside the physical memories (R44, R65). -/
theorem storedRanges_inRam {i : Instr} {s t : State} (hc : CfgValid s) (hb : commandBody i s = .ok t) {r : Nat × Nat}
    (hr : r ∈ storedRanges i s) {a : Nat} (h1 : r.1 ≤ a) (h2 : a < r.1 + r.2) : ramByte s a = true := by
  have hidx := idxBytes_even hc
  have h40 : 40960 ≤ s.rasterMaxW * s.rasterMaxH := Nat.mul_le_mul hc.2.2.1 hc.2.2.2.1
  have hmax := hc.2.2.2.2.2.2
  have ridx (h : s.imgW.toNat * s.imgH.toNat ≤ s.rasterMaxW * s.rasterMaxH)
      (hr : r = (Config.idxBase, (s.imgW.toNat * s.imgH.toNat + 1) / 2)) : ramByte s a = true := by
    have e1 : r.1 = 0x20000 := by rw [hr]; rfl
    have e2 : r.2 = (s.imgW.toNat * s.imgH.toNat + 1) / 2 := by rw [hr]
    rw [ramByte, windowOf_eq_idx.mpr ⟨by omega, by omega⟩]
    have : Config.idxBase = 0x20000 := rfl
    exact decide_eq_true (by omega)
  have rmap (h : s.mapW.toNat * s.mapH.toNat ≤ 640)
      (hr : r = (Config.mapBase, 2 * (s.mapW.toNat * s.mapH.toNat))) : ramByte s a = true := by
    have e1 : r.1 = 0x400 := by rw [hr]; rfl
    have e2 : r.2 = 2 * (s.mapW.toNat * s.mapH.toNat) := by rw [hr]
    rw [ramByte, windowOf_eq_map.mpr ⟨by omega, by omega⟩]
  have rtile (n : Nat) (h : n ≤ 1024) (hr : r = (Config.tileBufBase, 32 * n)) : ramByte s a = true := by
    have e1 : r.1 = 0x8000 := by rw [hr]; rfl
    have e2 : r.2 = 32 * n := by rw [hr]
    rw [ramByte, windowOf_eq_tileBuf.mpr ⟨by omega, by omega⟩]
  cases i with
  | quantBg =>
    obtain ⟨hg, -⟩ := quantize_ok hb
    have := pixels_le_canvas hg
    exact ridx (by omega) (List.mem_singleton.mp hr)
  | quantAtlas =>
    obtain ⟨hg, -⟩ := quantize_ok hb
    exact ridx (pixels_le_of_cfg hc hg).1 (List.mem_singleton.mp hr)
  | bgtile =>
    obtain ⟨hg, -⟩ := backgroundTiles_ok hb
    have hl := dedup_tiles_length hg
    simp only [storedRanges, List.mem_cons, List.not_mem_nil, or_false] at hr
    rcases hr with hr | hr
    · exact rmap (background_bounds hg).2.2.1 hr
    · exact rtile _ (by omega) hr
  | bgtileRemap =>
    obtain ⟨hg, -⟩ := backgroundTiles_ok hb
    have hl := dedup_tiles_length (remap_background hg)
    have := (background_bounds hg).1
    simp only [storedRanges, List.mem_cons, List.not_mem_nil, or_false] at hr
    rcases hr with hr | hr | hr
    · exact ridx (by omega) hr
    · exact rmap (background_bounds hg).2.2.1 hr
    · exact rtile _ (by omega) hr
  | atlas =>
    obtain ⟨hi, hp, -⟩ := packAtlas_eq hb
    have hn := hi.2.2.2.2.2.2
    simp only [storedRanges, List.mem_cons, List.not_mem_nil, or_false] at hr
    rcases hr with hr | hr | hr
    · exact rtile _ (tilesBefore_le hp) hr
    · have e1 : r.1 = 0x4000 := by rw [hr]; rfl
      have e2 : r.2 = 32 * s.regionCount.toNat := by rw [hr]
      rw [ramByte, windowOf_eq_desc.mpr ⟨by omega, by omega⟩]
    · have e1 : r.1 = 0x5000 := by rw [hr]; rfl
      have e2 : r.2 = 32 * s.regionCount.toNat := by rw [hr]
      rw [ramByte, windowOf_eq_name.mpr ⟨by omega, by omega⟩]
  | _ => simp [storedRanges] at hr

/-- A completing command leaves every byte outside its ranges alone. -/
theorem commandBody_memSame {i : Instr} {s t : State} (hb : commandBody i s = .ok t) :
    MemSameOutside s t (storedRanges i s) := by
  intro a ha
  obtain ⟨_, _, _, _, _, _, _, _, _, _, _, mem, ht⟩ := commandBody_frame hb
  have key : memByte { s with mem := t.mem } a = memByte s a :=
    commandBody_mem (P := fun m => memByte { s with mem := m } a = memByte s a) hb rfl fun m base bs hm hs => by
      obtain ⟨r, hr, h1, h2⟩ := hs
      have := ha r hr
      rw [memByte_memWrite_outside (by omega), hm]
  have he : t.epochs = s.epochs := by rw [ht]
  rw [← key]
  exact memByte_congr (s := { s with mem := t.mem }) (t := t) rfl he a

/-! ## What the tiling leaves in MAP and TILE_BUF -/

/-- Tile k of TILE_BUF after the tiling (R175). -/
theorem tileBackground_tileAt {s : State} (h : BackgroundOk s) (k : Nat) (hk : k < (dedup s).tiles.length) :
    tileAt (tileBackground s) k = (dedup s).tiles[k] := by
  have hl := dedup_tiles_length h
  have hw (j : Nat) (hj : j < 8) : tileWord (tileBackground s) (8 * k + j) = (pack (dedup s).tiles[k])[j] := by
    have e : Config.tileBufBase + 4 * (8 * k + j) = 0x8000 + (32 * k + 4 * j) := by
      rw [show Config.tileBufBase = 0x8000 from rfl]
      omega
    rw [← memWord_storeTiles (s := buildMap s (dedup s).blocks) (base := 0x8000) (tiles := (dedup s).tiles)
      (Nat.le_refl _) (by omega) k hk j hj, tileWord, e]
    exact memWord_congr fun b _ => memByte_congr rfl rfl _
  rw [tileAt, ← unpack_pack (dedup s).tiles[k]]
  congr 1
  ext j hj
  simp [hw j hj]

/-- MAP's entry at row r, column c after the tiling (R174). -/
theorem tileBackground_mapAt {s : State} (h : BackgroundOk s) {r c : Nat} (hr : r < s.mapH.toNat)
    (hc : c < s.mapW.toNat) :
    mapAt (tileBackground s) (r * s.mapW.toNat + c) = mapEntry (dedup s).blocks (s.imgW.toNat / 8) r c := by
  have hb := background_bounds h
  have hlen := mapEntries_length s (dedup s).blocks
  have he : r * s.mapW.toNat + c < s.mapW.toNat * s.mapH.toNat := by
    have := Nat.mul_le_mul_left s.mapW.toNat (show r + 1 ≤ s.mapH.toNat by omega)
    rw [Nat.mul_add, Nat.mul_comm _ r] at this
    omega
  have hget := mapEntries_get s (dedup s).blocks r c hr hc
  rw [Nat.mul_comm s.mapW.toNat r] at hget
  obtain ⟨hlt, hget⟩ := List.getElem?_eq_some_iff.mp hget
  rw [← hget, ← memHalf_storeHalves (s := s) (base := 0x400) (Nat.le_refl _) (by omega) _ hlt]
  refine congrArg (BitVec.ofNat 16) (littleEndian_congr fun k hk => ?_)
  have hbase : Config.mapBase = 0x400 := rfl
  have htile : Config.tileBufBase = 0x8000 := rfl
  exact (memByte_congr rfl rfl _).trans (memByte_storeBytes_outside (s := buildMap s (dedup s).blocks)
    (base := Config.tileBufBase) (bs := (dedup s).tiles.flatMap packedBytes) (by omega))

/-- After an ATLAS that passes, region i's tiles, descriptor and name are as its own emission left them (R190). -/
theorem atlas_bytes {s t : State} {i : Nat} (hi : AtlasInputsOk s) (hp : RegionsPass s s.regionCount.toNat)
    (hex : exec .atlas s = .next t)
    (hin : i < s.regionCount.toNat) : tilesBefore s (i+1) ≤ 1024 ∧ i < 128 ∧ 
    ∃ u, ∀ a, (0x8000 + 32 * tilesBefore s i ≤ a ∧ a < 0x8000 + 32 * tilesBefore s (i + 1)) ∨
      (0x4000 + 32 * i ≤ a ∧ a < 0x4000 + 32 * i + 32) ∨ (0x5000 + 32 * i ≤ a ∧ a < 0x5000 + 32 * i + 32) →
     memByte t a = memByte (emitRegion s u (placedAt s i)) a := by
  have hok := packAtlas_of_pass hi hp
  have ht := tilesBefore_le hp
  have hn := hi.2.2.2.2.2.2
  rw [exec_of_ok (i := .atlas) hok] at hex
  cases hex
  have hm := tilesBefore_mono s (show i + 1 ≤ _ from hin)
  refine ⟨by omega, by omega, ?_⟩
  obtain ⟨u, hu⟩ := memByte_emitAt s s hin hn ht
  refine ⟨u, fun a ha => ?_⟩
  rw [← hu a ha]
  obtain ⟨m, h⟩ := emitRegions_frame s s ((List.range' 0 s.regionCount.toNat).map (placedAt s))
  have : (((List.range' 0 s.regionCount.toNat).map (placedAt s)).foldl (emitRegion s) s).epochs = s.epochs := by rw [h]
  refine memByte_congr ?_ ?_ a
  · rw [emitAtlas_eq]; rfl
  · rw [emitAtlas_eq, this]; rfl

end Sys2Proof.Machine
end

