-- ==== Sys2Proof/Laws/PerInstr.lean ====
section
/-! SUPPORT. Statements made for all instructions, one lemma per constructor: which well-formed instructions encode to
a word of the opcode map. -/

namespace Sys2Proof.Laws.LegalWord

/-- A well-formed instruction's word is one of the opcode map's exactly when the instruction is not the illegal row
(R104, R106). -/
def Statement (i : Instr) : Prop :=
  i.wellFormed = true → (isLegalWord (encode i) = true ↔ ∀ w, i ≠ .illegal w)

theorem quantBg : Statement .quantBg := fun _ => ⟨nofun, fun _ => by decide +kernel⟩

theorem quantAtlas : Statement .quantAtlas := fun _ => ⟨nofun, fun _ => by decide +kernel⟩

theorem encpal : Statement .encpal := fun _ => ⟨nofun, fun _ => by decide +kernel⟩

theorem encrgb : Statement .encrgb := fun _ => ⟨nofun, fun _ => by decide +kernel⟩

theorem tpack (len : BitVec 16) : Statement (.tpack len) := fun _ =>
  ⟨nofun, fun _ =>
    have ⟨h1, h2, _⟩ := tpack_fields len
    (isLegalWord_iff _).mpr (.inr (.inl ⟨.inl h1, h2⟩))⟩

theorem tunpack (len : BitVec 16) : Statement (.tunpack len) := fun _ =>
  ⟨nofun, fun _ =>
    have ⟨h1, h2, _⟩ := tunpack_fields len
    (isLegalWord_iff _).mpr (.inr (.inl ⟨.inr h1, h2⟩))⟩

theorem bgtile : Statement .bgtile := fun _ => ⟨nofun, fun _ => by decide +kernel⟩

theorem bgtileRemap : Statement .bgtileRemap := fun _ => ⟨nofun, fun _ => by decide +kernel⟩

theorem atlas : Statement .atlas := fun _ => ⟨nofun, fun _ => by decide +kernel⟩

theorem find : Statement .find := fun _ => ⟨nofun, fun _ => by decide +kernel⟩

theorem illegal (w : BitVec 32) : Statement (.illegal w) := fun h => by
  have hw : isLegalWord w = false := by simpa [Instr.wellFormed] using h
  simp [encode, hw]

end Sys2Proof.Laws.LegalWord
end

