-- ==== Sys2Proof/Laws/Reset.lean ====
section
/-! SUPPORT. What an aborted command and the two resets can change (R250-R255). -/

namespace Sys2Proof.Machine

/-- What a command's unspecified outputs can change. -/
theorem drawOutputs_frame (i : Instr) (n : Nat) (s : State) :
    ∃ x w p q m e,
      drawOutputs i n s = { s with tidx := x, tword := w, pal := p, palw := q, mem := m, epochs := e } := by
  cases i <;> simp only [drawOutputs, drawQuantOutputs, drawTileBuf, drawMap, drawIdx, drawDesc, drawName, setNibs,
    storeBytes] <;> exact ⟨_, _, _, _, _, _, rfl⟩

/-- What a soft reset leaves: the registers at their reset values, and everything else as the abort leaves it. -/
theorem softReset_eq (s : State) : softReset s = registersReset (abortCommand s) := rfl

/-- With no command pending nothing is aborted. -/
theorem abortCommand_idle {s : State} (h : s.status.busy = false) : abortCommand s = s := by
  simp [abortCommand, pendingCommand, h]

/-- The abort of a pending command. -/
theorem abortCommand_busy {s : State} (h : s.status.busy = true) :
    abortCommand s = { drawOutputs (decodeWord s.cmd) s.draws s with draws := s.draws + 1 } := by
  simp [abortCommand, pendingCommand, h]

/-- What the abort can change. -/
theorem abortCommand_frame (s : State) :
    ∃ x w p q m e d, s.draws ≤ d ∧
      abortCommand s = { s with tidx := x, tword := w, pal := p, palw := q, mem := m, epochs := e, draws := d } := by
  cases h : s.status.busy
  · exact ⟨s.tidx, s.tword, s.pal, s.palw, s.mem, s.epochs, s.draws, Nat.le_refl _, abortCommand_idle h⟩
  · obtain ⟨x, w, p, q, m, e, hd⟩ := drawOutputs_frame (decodeWord s.cmd) s.draws s
    exact ⟨x, w, p, q, m, e, s.draws + 1, Nat.le_succ _, by rw [abortCommand_busy h, hd]⟩

/-- The memory after an abort is made by memory writes and fresh draws alone: a property of memories that both keep. -/
theorem drawOutputs_mem {i : Instr} {n : Nat} {s : State} {P : Memory → Prop} (h : P s.mem)
    (hw : ∀ f, P (setNibs s f (quantPixels s)).mem) (hf : ∀ m win, P m → P (memForget m win)) :
    P (drawOutputs i n s).mem := by
  cases i <;> simp only [drawOutputs, drawQuantOutputs, drawTileBuf, drawMap, drawIdx, drawDesc, drawName]
  case quantBg => exact hw (drawNib n)
  case quantAtlas => exact hw (drawNib n)
  case bgtile => exact hf _ _ (hf _ _ h)
  case bgtileRemap => exact hf _ _ (hf _ _ (hf _ _ h))
  case atlas => exact hf _ _ (hf _ _ (hf _ _ h))
  all_goals exact h

/-- A fresh draw of one window leaves the bytes of every other window alone (R255). -/
theorem memByte_draw_outside {s t : State} {win : Window} {a : Nat} (hw : windowOf a ≠ win)
    (hm : t.mem = memForget s.mem win) (he : windowOf a ≠ win → epochOf t.epochs a = epochOf s.epochs a) :
    memByte t a = memByte s a := memByte_forget_outside hm (he hw) hw

theorem memByte_drawTileBuf {s : State} {n a : Nat} (h : ¬ (0x8000 ≤ a ∧ a < 0x10000)) :
    memByte (drawTileBuf n s) a = memByte s a :=
  memByte_draw_outside (win := .tileBuf) (fun h' => h (windowOf_eq_tileBuf.mp h')) rfl
    fun _ => by unfold epochOf; split <;> first | rfl | contradiction

theorem memByte_drawMap {s : State} {n a : Nat} (h : ¬ (0x400 ≤ a ∧ a < 0x900)) :
    memByte (drawMap n s) a = memByte s a :=
  memByte_draw_outside (win := .map) (fun h' => h (windowOf_eq_map.mp h')) rfl
    fun _ => by unfold epochOf; split <;> first | rfl | contradiction

theorem memByte_drawIdx {s : State} {n a : Nat} (h : ¬ (0x20000 ≤ a ∧ a < 0x40000)) :
    memByte (drawIdx n s) a = memByte s a :=
  memByte_draw_outside (win := .idx) (fun h' => h (windowOf_eq_idx.mp h')) rfl
    fun _ => by unfold epochOf; split <;> first | rfl | contradiction

theorem memByte_drawDesc {s : State} {n a : Nat} (h : ¬ (0x4000 ≤ a ∧ a < 0x5000)) :
    memByte (drawDesc n s) a = memByte s a :=
  memByte_draw_outside (win := .desc) (fun h' => h (windowOf_eq_desc.mp h')) rfl
    fun _ => by unfold epochOf; split <;> first | rfl | contradiction

theorem memByte_drawName {s : State} {n a : Nat} (h : ¬ (0x5000 ≤ a ∧ a < 0x6000)) :
    memByte (drawName n s) a = memByte s a :=
  memByte_draw_outside (win := .name) (fun h' => h (windowOf_eq_name.mp h')) rfl
    fun _ => by unfold epochOf; split <;> first | rfl | contradiction

theorem memByte_pal (s : State) (p : Vector Rgb 16) (a : Nat) : memByte { s with pal := p } a = memByte s a :=
  memByte_congr rfl rfl a

theorem memByte_palw (s : State) (p : Vector (BitVec 15) 16) (a : Nat) :
    memByte { s with palw := p } a = memByte s a := memByte_congr rfl rfl a

theorem memByte_tword (s : State) (w : PackedTile) (a : Nat) : memByte { s with tword := w } a = memByte s a :=
  memByte_congr rfl rfl a

theorem memByte_tidx (s : State) (x : Tile) (a : Nat) : memByte { s with tidx := x } a = memByte s a :=
  memByte_congr rfl rfl a

/-- An aborted command leaves every byte outside its "writes" column alone (R109, R255). -/
theorem drawOutputs_memSame (i : Instr) (n : Nat) (s : State) :
    MemSameOutside s (drawOutputs i n s) (writableRanges s i) := by
  intro a ha
  have hq (h : ¬ (Config.idxBase ≤ a ∧ a < Config.idxBase + rasterBytes s)) :
      memByte (drawQuantOutputs n s) a = memByte s a := by
    have h : ¬ (Config.idxBase ≤ a ∧ a < Config.idxBase + (quantPixels s + 1) / 2) := h
    rw [drawQuantOutputs, memByte_pal, memByte_setNibs_outside h]
  simp only [writableRanges] at ha
  cases i <;> simp only [drawOutputs] <;>
    simp only [List.mem_cons, List.not_mem_nil, or_false, forall_eq_or_imp, forall_eq] at ha
  case quantBg => exact hq ha
  case quantAtlas => exact hq ha
  case bgtile => rw [memByte_drawMap ha.2, memByte_drawTileBuf ha.1]
  case bgtileRemap => rw [memByte_pal, memByte_drawIdx ha.2.2, memByte_drawMap ha.2.1, memByte_drawTileBuf ha.1]
  case atlas => rw [memByte_drawName ha.2.2, memByte_drawDesc ha.2.1, memByte_drawTileBuf ha.1]
  case encpal => exact memByte_palw s _ a
  case tpack => exact memByte_tword s _ a
  case tunpack => exact memByte_tidx s _ a

end Sys2Proof.Machine
end

