-- ==== Sys2Proof/Laws/Step.lean ====
section
/-! SUPPORT. What one step can do, said once, and the induction over it that the invariants share. -/

namespace Sys2Proof.Machine

/-- What a host write can do: it is refused, or it writes a register, or, with no command pending, a window. -/
theorem hostWrite_cases (w : Width) (off : Offset) (v : Word) (s : State) :
    hostWrite w off v s = refuseAccess s ∨
    (∃ r, hostWrite w off v s = answer 0 (writeReg v s r)) ∨
    (s.status.busy = false ∧ accessOk s w off.toNat = true ∧ regAt off.toNat = none ∧
      hostWrite w off v s = answer 0 (writeBytes s off.toNat v w.bytes)) := by
  cases h : accessOk s w off.toNat
  · exact .inl (by simp [hostWrite, h])
  · refine .inr ?_
    cases hr : regAt off.toNat
    · refine .inr ⟨?_, rfl, rfl, by simp [hostWrite, h, writeData, hr]⟩
      simp only [accessOk, Bool.and_eq_true, busyAccessible, hr, Bool.or_false, Bool.not_eq_true'] at h
      exact h.2
    · next r => exact .inl ⟨r, by simp only [hostWrite, h, if_true, writeData, hr]⟩

/-- What a host read can do. -/
theorem hostRead_cases (w : Width) (off : Offset) (s : State) :
    hostRead w off s = refuseAccess s ∨ ∃ d, hostRead w off s = answer d s := by
  unfold hostRead
  split
  · exact .inr ⟨_, rfl⟩
  · exact .inl rfl

/-- What a step can do, on the state with the event taken off the list. -/
theorem step_cases {s t : State} (h : step s = .next t) :
    ∃ es,
      (s.status.busy = true ∧ exec (decodeWord s.cmd) { s with events := es } = .next t) ∨
      (s.status.busy = false ∧ t = { s with events := es }) ∨
      (∃ w off, t = hostRead w off { s with events := es }) ∨
      (∃ w off v, t = hostWrite w off v { s with events := es }) ∨
      t = powerOnReset { s with events := es } := by
  have turn (es : List Event) (h : engineTurn { s with events := es } = .next t) :
      (s.status.busy = true ∧ exec (decodeWord s.cmd) { s with events := es } = .next t) ∨
      (s.status.busy = false ∧ t = { s with events := es }) := by
    cases hb : s.status.busy
    · simp only [engineTurn, pendingCommand, hb, Bool.false_eq_true, if_false] at h
      exact .inr ⟨rfl, by cases h; rfl⟩
    · simp only [engineTurn, pendingCommand, hb, if_true] at h
      exact .inl ⟨rfl, h⟩
  unfold step runNext at h
  split at h
  · next he =>
    refine ⟨[], ?_⟩
    have hs : s = { s with events := [] } := by rw [← he]
    rw [hs] at h
    rcases turn [] h with h | h
    · exact .inl h
    · exact .inr (.inl h)
  · next e es he =>
    refine ⟨es, ?_⟩
    cases e with
    | engine =>
      rcases turn es h with h | h
      · exact .inl h
      · exact .inr (.inl h)
    | read w off => cases h; exact .inr (.inr (.inl ⟨w, off, rfl⟩))
    | write w off v => cases h; exact .inr (.inr (.inr (.inl ⟨w, off, v, rfl⟩)))
    | rst => cases h; exact .inr (.inr (.inr (.inr rfl)))

/-- A property every step keeps: it holds whatever the event list and the port's answer are, and completing a command,
raising an error, a refusal, a register write, a window write and RST each keep it. -/
theorem step_keeps {P : State → Prop} (hev : ∀ s es, P s → P { s with events := es })
    (hans : ∀ s d, P s → P (answer d s))
    (hok : ∀ i s t, P s → s.status.busy = true → commandBody i s = .ok t → P (completeOk t))
    (herr : ∀ i s e, P s → s.status.busy = true → commandBody i s = .error e → P (raiseError e s))
    (href : ∀ s, P s → P (refuseAccess s))
    (hreg : ∀ s v r, P s → P (writeReg v s r))
    (hwin : ∀ s w a v, P s → s.status.busy = false → accessOk s w a = true → a < 0x200000 → regAt a = none →
      P (writeBytes s a v w.bytes))
    (hrst : ∀ s, P s → P (powerOnReset s)) :
    ∀ s t, P s → step s = .next t → P t := by
  intro s t hP h
  obtain ⟨es, h⟩ := step_cases h
  have hP := hev s es hP
  rcases h with ⟨hb, h⟩ | ⟨-, rfl⟩ | ⟨w, off, rfl⟩ | ⟨w, off, v, rfl⟩ | rfl
  · rcases exec_cases (decodeWord s.cmd) { s with events := es } with ⟨u, hu, h'⟩ | ⟨e, he, h'⟩
    · rw [h'] at h; cases h; exact hok _ _ _ hP hb hu
    · rw [h'] at h; cases h; exact herr _ _ _ hP hb he
  · exact hP
  · rcases hostRead_cases w off { s with events := es } with h | ⟨d, h⟩ <;> rw [h]
    · exact href _ hP
    · exact hans _ _ hP
  · rcases hostWrite_cases w off v { s with events := es } with h | ⟨r, h⟩ | ⟨hb, ha, hr, h⟩ <;> rw [h]
    · exact href _ hP
    · exact hans _ _ (hreg _ _ _ hP)
    · exact hans _ _ (hwin _ _ _ _ hP hb ha off.isLt hr)
  · exact hrst _ hP

end Sys2Proof.Machine
end

