-- ==== Sys2Proof/Tests/Slice0.lean ====
section
/-! SUPPORT. Tests with expected values from spec/95_test_vectors.md and the command rules, and a witness for the
hypotheses of every statement that has some. -/

-- The proofs one after another: with one thread each they would need more memory than a check has.
set_option Elab.async false

namespace Sys2Proof.Tests

open Sys2Proof.Machine

/-! ## Helpers -/

/-- A field of the state an outcome goes on in. -/
def after {α : Type} (o : Host.Outcome State Fault Refusal) (f : State → α) : Option α :=
  match o with
  | .next t => some (f t)
  | .fault _ => none
  | .refused _ => none

/-- The block after reset with a raster and a map geometry. -/
def sized (w h mw mh : Half) : State := { State.reset with imgW := w, imgH := h, mapW := mw, mapH := mh }

/-- The state with a command pending. -/
def pending (w : Word) (s : State) : State := { s with cmd := w, status := { s.status with busy := true } }

/-- The four error registers. -/
def errors (s : State) : BitVec 8 × Word × Word × Word := (s.errCode, s.errArg0, s.errArg1, s.errArg2)

/-- Rows of words into the indexed raster, by byte offset. -/
def rows (s : State) (l : List (Nat × List Word)) : State :=
  l.foldl (fun s p => storeBytes s (Config.idxBase + p.1) (p.2.flatMap bytesOfWord)) s

/-- Words into a region record: X, Y, W, H and the first four bytes of the name, the other name bytes 0. -/
def region (s : State) (i : Nat) (x y w h name : Word) : State :=
  storeBytes s (Config.regionBase + 64 * i)
    ([x, y, w, h, name, 0, 0, 0, 0, 0, 0, 0].flatMap bytesOfWord)

/-- A name of one character into the name table. -/
def named (s : State) (i : Nat) (c : Byte) : State :=
  storeBytes s (Config.nameBase + 32 * i) (c :: List.replicate 31 0)

/-! ## Well-formedness: an illegal term that carries a legal word is refused -/

theorem test_wellFormed_refuses_quant : (Instr.illegal 0x01010000).wellFormed = false := by decide +kernel
theorem test_wellFormed_refuses_encpal : (Instr.illegal 0x02000000).wellFormed = false := by decide +kernel
theorem test_wellFormed_refuses_encrgb : (Instr.illegal 0x03000000).wellFormed = false := by decide +kernel
theorem test_wellFormed_refuses_tpack : (Instr.illegal 0x0400FFFF).wellFormed = false := by decide +kernel
theorem test_wellFormed_refuses_tunpack : (Instr.illegal 0x05000000).wellFormed = false := by decide +kernel
theorem test_wellFormed_refuses_bgtile : (Instr.illegal 0x06010000).wellFormed = false := by decide +kernel
theorem test_wellFormed_refuses_atlas : (Instr.illegal 0x07000000).wellFormed = false := by decide +kernel
theorem test_wellFormed_refuses_find : (Instr.illegal 0x08000000).wellFormed = false := by decide +kernel
theorem test_wellFormed_accepts_illegal : (Instr.illegal 0x04010040).wellFormed = true := by decide +kernel

/-! ## Decoding: the words of R104, field by field (OPC, FLAGS, IMM16) -/

theorem test_decode_quantBg : decodeWord (0b00000001#8 ++ 0b00000000#8 ++ 0#16) = .quantBg := by decide +kernel
theorem test_decode_quantAtlas : decodeWord (0b00000001#8 ++ 0b00000001#8 ++ 0#16) = .quantAtlas := by decide +kernel
theorem test_decode_encpal : decodeWord (0b00000010#8 ++ 0b00000000#8 ++ 0#16) = .encpal := by decide +kernel
theorem test_decode_encrgb : decodeWord (0b00000011#8 ++ 0b00000000#8 ++ 0#16) = .encrgb := by decide +kernel
theorem test_decode_tpack :
    decodeWord (0b00000100#8 ++ 0b00000000#8 ++ 0b0000000001000000#16) = .tpack 64 := by decide +kernel
theorem test_decode_tunpack :
    decodeWord (0b00000101#8 ++ 0b00000000#8 ++ 0b0000000000100000#16) = .tunpack 32 := by decide +kernel
theorem test_decode_bgtile : decodeWord (0b00000110#8 ++ 0b00000000#8 ++ 0#16) = .bgtile := by decide +kernel
theorem test_decode_bgtileRemap : decodeWord (0b00000110#8 ++ 0b00000001#8 ++ 0#16) = .bgtileRemap := by decide +kernel
theorem test_decode_atlas : decodeWord (0b00000111#8 ++ 0b00000000#8 ++ 0#16) = .atlas := by decide +kernel
theorem test_decode_find : decodeWord (0b00001000#8 ++ 0b00000000#8 ++ 0#16) = .find := by decide +kernel
theorem test_decode_illegal : decodeWord (0b00000110#8 ++ 0b10000000#8 ++ 0#16) = .illegal 0x06800000 := by decide +kernel
theorem test_decode_tableWord : decodeTableWord 32 0x0500001F = some (.tunpack 31) := by decide +kernel
theorem test_decode_truncated : decodeBytes [0x00, 0x00, 0x00] = .error .truncated := by rfl

/-! ## The commands, on the vectors of 95_test_vectors.md -/

/-- Q-1: 8 × 8 writes IDX bytes 0x00-0x1F and no other. -/
theorem test_quantBg_writes_its_pixels :
    after (exec .quantBg (sized 8 8 32 20)) (fun t => t.mem.map Prod.fst) = some (List.range' 0x20000 32) := by
  decide +kernel

/-- Q-3: 264 × 8 is above the canvas. -/
theorem test_quantBg_too_wide :
    after (exec .quantBg (sized 264 8 32 20)) errors = some (0x01, 0xFFFFFFFF, 264, 8) := by decide +kernel

/-- Q-7: height 0. -/
theorem test_quantAtlas_no_height :
    after (exec .quantAtlas (sized 8 0 32 20)) errors = some (0x01, 0xFFFFFFFF, 8, 0) := by decide +kernel

/-- Q-8: 264 × 8 is accepted when RASTER_MAX is 512 × 256. -/
theorem test_quantAtlas_larger_raster :
    after (exec .quantAtlas { sized 264 8 32 20 with cfg0 := 0x01000200 }) (fun t => (t.status.done, t.status.error)) =
      some (true, false) := by decide +kernel

/-- Section 2.2: PAL[0], PAL[2] and PAL[3] of the ENCPAL vector. -/
theorem test_encpal_vector :
    after
        (exec .encpal
          { State.reset with
            pal := ((Vector.replicate 16 ⟨0, 0, 0⟩).set 0 ⟨255, 255, 255⟩ |>.set 2 ⟨13, 127, 200⟩
              |>.set 3 ⟨200, 100, 50⟩) })
        (fun t => (t.palw[0], t.palw[1], t.palw[2], t.palw[3])) =
      some (0x7FFF, 0x0000, 0x61E2, 0x1998) := by decide +kernel

/-- S2: (13, 127, 200). -/
theorem test_encrgb_vector :
    after (exec .encrgb { State.reset with arg0 := ⟨13, 127, 200⟩ }) State.result = some 0x000061E2 := by decide +kernel

/-- Section 2.2: (4, 5, 12), at the first step of C5. -/
theorem test_encrgb_steps :
    after (exec .encrgb { State.reset with arg0 := ⟨4, 5, 12⟩ }) State.result = some 0x00000420 := by decide +kernel

/-- TC1: TIDX[k] = k mod 16. -/
theorem test_tpack_ramp :
    after (exec (.tpack 64) { State.reset with tidx := Vector.ofFn fun k => BitVec.ofNat 4 k.val })
        (fun t => t.tword.toList) =
      some [0x76543210, 0xFEDCBA98, 0x76543210, 0xFEDCBA98, 0x76543210, 0xFEDCBA98, 0x76543210, 0xFEDCBA98] := by
  decide +kernel

/-- TC12: a wrong length leaves TWORD. -/
theorem test_tpack_length :
    after (exec (.tpack 63) State.reset) errors = some (0x03, 0xFFFFFFFF, 63, 64) := by decide +kernel

/-- TC11: TWORD[0] = 0x00004321. -/
theorem test_tunpack_first_word :
    after (exec (.tunpack 32) { State.reset with tword := (Vector.replicate 8 0).set 0 0x00004321 })
        (fun t => t.tidx.toList.take 9) =
      some [1, 2, 3, 4, 0, 0, 0, 0, 0] := by decide +kernel

/-- TC13: a wrong length. -/
theorem test_tunpack_length :
    after (exec (.tunpack 31) State.reset) errors = some (0x03, 0xFFFFFFFF, 31, 32) := by decide +kernel

/-- BG4's raster: block 0 is 3 but for pixel (1, 0) = 0, block 1 is 0; PAL[0] = (10, 20, 30), PAL[3] = (200, 100, 50). -/
def bg4 (mapW : Half) : State :=
  { rows (sized 16 8 mapW 1)
      ((0, [0x33333303, 0]) :: (List.range' 1 7).map fun r => (8 * r, [0x33333333, 0])) with
    pal := (Vector.replicate 16 ⟨0, 0, 0⟩).set 0 ⟨10, 20, 30⟩ |>.set 3 ⟨200, 100, 50⟩ }

/-- BG4 and BG5: the map padded to three columns, the counters and the tiles. -/
theorem test_bgtile_vector :
    after (exec .bgtile (bg4 3))
        (fun t => (t.tileCount, t.mapCount, [mapAt t 0, mapAt t 1, mapAt t 2],
          [tileWord t 0, tileWord t 8, tileWord t 9, tileWord t 16])) =
      some (3, 3, [1, 2, 0], [0, 0x33333303, 0x33333333, 0]) := by decide +kernel

/-- BG7: H ≠ 8·MAP_H. -/
theorem test_bgtile_height :
    after (exec .bgtile (sized 16 16 2 1)) errors = some (0x02, 0xFFFFFFFF, 16, 16) := by decide +kernel

/-- BG4 with the remap: indices 0 and 3 exchanged in the raster, the palette and the tiles. -/
theorem test_bgtileRemap_vector :
    after (exec .bgtileRemap (bg4 2))
        (fun t => ([memWord t 0x20000, memWord t 0x20004, memWord t 0x20008], [t.pal[0], t.pal[3]],
          [tileWord t 8, tileWord t 9, tileWord t 16])) =
      some ([0x00000030, 0x33333333, 0], [⟨200, 100, 50⟩, ⟨10, 20, 30⟩], [0x00000030, 0, 0x33333333]) := by
  decide +kernel

/-- The raster of section 2.6: block (bx, by) is 1 + bx + 2·by. -/
def atlasRaster (count : Half) : State :=
  { rows (sized 16 16 32 20)
      ((List.range' 0 8).map (fun r => (8 * r, [0x11111111, 0x22222222])) ++
        (List.range' 8 8).map fun r => (8 * r, [0x33333333, 0x44444444])) with
    regionCount := count }

/-- AT2: three regions, the middle one empty. -/
def at2 : State :=
  region (region (region (atlasRaster 3) 0 8 8 8 8 0x61) 1 0 0 0 8 0x62) 2 0 0 16 8 0x63

theorem test_atlas_vector :
    after (exec .atlas at2)
        (fun t => (t.tileCount, t.nameCount, [tileWord t 0, tileWord t 8, tileWord t 16],
          (List.range 8).map (fun k => memWord t (0x4040 + 4 * k)), memWord t 0x5020)) =
      some (3, 3, [0x44444444, 0x11111111, 0x22222222], [16, 8, 2, 1, 8, 1, 0, 0], 0x62) := by decide +kernel

/-- AT6: w = 17 fails on size, though the bounds test would fail as well. -/
theorem test_atlas_size_first :
    after (exec .atlas (region (atlasRaster 1) 0 0 0 17 16 0x77)) errors = some (0x05, 0, 17, 16) := by decide +kernel

/-- F1: "a", "b", "c" with KEY = "b". -/
theorem test_find_second :
    after
        (exec .find
          { named (named (named State.reset 0 0x61) 1 0x62) 2 0x63 with
            nameCount := 3, key := (Vector.replicate 32 0).set 0 0x62 })
        State.result = some 1 := by decide +kernel

/-- F6: a space after "b" is another name. -/
theorem test_find_whole_name :
    after
        (exec .find
          { named (named (named State.reset 0 0x61) 1 0x62) 2 0x63 with
            nameCount := 3, key := (Vector.replicate 32 0).set 0 0x62 |>.set 1 0x20 })
        State.result = some 0xFFFFFFFF := by decide +kernel

/-- Section 2.1: IllegalCommand comes before the length check. -/
theorem test_illegal_before_length :
    after (step (State.reset.withFetchWord 32 0x04010000)) errors = some (0x07, 0xFFFFFFFF, 0x04010000, 0) := by
  decide +kernel

/-! ## The host's side, on section 2.8 -/

/-- H5: a 16-bit read of a register. -/
theorem test_wrong_width : (hostRead .w16 0x000000 State.reset).status.buserr = true := by decide +kernel

/-- H9: past the default IDX RAM. -/
theorem test_past_idx : (hostRead .w32 0x025000 State.reset).status.buserr = true := by decide +kernel

/-- H14: TIDX keeps the low nibble. -/
theorem test_tidx_nibble : (hostWrite .w8 0x000100 0xAB State.reset).tidx[0] = 0xB := by decide +kernel

/-- R62, R69: a halfword into the upper half of PAL[0] sets B and not R or G; its upper byte is ignored. -/
theorem test_palette_upper_half :
    (hostWrite .w16 0x000202 0xFFC8 (hostWrite .w32 0x000200 0x00007F0D State.reset)).pal[0] = ⟨0x0D, 0x7F, 0xC8⟩ := by
  decide +kernel

/-- H15: a palette slot, read as a halfword. -/
theorem test_palette_halfword :
    (hostRead .w16 0x000200 (hostWrite .w32 0x000200 0xFFC87F0D State.reset)).response = some ⟨0x7F0D, false⟩ := by
  decide +kernel

/-- H17: a region record's reserved bytes. -/
theorem test_region_reserved :
    (hostRead .w32 0x002030 (hostWrite .w32 0x002030 5 State.reset)).response = some ⟨0, false⟩ := by decide +kernel

/-- H20: a CTRL write while BUSY leaves STRICT_SIZE. -/
theorem test_busy_ctrl : (hostWrite .w32 0x000004 7 (pending 0x03000000 State.reset)).ctrl = ⟨true, true, false⟩ := by
  decide +kernel

/-- H26: soft reset keeps TIDX and resets MAP_W. -/
theorem test_soft_reset :
    let t := hostWrite .w32 0x000004 0x80000007 { State.reset with mapW := 4, tidx := Vector.replicate 64 5 }
    (t.ctrl, t.mapW, t.tidx[0]) = (⟨false, false, false⟩, 0x20, 5) := by decide +kernel

/-- H27: the aborted TPACK's TWORD is the next draw, whatever that is. -/
theorem test_soft_reset_abort :
    let t := hostWrite .w32 0x000004 0x80000000 (pending 0x04000040 State.reset)
    t.tword[0] = Config.freeValue 1 0x140 ∧ t.draws = 2 ∧ t.status.busy = false := ⟨rfl, rfl, rfl⟩

/-! ## Witnesses: concrete states and operands that meet the hypotheses of each statement -/

theorem test_witness_EncodeThenDecode :
    (Instr.tpack 0xFFFF).wellFormed = true ∧ (Instr.illegal 0).wellFormed = true ∧ Instr.find.wellFormed = true := by
  decide +kernel

theorem test_witness_IllegalWords :
    decodeWord 0x00FFFFFF = .illegal 0x00FFFFFF ∧ decodeWord 0x09000000 = .illegal 0x09000000 ∧
    decodeWord 0xFF000000 = .illegal 0xFF000000 ∧ decodeWord 0x01020000 = .illegal 0x01020000 ∧
    decodeWord 0x02010000 = .illegal 0x02010000 ∧ decodeWord 0x07000001 = .illegal 0x07000001 ∧
    State.reset.status.busy = false ∧ State.reset.status.error = false := by decide +kernel

theorem test_witness_EngineTurn :
    (pending 0x03000000 State.reset).status.busy = true ∧ (pending 0x03000000 State.reset).events = [] ∧
    ({ pending 0x03000000 State.reset with events := [.engine, .rst] }).events = .engine :: [.rst] := ⟨rfl, rfl, rfl⟩

theorem test_witness_PlacedWord :
    decodeTableWord 32 (0x05000020 : Word).toNat = some (.tunpack 32) ∧
    decodeTableWord 32 (0xFFFFFFFF : Word).toNat = some (.illegal 0xFFFFFFFF) := by decide +kernel

theorem test_witness_IdleBlock :
    State.reset.status.busy = false ∧ State.reset.events = [] ∧
    ({ State.reset with events := [.engine] }).events = .engine :: [] := ⟨rfl, rfl, rfl⟩

theorem test_witness_EventsRunInOrder :
    ({ State.reset with events := [.read .w32 0] }).events = .read .w32 0 :: [] ∧
    ({ State.reset with events := [.write .w32 0x00000C 0x03000000] }).events = .write .w32 0x00000C 0x03000000 :: [] ∧
    ({ State.reset with events := [.rst, .engine] }).events = .rst :: [.engine] := ⟨rfl, rfl, rfl⟩

theorem test_witness_PendingCommandEnds :
    ({ pending 0x03000000 State.reset with events := [.read .w32 8, .engine] }).status.busy = true := rfl

/-- One word of each OPC that can fail, from the reset state, and one that R106 makes illegal. -/
theorem test_witness_ErrorCodes :
    State.reset.status.error = false ∧
    ([0x01000000, 0x02010000, 0x03000001, 0x08800000, 0x04000000, 0x05000000, 0x06000000, 0x07000000, 0x00000000,
        0x09000000] : List Word).all (fun w => after (exec (decodeWord w) State.reset) (fun t => t.status.error) == some true) =
      true := by decide +kernel

theorem test_witness_CommandsWriteOnlyTheirColumn :
    CfgValid State.reset ∧ (∃ t, exec .bgtile (sized 8 8 1 1) = .next t) ∧ CfgValid (sized 8 8 1 1) :=
  ⟨by unfold CfgValid; decide +kernel, exec_next _ _, by unfold CfgValid; decide +kernel⟩

theorem test_witness_Quant :
    RasterOk (sized 8 8 32 20) 256 160 ∧ RasterOk (sized 256 160 32 20) 256 160 ∧ CfgValid (sized 256 160 32 20) ∧
    RasterOk (sized 256 160 32 20) (sized 256 160 32 20).rasterMaxW (sized 256 160 32 20).rasterMaxH := by
  unfold RasterOk CfgValid
  decide +kernel

theorem test_witness_QuantRejects :
    (¬ RasterOk (sized 264 8 32 20) 256 160) ∧ (¬ RasterOk (sized 8 168 32 20) 256 160) ∧
    ¬ RasterOk (sized 0 8 32 20) (sized 0 8 32 20).rasterMaxW (sized 0 8 32 20).rasterMaxH := by
  unfold RasterOk
  decide +kernel

theorem test_witness_ChannelConversion : (127 : Byte).toNat ≤ (128 : Byte).toNat := by decide

theorem test_witness_Encpal :
    (0x020000FF : Word).extractLsb' 24 8 = (0x02000000 : Word).extractLsb' 24 8 ∧ (0x020000FF : Word) ≠ 0x02000000 := by
  decide +kernel

theorem test_witness_Encrgb :
    (0x03800000 : Word).extractLsb' 24 8 = (0x03000000 : Word).extractLsb' 24 8 ∧ (0x03800000 : Word) ≠ 0x03000000 := by
  decide +kernel

theorem test_witness_Find :
    (0x08010000 : Word).extractLsb' 24 8 = (0x08000000 : Word).extractLsb' 24 8 ∧ (0x08010000 : Word) ≠ 0x08000000 := by
  decide +kernel

theorem test_witness_Tpack :
    (0x0400FFFF : Word).extractLsb' 24 8 = 0x04 ∧ (0x04010040 : Word).extractLsb' 24 8 = 0x04 ∧
    (65 : BitVec 16) ≠ 64 ∧ (63 : BitVec 16) ≠ 64 := by decide +kernel

theorem test_witness_Tunpack :
    (0x05000020 : Word).extractLsb' 24 8 = 0x05 ∧ (0x05010020 : Word).extractLsb' 24 8 = 0x05 ∧
    (64 : BitVec 16) ≠ 32 ∧ (0 : BitVec 16) ≠ 32 := by decide +kernel

theorem test_witness_BgtileRejects :
    (¬ BackgroundOk (sized 16 16 2 1)) ∧ (¬ BackgroundOk (sized 24 8 2 1)) ∧ (¬ BackgroundOk (sized 16 8 33 1)) ∧
    ¬ BackgroundOk State.reset := by
  unfold BackgroundOk
  decide +kernel

theorem test_witness_Bgtile :
    BackgroundOk (sized 8 8 1 1) ∧ BackgroundOk (sized 256 160 32 20) ∧ BackgroundOk (bg4 3) := by
  unfold BackgroundOk
  decide +kernel

/-- Row 0 of BG5's map has covered columns 0 and 1 and the padding column 2. -/
theorem test_witness_BgtileMap :
    BackgroundOk (bg4 3) ∧ (∃ t, exec .bgtile (bg4 3) = .next t) ∧ 0 < (bg4 3).mapH.toNat ∧ 2 < (bg4 3).mapW.toNat ∧
    1 < (bg4 3).imgW.toNat / 8 ∧ (bg4 3).imgW.toNat / 8 ≤ 2 :=
  ⟨by unfold BackgroundOk; decide +kernel, exec_next _ _, by decide +kernel, by decide +kernel, by decide +kernel,
    by decide +kernel⟩

/-- BG4's second block occurs for the first time at p = 1, and its tiles are 1 and 2. -/
theorem test_witness_BgtileDeduplicates :
    BackgroundOk (bg4 2) ∧ (∃ t, exec .bgtile (bg4 2) = .next t) ∧ 1 < blockCount (bg4 2) ∧
    (∀ q, q < 1 → blockAt (bg4 2) q ≠ blockAt (bg4 2) 1) ∧
    after (exec .bgtile (bg4 2)) (fun t => decide (2 < t.tileCount.toNat ∧ tileAt t 2 = tileAt t 2)) = some true :=
  ⟨by unfold BackgroundOk; decide +kernel, exec_next _ _, by decide +kernel, by decide +kernel, by decide +kernel⟩

/-- BG4 has p0 = 3, and the raster of zeros BG1 has p0 = 0. -/
theorem test_witness_Remap :
    BackgroundOk (bg4 2) ∧ px (bg4 2) 0 0 = 3 ∧
    px (rows (sized 8 8 1 1) [(0, [0, 0, 0, 0, 0, 0, 0, 0])]) 0 0 = 0 ∧
    BackgroundOk (rows (sized 8 8 1 1) [(0, [0, 0, 0, 0, 0, 0, 0, 0])]) := by
  unfold BackgroundOk
  decide +kernel

theorem test_witness_AtlasChecks :
    (¬ RasterOk State.reset State.reset.rasterMaxW State.reset.rasterMaxH) ∧
    RasterOk (atlasRaster 129) (atlasRaster 129).rasterMaxW (atlasRaster 129).rasterMaxH ∧
    128 < (atlasRaster 129).regionCount.toNat := by
  unfold RasterOk
  decide +kernel

/-- AT10's second region fails on size after the first passes. -/
theorem test_witness_AtlasSize :
    let s := region (region (atlasRaster 2) 0 0 0 8 8 0x61) 1 24 0 17 8 0x62
    AtlasInputsOk s ∧ 1 < s.regionCount.toNat ∧ RegionsPass s 1 ∧ SizeInvalid s 1 := by
  unfold AtlasInputsOk RegionsPass SizeInvalid OutOfRaster
  decide +kernel

/-- AT9's region leaves the raster. -/
theorem test_witness_AtlasBounds :
    let s := region (atlasRaster 1) 0 8 0 16 16 0x6F
    AtlasInputsOk s ∧ 0 < s.regionCount.toNat ∧ RegionsPass s 0 ∧ (¬ SizeInvalid s 0) ∧ OutOfRaster s 0 := by
  unfold AtlasInputsOk RegionsPass SizeInvalid OutOfRaster
  decide +kernel

/-- AT14: the running total passes 1024 at the second region. -/
theorem test_witness_AtlasCapacity :
    let s := region (region { sized 256 160 32 20 with regionCount := 2 } 0 0 0 256 160 0x41) 1 0 0 256 128 0x42
    AtlasInputsOk s ∧ 1 < s.regionCount.toNat ∧ RegionsPass s 1 ∧ (¬ SizeInvalid s 1) ∧ (¬ OutOfRaster s 1) ∧
    1024 < tilesBefore s 2 := by
  unfold AtlasInputsOk RegionsPass SizeInvalid OutOfRaster
  decide +kernel

/-- AT15: a total of exactly 1024 passes. -/
theorem test_witness_AtlasCompletes :
    let s := region (region { sized 256 160 32 20 with regionCount := 2 } 0 0 0 256 160 0x41) 1 0 0 256 96 0x42
    AtlasInputsOk s ∧ RegionsPass s s.regionCount.toNat ∧ tilesBefore s 2 = 1024 := by
  unfold AtlasInputsOk RegionsPass SizeInvalid OutOfRaster
  decide +kernel

theorem test_witness_AtlasDescribes :
    AtlasInputsOk at2 ∧ RegionsPass at2 at2.regionCount.toNat ∧ (∃ t, exec .atlas at2 = .next t) ∧
    2 < at2.regionCount.toNat :=
  ⟨by unfold AtlasInputsOk; decide +kernel, by unfold RegionsPass SizeInvalid OutOfRaster; decide +kernel,
    exec_next _ _, by decide +kernel⟩

/-- AT2's last tile: region 2, row 0, column 1. -/
theorem test_witness_AtlasEmits :
    AtlasInputsOk at2 ∧ RegionsPass at2 at2.regionCount.toNat ∧ (∃ t, exec .atlas at2 = .next t) ∧
    2 < at2.regionCount.toNat ∧ 0 < (regH at2 2).toNat / 8 ∧ 1 < (regW at2 2).toNat / 8 :=
  ⟨by unfold AtlasInputsOk; decide +kernel, by unfold RegionsPass SizeInvalid OutOfRaster; decide +kernel,
    exec_next _ _, by decide +kernel, by decide +kernel, by decide +kernel⟩

/-- Each reason to refuse an access, at an end of its range (also for ReadsAndRefusedWritesKeepBytes). -/
theorem test_witness_Refused :
    (∀ p ∈ ([(.w32, 0x002), (.w16, 0x000), (.w8, 0x0FF), (.w32, 0x05C), (.w32, 0x0FC), (.w8, 0x180), (.w32, 0x1FC),
        (.w8, 0x260), (.w8, 0x3FF), (.w8, 0x900), (.w16, 0x1FFE), (.w8, 0x6000), (.w8, 0x7FFF), (.w8, 0x10000),
        (.w8, 0x1FFFF), (.w8, 0x25000), (.w8, 0x3FFFF), (.w8, 0x40000), (.w8, 0xFFFFF), (.w8, 0x128000),
        (.w32, 0x1FFFFC)] : List (Width × Nat)), Refused State.reset p.1 p.2) ∧
    Refused (pending 0x03000000 State.reset) .w32 0x020 := by
  unfold Refused
  decide +kernel

theorem test_witness_NotRefused :
    (∀ p ∈ ([(.w32, 0x000), (.w32, 0x058), (.w8, 0x100), (.w8, 0x17F), (.w8, 0x200), (.w16, 0x25E), (.w16, 0x400),
        (.w8, 0x8FF), (.w8, 0x2000), (.w8, 0x5FFF), (.w32, 0x8000), (.w8, 0xFFFF), (.w8, 0x20000), (.w32, 0x24FFC),
        (.w8, 0x100000), (.w32, 0x127FFC)] : List (Width × Nat)), ¬ Refused State.reset p.1 p.2) ∧
    ¬ Refused (pending 0x03000000 State.reset) .w32 0x058 := by
  unfold Refused
  decide +kernel

theorem test_witness_BusyBlock :
    (pending 0x03000000 State.reset).status.busy = true ∧ (0x00000007 : Word).getLsbD 31 = false ∧
    (0x80000000 : Word).getLsbD 31 = true ∧
    (¬ (Width.w32 = .w32 ∧ (0x05C : Offset).toNat ∈ [0x000, 0x004, 0x008, 0x00C, 0x050, 0x054, 0x058])) ∧
    ¬ (Width.w16 = .w32 ∧ (0x008 : Offset).toNat ∈ [0x000, 0x004, 0x008, 0x00C, 0x050, 0x054, 0x058]) := by
  decide +kernel

theorem test_witness_CommandAcceptance :
    (pending 0x03000000 State.reset).status.busy = true ∧
    ({ State.reset with status := ⟨false, false, true, false, false⟩ }).status.error = true ∧
    State.reset.status.busy = false ∧ State.reset.status.error = false ∧ decodeWord 0 = .illegal 0 := by decide +kernel

/-- Read-only locations at the ends of their ranges: ID, CFG2, PALW, MAP, DESC, NAME and TILE_BUF. -/
theorem test_witness_ReadOnly :
    ∀ p ∈ ([(.w32, 0x000), (.w32, 0x058), (.w16, 0x240), (.w8, 0x25F), (.w8, 0x400), (.w8, 0x8FF), (.w32, 0x4000),
        (.w8, 0x5FFF), (.w32, 0x8000), (.w8, 0xFFFF)] : List (Width × Nat)), (¬ Refused State.reset p.1 p.2) ∧
      (p.2 ∈ [0x000, 0x010, 0x014, 0x018, 0x01C, 0x038, 0x03C, 0x040, 0x044, 0x048, 0x04C, 0x050, 0x054, 0x058] ∨
        (0x000240 ≤ p.2 ∧ p.2 < 0x000260) ∨ (0x000400 ≤ p.2 ∧ p.2 < 0x000900) ∨ (0x004000 ≤ p.2 ∧ p.2 < 0x006000) ∨
        (0x008000 ≤ p.2 ∧ p.2 < 0x010000)) := by
  unfold Refused
  decide +kernel

/-- The ends of IDX, SRC and REGION RAM, and a record's last written and first reserved word. -/
theorem test_witness_MemoryWrites :
    ∀ p ∈ ([(.w8, 0x20000), (.w32, 0x24FFC), (.w16, 0x100000), (.w32, 0x127FFC), (.w32, 0x2000), (.w32, 0x202C),
        (.w32, 0x2030), (.w8, 0x3FFF)] : List (Width × Nat)), (¬ Refused State.reset p.1 p.2) ∧
      ((0x020000 ≤ p.2 ∧ p.2 < 0x040000) ∨ 0x100000 ≤ p.2 ∨ (0x002000 ≤ p.2 ∧ p.2 < 0x004000)) := by
  unfold Refused
  decide +kernel

/-- The last aligned access of each width in the staging windows and PAL, and in PAL the ignored byte 3 of a slot and the
halfword that holds it. -/
theorem test_witness_StagingAndPaletteWrites :
    State.reset.status.busy = false ∧
    (∀ p ∈ ([(.w8, 63), (.w16, 62), (.w32, 60)] : List (Width × Nat)), p.2 % p.1.bytes = 0 ∧ p.2 < 64) ∧
    (∀ p ∈ ([(.w8, 31), (.w16, 30), (.w32, 28)] : List (Width × Nat)), p.2 % p.1.bytes = 0 ∧ p.2 < 32) ∧
    (Width.w8 = .w8 ∧ 63 % 4 = 3) ∧ ¬ (Width.w16 = .w8 ∧ 62 % 4 = 3) := by
  decide +kernel

/-- The last aligned accesses in TIDX, TWORD, MAP, REGION and TILE_BUF, and in the default IDX and SRC RAM. -/
theorem test_witness_WindowReads :
    State.reset.status.busy = false ∧
    (∀ p ∈ ([(.w8, 63, 64), (.w32, 28, 32), (.w16, 0x4FE, 0x500), (.w32, 0x1FFC, 0x2000), (.w32, 0x7FFC, 0x8000),
        (.w32, 0x4FFC, min 0x20000 (State.reset.rasterMaxW * State.reset.rasterMaxH / 2)),
        (.w32, 0x27FFC, min 0x100000 (State.reset.rasterMaxW * State.reset.rasterMaxH * 4))] :
        List (Width × Nat × Nat)), p.2.1 % p.1.bytes = 0 ∧ p.2.1 + p.1.bytes ≤ p.2.2) := by
  decide +kernel

/-- Idle with a CTRL word whose bit 31 is 0; and a busy block read at one of the seven registers. -/
theorem test_witness_Registers :
    State.reset.status.busy = false ∧ (0x7FFFFFFF : Word).getLsbD 31 = false ∧
    (pending 0x03000000 State.reset).status.busy = true ∧
    (0x058 : Offset) ∈ ([0x000, 0x004, 0x008, 0x00C, 0x050, 0x054, 0x058] : List Offset) := by
  decide +kernel

/-- For WindowReads by element and GeometryRegisterWrites, with the last element of each window. -/
theorem test_witness_IdleAccesses : State.reset.status.busy = false ∧ 15 < 16 ∧ 7 < 8 ∧ 63 < 64 ∧ 31 < 32 ∧ 639 < 640 ∧
    8191 < 8192 ∧ 127 < 128 := ⟨rfl, by decide⟩

theorem test_witness_InterruptOutput : State.reset.status.busy = false ∧ State.reset.status.error = false := ⟨rfl, rfl⟩

theorem test_witness_StatusWrite : (0x1E : Word).getLsbD 2 = true ∧ (0x1A : Word).getLsbD 2 = false := by decide +kernel

theorem test_witness_SoftResetWhenIdle : State.reset.status.busy = false ∧ (0x80000007 : Word).getLsbD 31 = true := by
  decide +kernel

theorem test_witness_SoftResetAborts :
    CfgValid (pending 0x06010000 (bg4 2)) ∧ (pending 0x06010000 (bg4 2)).status.busy = true ∧
    (0x80000000 : Word).getLsbD 31 = true := by
  unfold CfgValid
  decide +kernel

/-- A state with a command pending that meets every invariant, and steps. -/
theorem test_witness_Invariants :
    let s := pending 0x03000000 State.reset
    Memory.wf s.mem ∧ HandshakeOk s ∧ ErrorLatchOk s ∧ CountersOk s ∧ CamOk s ∧ CfgValid s ∧ MemInRam s ∧
      DrawsFresh s ∧ ∃ t, step s = .next t := by
  refine ⟨by decide, by unfold HandshakeOk; decide, by unfold ErrorLatchOk; decide, by unfold CountersOk; decide,
    ⟨by decide, .nil⟩, by unfold CfgValid; decide +kernel, ?_, by unfold DrawsFresh; decide,
    exec_next (decodeWord 0x03000000) _⟩
  intro c hc
  cases hc

end Sys2Proof.Tests
end

section
/-! The acceptance of a command: what a host write to CMD does, and what an illegal word's execution leaves. -/

namespace Sys2Proof.Machine

/-- CMD is a control register (R77), so a write to it reaches `offerCommand` whatever STATUS holds. -/
theorem hostWrite_cmd (w : Word) (s : State) : hostWrite .w32 0x00000C w s = answer 0 (offerCommand w s) :=
  hostWrite_reg (r := .cmd) w (.inr rfl)

theorem offerCommand_of_busy_or_error {s : State} (w : Word) (h : s.status.busy = true ∨ s.status.error = true) :
    offerCommand w s = { s with status := { s.status with cmdrej := true } } :=
  if_pos ((Bool.or_eq_true ..).mpr h)

theorem offerCommand_of_ready {s : State} (w : Word) (hbusy : s.status.busy = false) (herror : s.status.error = false) :
    offerCommand w s = { s with cmd := w, status := { s.status with done := false, busy := true } } := by
  simp [offerCommand, hbusy, herror]

/-- An illegal word's error is IllegalCommand with no region and the word itself (R106). -/
theorem exec_illegal (w : Word) (s : State) : exec (.illegal w) s = .next (errorState s 0x07 0xFFFFFFFF w 0) :=
  exec_of_error (e := ⟨.illegalCommand, Config.allOnes, w, 0⟩) rfl

/-- Settles O35: the write reaches `offerCommand`, whose two branches are the two arms of R39, and only `exec` decodes. -/
theorem commandAcceptance : Obligations.CommandAcceptance := by
  unfold Obligations.CommandAcceptance
  intro s w
  refine ⟨fun hblocked => ⟨false, ?_⟩, fun hbusy herror => ?_, fun hillegal => ?_⟩
  · rw [hostWrite_cmd, offerCommand_of_busy_or_error w hblocked, answer]
  · rw [hostWrite_cmd, offerCommand_of_ready w hbusy herror, answer]
  · rw [hillegal, exec_illegal]

end Sys2Proof.Machine
end

section
/-! The busy interlock: what a host access does while a command is pending (R77). -/

namespace Sys2Proof.Machine

/-! ## Refused accesses -/

theorem hostRead_of_refused {s : State} {w : Width} {off : Offset} (h : Refused s w off.toNat) :
    hostRead w off s = refusedState s Config.refusalIsBusError :=
  if_neg fun hok => (accessOk_iff off.isLt).mp hok h

theorem hostWrite_of_refused {s : State} {w : Width} {off : Offset} (v : Word) (h : Refused s w off.toNat) :
    hostWrite w off v s = refusedState s Config.refusalIsBusError :=
  if_neg fun hok => (accessOk_iff off.isLt).mp hok h

/-- While BUSY = 1 an access is refused at any offset but the seven control registers', and there at any width but 32
bits (R63, R77). -/
theorem refused_of_busy {s : State} {w : Width} {a : Nat} (hbusy : s.status.busy = true)
    (h : ¬ (w = .w32 ∧ a ∈ [0x000, 0x004, 0x008, 0x00C, 0x050, 0x054, 0x058])) : Refused s w a := by
  unfold Refused
  by_cases hctl : a ∈ [0x000, 0x004, 0x008, 0x00C, 0x050, 0x054, 0x058]
  · have hwidth : w ≠ .w32 := fun hw => h ⟨hw, hctl⟩
    have hreg : a < 0x000100 := by
      simp only [List.mem_cons, List.not_mem_nil, or_false] at hctl
      omega
    exact .inr (.inl ⟨hreg, .inl hwidth⟩)
  · simp only [hbusy, hctl, not_false_eq_true, and_self, or_true]

/-! ## Writes to the control registers -/

/-- The flags a STATUS write leaves: those written 1 are cleared, ERROR by `ackError`, and BUSY stays (R24, R226). -/
theorem writeStatus_status (v : Word) (s : State) :
    (writeStatus v s).status =
      ⟨s.status.busy, s.status.done && !v.getLsbD 1, s.status.error && !v.getLsbD 2, s.status.cmdrej && !v.getLsbD 3,
        s.status.buserr && !v.getLsbD 4⟩ := by
  unfold writeStatus
  cases v.getLsbD 2 with
  | true => simp
  | false => simp

theorem writeCtrl_of_reset {v : Word} (s : State) (h : v.getLsbD 31 = true) : writeCtrl v s = softReset s := if_pos h

theorem writeCtrl_of_busy {v : Word} {s : State} (h : v.getLsbD 31 = false) (hbusy : s.status.busy = true) :
    writeCtrl v s = { s with ctrl := ⟨v.getLsbD 0, v.getLsbD 1, s.ctrl.strictSize⟩ } := by
  rw [writeCtrl, if_neg (Bool.eq_false_iff.mp h), writeCtrlBits, if_pos hbusy]

/-- A write to CTRL is `writeCtrl`'s whatever STATUS holds (R77). -/
theorem hostWrite_ctrl (v : Word) (s : State) : hostWrite .w32 0x000004 v s = answer 0 (writeCtrl v s) :=
  hostWrite_reg (r := .ctrl) v (.inr rfl)

/-- A write to STATUS is `writeStatus`'s whatever STATUS holds (R77). -/
theorem hostWrite_status (v : Word) (s : State) : hostWrite .w32 0x000008 v s = answer 0 (writeStatus v s) :=
  hostWrite_reg (r := .status) v (.inr rfl)

theorem control_of_mem {r : Reg} (h : r ∈ [Reg.id, .ctrl, .status, .cmd, .cfg0, .cfg1, .cfg2]) : r.control = true := by
  revert r
  decide

/-- Settles O34: each control register's access is its own rule of `readReg` or `writeReg`, and BUSY refuses the rest. -/
theorem busyBlockAnswersControlRegisters : Obligations.BusyBlockAnswersControlRegisters := by
  unfold Obligations.BusyBlockAnswersControlRegisters
  intro s v hbusy
  refine ⟨fun r hr => ?read, ⟨false, ?cmd⟩, ?status, fun r hr => ⟨false, ?readOnly⟩, fun henable => ?enables,
    fun hreset => ?reset, fun w off hother => ?refused⟩
  case read => exact hostRead_reg (.inr (control_of_mem hr))
  case cmd => rw [hostWrite_cmd, offerCommand_of_busy_or_error v (.inl hbusy), answer]
  case status => rw [hostWrite_status, answer, writeStatus_status, hbusy]
  case readOnly =>
    simp only [List.mem_cons, List.not_mem_nil, or_false] at hr
    obtain rfl | rfl | rfl | rfl := hr <;> exact hostWrite_reg v (.inr rfl)
  case enables => rw [hostWrite_ctrl, writeCtrl_of_busy henable hbusy, answer]
  case reset =>
    rw [hostWrite_ctrl, writeCtrl_of_reset s hreset]
    exact ⟨rfl, rfl⟩
  case refused =>
    have href := refused_of_busy hbusy hother
    exact ⟨⟨_, hostRead_of_refused href⟩, _, hostWrite_of_refused v href⟩

end Sys2Proof.Machine
end

section
/-! Which words are illegal (R105, R106): FLAGS by its bits, the opcode map as the zero bits it requires, and the decoder's
agreement with it. -/

namespace Sys2Proof

/-- FLAGS[7:1] = 0 leaves FLAGS[0] as the only choice (R102). -/
theorem flagsOf_eq_zero_or_one_iff (w : Word) : flagsOf w = 0 ∨ flagsOf w = 1 ↔ w.extractLsb' 17 7 = 0 := by
  have hbits : w.extractLsb' 17 7 = (flagsOf w).extractLsb' 1 7 := by
    ext i hi
    simp [flagsOf, show 1 + i < 8 by omega, ← Nat.add_assoc]
  have hbyte : ∀ f : BitVec 8, f = 0 ∨ f = 1 ↔ f.extractLsb' 1 7 = 0 := by decide +kernel
  rw [hbits, hbyte]

theorem flagsOf_eq_zero_iff (w : Word) : flagsOf w = 0 ↔ w.extractLsb' 17 7 = 0 ∧ w.getLsbD 16 = false := by
  have hbit : w.getLsbD 16 = (flagsOf w).getLsbD 0 := by simp [flagsOf]
  have hbyte : ∀ f : BitVec 8, f = 0 ↔ (f = 0 ∨ f = 1) ∧ f.getLsbD 0 = false := by decide +kernel
  rw [hbit, ← flagsOf_eq_zero_or_one_iff, ← hbyte]

/-- The opcodes by which of the other bits must be zero: those of no command, and the flagged, length and plain commands
(R104, R105). -/
theorem opcode_cases (o : BitVec 8) :
    (o = 0x00 ∨ 0x09 ≤ o.toNat) ∨ (o = 0x01 ∨ o = 0x06) ∨ (o = 0x04 ∨ o = 0x05) ∨
      (o = 0x02 ∨ o = 0x03 ∨ o = 0x07 ∨ o = 0x08) := by
  revert o
  decide +kernel

/-- A word is outside the opcode map when its OPC is no command's or a bit that must be zero for its OPC is not (R105,
R106). -/
theorem isLegalWord_eq_false_iff (w : Word) :
    isLegalWord w = false ↔
      opcOf w = 0x00 ∨ 0x09 ≤ (opcOf w).toNat ∨ w.extractLsb' 17 7 ≠ 0 ∨
        (w.getLsbD 16 = true ∧ opcOf w ≠ 0x01 ∧ opcOf w ≠ 0x06) ∨
        (immOf w ≠ 0 ∧ opcOf w ≠ 0x04 ∧ opcOf w ≠ 0x05) := by
  rw [← Bool.not_eq_true, isLegalWord_iff, flagsOf_eq_zero_or_one_iff, flagsOf_eq_zero_iff]
  generalize opcOf w = o, w.extractLsb' 17 7 = f, w.getLsbD 16 = b, immOf w = m
  rcases opcode_cases o with (rfl | hlarge) | (rfl | rfl) | (rfl | rfl) | (rfl | rfl | rfl | rfl)
  case inl.inr =>
    refine iff_of_true ?_ (.inr (.inl hlarge))
    rintro (⟨rfl | rfl, -⟩ | ⟨rfl | rfl, -⟩ | ⟨rfl | rfl | rfl | rfl, -⟩) <;> exact absurd hlarge (by decide)
  all_goals cases b <;> simp [imp_iff_not_or]

/-- The decoder's illegal row is the words outside the opcode map (R106, R113). -/
theorem decodeWord_eq_illegal_iff (w : Word) : decodeWord w = .illegal w ↔ isLegalWord w = false := by
  rcases decodeWord_cases w with ⟨ho, hf, hm, hd⟩ | ⟨ho, hf, hm, hd⟩ | ⟨ho, hf, hm, hd⟩ | ⟨ho, hf, hm, hd⟩ |
    ⟨ho, hf, hd⟩ | ⟨ho, hf, hd⟩ | ⟨ho, hf, hm, hd⟩ | ⟨ho, hf, hm, hd⟩ | ⟨ho, hf, hm, hd⟩ | ⟨ho, hf, hm, hd⟩ | ⟨hl, hd⟩
  case inr.inr.inr.inr.inr.inr.inr.inr.inr.inr => simp [hl, hd]
  all_goals
    have hlegal : isLegalWord w = true := (isLegalWord_iff w).mpr (by simp [*])
    simp [hd, hlegal]

end Sys2Proof

namespace Sys2Proof.Machine

/-- Settles O4: the decoder's illegal row by the word's fields, then acceptance by `offerCommand`, which decodes nothing,
and the execution of the illegal row. -/
theorem illegalWordsRaiseIllegalCommand : Obligations.IllegalWordsRaiseIllegalCommand := by
  unfold Obligations.IllegalWordsRaiseIllegalCommand
  intro w
  refine ⟨(decodeWord_eq_illegal_iff w).trans (isLegalWord_eq_false_iff w),
    fun _ => ⟨fun s hbusy herror => ?accepted, exec_illegal w⟩⟩
  case accepted => rw [hostWrite_cmd, offerCommand_of_ready w hbusy herror, answer]

end Sys2Proof.Machine
end

section
/-! The quantizer family: the channel conversion (R132), the two colour encoders (R134, R135) and what QUANT leaves of
QFN's result (R131). -/

namespace Sys2Proof.Machine

/-! ## The channel conversion (R132, R136) -/

/-- The output v is reached from the rounded-up quotient (255v − 127) / 31 on (R136). -/
theorem le_c5_iff (v : Nat) (c : Byte) : v ≤ c5 c ↔ (255 * v - 97) / 31 ≤ c.toNat := by
  rw [c5, Nat.le_div_iff_mul_le (by decide)]
  omega

/-- 31c/255 rounded to nearest is ⌊(62c + 255) / 510⌋ (R136). -/
theorem c5_eq_nearest (c : Byte) : c5 c = (62 * c.toNat + 255) / 510 := by
  rw [c5]
  omega

theorem c5_mono {c d : Byte} (h : c.toNat ≤ d.toNat) : c5 c ≤ c5 d :=
  (le_c5_iff _ d).mpr (((le_c5_iff _ c).mp le_rfl).trans h)

/-- Settles O16: `c5` reaches v from one smallest input on, which gives the order and, by its formula, the table; the
rest is arithmetic on one byte. -/
theorem channelConversion : Obligations.ChannelConversion := by
  unfold Obligations.ChannelConversion
  refine ⟨fun c => ⟨rfl, c5_bound c, ?small, c5_eq_nearest c, fun k => ?noTie⟩, rfl, rfl, fun _ _ => c5_mono,
    fun v c => ?table⟩
  case small =>
    have := c.isLt
    omega
  case noTie => omega
  case table =>
    rw [le_c5_iff]
    refine iff_of_eq (congrArg (· ≤ c.toNat) ?_)
    revert v
    decide

/-! ## ENCPAL and ENCRGB (R134, R135) -/

/-- A plain command's OPC has one legal word, the one with FLAGS and IMM16 zero (R105, R113). -/
theorem onlyCommandWord_of_plain {w : Word} {i : Instr}
    (hdecode : ∀ v, opcOf v = opcOf w → decodeWord v = plainCommand v i) (hflags : flagsOf w = 0) (himm : immOf w = 0) :
    OnlyCommandWord w i := by
  refine ⟨(hdecode w rfl).trans (if_pos ⟨hflags, himm⟩), fun v hopc hne => ?_⟩
  rw [hdecode v hopc]
  refine if_neg fun ⟨hf, hm⟩ => hne ?_
  exact word_ext_fields hopc (hf.trans hflags.symm) (hm.trans himm.symm)

/-- Settles O17: OPC 0x02 is a plain command's, and ENCPAL's body maps `encodeRgb` over PAL. -/
theorem encpalEncodesEveryEntry : Obligations.EncpalEncodesEveryEntry := by
  unfold Obligations.EncpalEncodesEveryEntry
  refine ⟨onlyCommandWord_of_plain (fun v hv => decodeWord_opc2 (hv.trans (by decide))) (by decide) (by decide),
    fun s => ⟨_, exec_of_ok rfl, rfl, fun k hk => ?_⟩⟩
  rw [← encodeRgb_toNat, completeOk_palw, Vector.getElem_map]

/-- Settles O18: OPC 0x03 is a plain command's, and RESULT is the 15-bit `encodeRgb` of ARG0, zero-extended. -/
theorem encrgbEncodesArg0 : Obligations.EncrgbEncodesArg0 := by
  unfold Obligations.EncrgbEncodesArg0
  refine ⟨onlyCommandWord_of_plain (fun v hv => decodeWord_opc3 (hv.trans (by decide))) (by decide) (by decide),
    fun s => ⟨_, exec_of_ok rfl, rfl, ?value, ?high⟩⟩
  case value => rw [← encodeRgb_toNat, completeOk_result, BitVec.toNat_setWidth_of_le (by decide)]
  case high =>
    rw [completeOk_result]
    ext k hk
    simp

/-! ## QUANT (R130, R131) -/

/-- Entry k of QFN's palette, zero past its 16 entries. -/
def QuantResult.entry (q : QuantResult) (k : Nat) : Rgb := q.pal[k]?.getD ⟨0, 0, 0⟩

theorem QuantResult.entry_of_lt (q : QuantResult) {k : Nat} (hk : k < 16) : q.entry k = q.pal[k] := by
  simp [entry, hk]

/-- Q3: the entries from n on are zero (R131). -/
theorem qfn_entry_of_le {w h : Nat} {pix : List Rgba} {k : Nat} (hk : (qfn w h pix).n ≤ k) :
    (qfn w h pix).entry k = ⟨0, 0, 0⟩ := by
  by_cases hlt : k < 16
  · rw [QuantResult.entry_of_lt _ hlt]
    exact (Vector.getElem_ofFn hlt).trans (if_neg (Nat.not_lt.mpr hk))
  · simp [QuantResult.entry, hlt]

/-- Q4: every index is below n (R131). -/
theorem qfn_idx_lt (w h : Nat) (pix : List Rgba) (p : Nat) : ((qfn w h pix).idx p).toNat < (qfn w h pix).n := by
  obtain ⟨hpos, hle⟩ := qfn_bounds w h pix
  have hlt : Config.qfnIndex w h pix p % (qfn w h pix).n < (qfn w h pix).n := Nat.mod_lt _ hpos
  have hidx : ((qfn w h pix).idx p).toNat = Config.qfnIndex w h pix p % (qfn w h pix).n % 2 ^ 4 :=
    BitVec.toNat_ofNat ..
  omega

/-- QFN of the raster as it stands (R131). -/
def rasterQfn (s : State) : QuantResult := qfn s.imgW.toNat s.imgH.toNat (rasterPixels s)

/-- What QUANT leaves on an admitted geometry (R130, R131). -/
def quantized (s : State) : State :=
  completeOk
    { setNibs s (rasterQfn s).idx (s.imgW.toNat * s.imgH.toNat) with
      pal := (rasterQfn s).pal
      palCount := BitVec.ofNat 5 (rasterQfn s).n }

/-- The form of QUANT admits the raster (R130). -/
def QuantAdmits (s : State) (i : Instr) : Prop :=
  i = .quantBg ∧ RasterOk s 256 160 ∨ i = .quantAtlas ∧ CfgValid s ∧ RasterOk s s.rasterMaxW s.rasterMaxH

theorem exec_of_quantAdmits {s : State} {i : Instr} (h : QuantAdmits s i) : exec i s = .next (quantized s) := by
  obtain ⟨rfl, hr⟩ | ⟨rfl, -, hr⟩ := h
  · exact exec_of_ok (quantize_of_ok hr)
  · exact exec_of_ok (quantize_of_ok hr)

/-- An admitted raster fits the IDX window, and its pixels fill whole bytes (R44, R130). -/
theorem pixels_of_quantAdmits {s : State} {i : Instr} (h : QuantAdmits s i) :
    s.imgW.toNat * s.imgH.toNat ≤ 0x40000 ∧ s.imgW.toNat * s.imgH.toNat % 2 = 0 := by
  have heven {maxW maxH : Nat} (hr : RasterOk s maxW maxH) : s.imgW.toNat * s.imgH.toNat % 2 = 0 := by
    obtain ⟨-, -, hw, -, -, -⟩ := hr
    rw [Nat.mul_mod, show s.imgW.toNat % 2 = 0 by omega, Nat.zero_mul, Nat.zero_mod]
  obtain ⟨-, hr⟩ | ⟨-, hc, hr⟩ := h
  · exact ⟨(pixels_le_canvas hr).trans (by decide), heven hr⟩
  · exact ⟨(pixels_le_of_cfg hc hr).2, heven hr⟩

theorem memByte_quantized (s : State) (a : Nat) :
    memByte (quantized s) a = memByte (setNibs s (rasterQfn s).idx (s.imgW.toNat * s.imgH.toNat)) a :=
  memByte_congr rfl rfl a

theorem nib_quantized {s : State} {p : Nat} (hpix : s.imgW.toNat * s.imgH.toNat ≤ 0x40000)
    (hp : p < s.imgW.toNat * s.imgH.toNat) : nib (quantized s) p = (rasterQfn s).idx p := by
  unfold nib
  rw [memByte_quantized]
  exact (nib_setNibs s _ _ p hpix).trans (if_pos hp)

/-- QUANT writes no byte but those that hold the raster's pixels (R109). -/
theorem memSameOutside_quantized {s : State} (heven : s.imgW.toNat * s.imgH.toNat % 2 = 0) :
    MemSameOutside s (quantized s) [(Config.idxBase, s.imgW.toNat * s.imgH.toNat / 2)] := by
  intro a ha
  have hout := ha _ List.mem_cons_self
  rw [memByte_quantized, memByte_setNibs_outside]
  rwa [show (s.imgW.toNat * s.imgH.toNat + 1) / 2 = s.imgW.toNat * s.imgH.toNat / 2 by omega]

theorem palCount_quantized (s : State) : (quantized s).palCount.toNat = (rasterQfn s).n := by
  obtain ⟨-, hle⟩ := qfn_bounds s.imgW.toNat s.imgH.toNat (rasterPixels s)
  exact (BitVec.toNat_ofNat ..).trans (Nat.mod_eq_of_lt (Nat.lt_of_le_of_lt hle (by decide)))

/-- Settles O14: the one function is the model's `qfn`, and each form of QUANT leaves `quantized`. -/
theorem quantFollowsOneQfn : Obligations.QuantFollowsOneQfn := by
  unfold Obligations.QuantFollowsOneQfn
  refine ⟨fun w h pix => (qfn w h pix).n, fun w h pix => (qfn w h pix).entry,
    fun w h pix p => ((qfn w h pix).idx p).toNat, fun w h pix => ?bounds, fun s i hadmits => ?writes⟩
  case bounds =>
    obtain ⟨hpos, hle⟩ := qfn_bounds w h pix
    exact ⟨hpos, hle, fun k => qfn_entry_of_le, qfn_idx_lt w h pix⟩
  case writes =>
    obtain ⟨hpix, heven⟩ := pixels_of_quantAdmits hadmits
    exact ⟨quantized s, exec_of_quantAdmits hadmits, rfl, memSameOutside_quantized heven, palCount_quantized s,
      fun k hk => (QuantResult.entry_of_lt _ hk).symm, fun p hp => congrArg BitVec.toNat (nib_quantized hpix hp)⟩

end Sys2Proof.Machine
end

section
/-! The tile codec: TPACK (R153), and TPACK and TUNPACK run one after the other (R152). -/

namespace Sys2Proof.Machine

/-- Index 8j + n of an unpacked tile is column n of row j's word (R152), as `pack_nib` says it of packing. -/
theorem unpack_nib (w : PackedTile) (j n : Nat) (hj : j < 8) (hn : n < 8) :
    (unpack w)[8 * j + n] = (w[j]).extractLsb' (4 * n) 4 := by
  have hrow : (8 * j + n) / 8 = j := by omega
  have hcol : (8 * j + n) % 8 = n := by omega
  simp only [unpack_get, hrow, hcol]

/-- TPACK of the one length it admits completes with the packed tile in TWORD (R153). -/
theorem exec_tpack (s : State) : exec (.tpack 64) s = .next (completeOk { s with tword := pack s.tidx }) :=
  exec_of_ok rfl

/-- TUNPACK of the one length it admits completes with the unpacked words in TIDX (R154). -/
theorem exec_tunpack (s : State) : exec (.tunpack 32) s = .next (completeOk { s with tidx := unpack s.tword }) :=
  exec_of_ok rfl

/-- TPACK of any other length raises InvalidTileSize with the length and 64 (R153, R225). -/
theorem exec_tpack_of_ne {len : BitVec 16} (s : State) (h : len ≠ 64) :
    exec (.tpack len) s = .next (errorState s 0x03 0xFFFFFFFF (len.setWidth 32) 64) :=
  exec_of_error (e := tileSizeError len 64) (if_neg h)

/-- Settles O19: OPC 0x04 is a length command's, and TWORD is the packed TIDX, whose nibbles `pack_nib` gives. -/
theorem tpackPacksRows : Obligations.TpackPacksRows := by
  unfold Obligations.TpackPacksRows
  exact ⟨fun w hopc => decodeWord_opc4 hopc,
    fun s => ⟨⟨_, exec_tpack s, rfl, pack_nib s.tidx⟩, fun _ => exec_tpack_of_ne s⟩⟩

/-- Settles O21: each command leaves the other's operand, so the two runs are `unpack_pack` on TIDX and `pack_unpack` on
TWORD. -/
theorem codecRoundTrips : Obligations.CodecRoundTrips := by
  unfold Obligations.CodecRoundTrips
  refine ⟨unpack_nib, fun s => ⟨⟨_, _, exec_tpack s, exec_tunpack _, ?tidx, rfl⟩,
    ⟨_, _, exec_tunpack s, exec_tpack _, ?tword, rfl⟩⟩⟩
  case tidx => exact unpack_pack s.tidx
  case tword => exact pack_unpack s.tword

end Sys2Proof.Machine
end

section
/-! BGTILE.REMAP (R171): the transposition of 0 and Px(0, 0) in the raster and in the palette, and that the tiling which
follows leaves both alone. -/

namespace Sys2Proof.Machine

/-! ## The transposition -/

@[simp] theorem remapPerm_zero (v : Nib) : remapPerm 0 v = v := by
  simp only [remapPerm]
  split_ifs with hv
  · exact hv.symm
  · rfl

/-- p0 is sent to 0, whether or not it is 0 itself. -/
@[simp] theorem remapPerm_self (p0 : Nib) : remapPerm p0 p0 = 0 := by
  by_cases hp : p0 = 0 <;> simp [remapPerm, hp]

@[simp] theorem swapPal_zero (pal : Vector Rgb 16) : swapPal pal 0 = pal := by
  ext1 k hk
  by_cases hk0 : k = 0 <;> simp [swapPal, hk0]

theorem swapPal_getElem (pal : Vector Rgb 16) (p0 : Nib) {k : Nat} (hk : k < 16) :
    (swapPal pal p0)[k] =
      if k = 0 then pal[p0.toNat]'p0.isLt else if k = p0.toNat then pal[0] else pal[k] :=
  Vector.getElem_swap ..

/-! ## What Remap leaves (R171) -/

/-- Pixel (0, 0) is linear pixel 0 whatever the raster's width. -/
theorem px_origin (s : State) : px s 0 0 = nib s 0 := by simp [px]

theorem remap_of_zero {s : State} (h : px s 0 0 = 0) : remap s = s := if_pos h

theorem remap_of_ne_zero {s : State} (h : px s 0 0 ≠ 0) :
    remap s =
      { setNibs s (fun p => remapPerm (px s 0 0) (nib s p)) (s.imgW.toNat * s.imgH.toNat) with
        pal := swapPal s.pal (px s 0 0) } :=
  if_neg h

theorem remap_pal (s : State) : (remap s).pal = swapPal s.pal (px s 0 0) := by
  by_cases h : px s 0 0 = 0
  · rw [remap_of_zero h, h, swapPal_zero]
  · rw [remap_of_ne_zero h]

/-- Remap changes the raster's memory and PAL alone. -/
theorem remap_eq (s : State) : remap s = { s with pal := (remap s).pal, mem := (remap s).mem } := by
  obtain ⟨m, p, h⟩ := remap_frame s
  rw [h]

@[simp] theorem remap_status (s : State) : (remap s).status = s.status := by rw [remap_eq]
@[simp] theorem remap_palCount (s : State) : (remap s).palCount = s.palCount := by rw [remap_eq]
@[simp] theorem remap_palw (s : State) : (remap s).palw = s.palw := by rw [remap_eq]

theorem nib_remap {s : State} {p : Nat} (hpix : s.imgW.toNat * s.imgH.toNat ≤ 0x40000)
    (hp : p < s.imgW.toNat * s.imgH.toNat) : nib (remap s) p = remapPerm (px s 0 0) (nib s p) := by
  by_cases h : px s 0 0 = 0
  · rw [remap_of_zero h, h, remapPerm_zero]
  · rw [remap_of_ne_zero h]
    exact (nib_setNibs s _ _ p hpix).trans (if_pos hp)

/-- Remap writes no byte but those that hold the raster's pixels. -/
theorem memSameOutside_remap {s : State} (heven : s.imgW.toNat * s.imgH.toNat % 2 = 0) :
    MemSameOutside s (remap s) [(Config.idxBase, s.imgW.toNat * s.imgH.toNat / 2)] := by
  intro a ha
  by_cases h : px s 0 0 = 0
  · rw [remap_of_zero h]
  · have hout := ha _ List.mem_cons_self
    rw [remap_of_ne_zero h]
    refine memByte_setNibs_outside ?_
    rwa [show (s.imgW.toNat * s.imgH.toNat + 1) / 2 = s.imgW.toNat * s.imgH.toNat / 2 by omega]

/-! ## The geometry and the tiling -/

/-- An admitted raster has a pixel, and its pixels fit the IDX window and fill whole bytes (R68, R170). -/
theorem pixels_of_background {s : State} (h : BackgroundOk s) :
    0 < s.imgW.toNat * s.imgH.toNat ∧ s.imgW.toNat * s.imgH.toNat ≤ 0x40000 ∧
      s.imgW.toNat * s.imgH.toNat % 2 = 0 := by
  have hle := (background_bounds h).1
  obtain ⟨-, -, hmap, -, hw, hw8, -, hh⟩ := h
  refine ⟨Nat.mul_pos hw (by omega), by omega, ?_⟩
  rw [Nat.mul_mod, show s.imgW.toNat % 2 = 0 by omega, Nat.zero_mul, Nat.zero_mod]

@[simp] theorem tileBackground_status (s : State) : (tileBackground s).status = s.status := by
  rw [tileBackground_eq]
@[simp] theorem tileBackground_palCount (s : State) : (tileBackground s).palCount = s.palCount := by
  rw [tileBackground_eq]
@[simp] theorem tileBackground_pal (s : State) : (tileBackground s).pal = s.pal := by
  rw [tileBackground_eq]
@[simp] theorem tileBackground_palw (s : State) : (tileBackground s).palw = s.palw := by
  rw [tileBackground_eq]

/-- The tiling stores to MAP and TILE_BUF, which lie below the IDX window, so it leaves every pixel (R109). -/
theorem nib_tileBackground {s : State} (h : BackgroundOk s) (p : Nat) : nib (tileBackground s) p = nib s p := by
  have hmap := (background_bounds h).2.2.1
  have htiles := (dedup_tiles_length h).2
  have hbyte : memByte (tileBackground s) (Config.idxBase + p / 2) = memByte s (Config.idxBase + p / 2) := by
    refine commandBody_memSame (i := .bgtile) (backgroundTiles_of_ok h) _ fun r hr => ?_
    simp only [storedRanges, List.mem_cons, List.not_mem_nil, or_false] at hr
    obtain rfl | rfl := hr
    · simp only [Config.mapBase, Config.idxBase]
      omega
    · simp only [Config.tileBufBase, Config.idxBase]
      omega
  simp only [nib, hbyte]

@[simp] theorem nib_completeOk (s : State) (p : Nat) : nib (completeOk s) p = nib s p := rfl

/-- After the remap and the tiling, Px(0, 0) = 0 (R171). -/
theorem px_origin_remapped {s : State} (h : BackgroundOk s) : px (completeOk (tileBackground (remap s))) 0 0 = 0 := by
  obtain ⟨hpos, hpix, -⟩ := pixels_of_background h
  rw [px_origin, nib_completeOk, nib_tileBackground (remap_background h), nib_remap hpix hpos, px_origin,
    remapPerm_self]

theorem exec_bgtile {s : State} (h : BackgroundOk s) : exec .bgtile s = .next (completeOk (tileBackground s)) :=
  exec_of_ok (backgroundTiles_of_ok h)

theorem exec_bgtileRemap {s : State} (h : BackgroundOk s) :
    exec .bgtileRemap s = .next (completeOk (tileBackground (remap s))) :=
  exec_of_ok (backgroundTiles_of_ok h)

/-- Settles O26: the state that differs by the transposition is `remap s`, from which BGTILE ends in the same state. -/
theorem remapExchangesBackgroundIndex : Obligations.RemapExchangesBackgroundIndex := by
  unfold Obligations.RemapExchangesBackgroundIndex
  intro s h
  obtain ⟨-, hpix, heven⟩ := pixels_of_background h
  refine ⟨completeOk (tileBackground (remap s)), remap s, exec_bgtileRemap h, ?status,
    exec_bgtile (remap_background h), remap_eq s, memSameOutside_remap heven, remap_of_zero,
    fun p hp => nib_remap hpix hp, fun k hk => ?palette, px_origin_remapped h, ?pal, ?palCount, ?palw⟩
  case status => simp [doneStatus]
  case palette => rw [← swapPal_getElem _ _ hk, ← remap_pal]
  all_goals simp

end Sys2Proof.Machine
end

section
/-! ATLAS and FIND: the region checks' errors (R192, R193), each region's descriptor, name and tiles after an ATLAS that
passes (R195-R197, R199), and FIND's search (R200). -/

namespace Sys2Proof.Machine

/-! ## The first region that fails (R190, R192, R193) -/

theorem placeOne_of_sizeInvalid {s : State} {i : Nat} (hsize : SizeInvalid s i) :
    placeOne s i (tilesBefore s i) =
      .error ⟨.regionSizeInvalid, BitVec.ofNat 32 i, memWord s (regionAddr i + 8), memWord s (regionAddr i + 12)⟩ := by
  rw [placeOne_eq, if_pos hsize]

theorem placeOne_of_outOfRaster {s : State} {i : Nat} (hsize : ¬ SizeInvalid s i) (hout : OutOfRaster s i) :
    placeOne s i (tilesBefore s i) =
      .error ⟨.regionOutOfBounds, BitVec.ofNat 32 i, memWord s (regionAddr i + 8), memWord s (regionAddr i + 12)⟩ := by
  rw [placeOne_eq, if_neg hsize, if_pos hout]

theorem placeOne_of_overCapacity {s : State} {i : Nat} (hsize : ¬ SizeInvalid s i) (hout : ¬ OutOfRaster s i)
    (hover : 1024 < tilesBefore s (i + 1)) :
    placeOne s i (tilesBefore s i) =
      .error ⟨.capacityExceeded, BitVec.ofNat 32 i, BitVec.ofNat 32 (tilesBefore s (i + 1)), 1024⟩ := by
  rw [placeOne_eq, if_neg hsize, if_neg hout, if_pos hover]

/-- ATLAS ends in the error of the first region that pass 1 rejects (R190). -/
theorem exec_atlas_of_fail {s : State} {i : Nat} {e : CmdError} (hinputs : AtlasInputsOk s)
    (hi : i < s.regionCount.toNat) (hbefore : RegionsPass s i) (he : placeOne s i (tilesBefore s i) = .error e) :
    exec .atlas s = .next (errorState s (errCodeOf e.kind) e.arg0 e.arg1 e.arg2) :=
  exec_of_error (packAtlas_of_fail hinputs hi hbefore he)

/-- Settles O28: the error is the one `placeOne` gives region i, whose three checks are tried in order. -/
theorem atlasReportsFirstBadRegion : Obligations.AtlasReportsFirstBadRegion := by
  unfold Obligations.AtlasReportsFirstBadRegion
  intro s i hinputs hi hbefore
  refine ⟨fun hsize => ?size, fun hsize hout => ?bounds, fun hsize hout hover => ?capacity⟩
  case size => exact exec_atlas_of_fail hinputs hi hbefore (placeOne_of_sizeInvalid hsize)
  case bounds => exact exec_atlas_of_fail hinputs hi hbefore (placeOne_of_outOfRaster hsize hout)
  case capacity => exact exec_atlas_of_fail hinputs hi hbefore (placeOne_of_overCapacity hsize hout hover)

/-! ## What a passing ATLAS leaves of region i -/

section
variable {s t : State} {i : Nat} (hinputs : AtlasInputsOk s) (hpass : RegionsPass s s.regionCount.toNat)
  (hexec : exec .atlas s = .next t) (hi : i < s.regionCount.toNat)
include hinputs hpass hexec hi

/-- DESC[i]'s word k is the descriptor's (R75, R196). -/
theorem memWord_atlas_desc {k : Nat} (hk : k < 8) :
    memWord t (0x4000 + 32 * i + 4 * k) = ((descriptor (placedAt s i))[k]?).getD 0 := by
  obtain ⟨-, hi128, u, hbytes⟩ := atlas_bytes hinputs hpass hexec hi
  rw [← emitRegion_desc s u hi128 hk]
  exact memWord_congr fun c hc => hbytes _ (.inr (.inl (by omega)))

/-- NAME[i] is REGION[i].NAME (R199). -/
theorem memByte_atlas_name {b : Nat} (hb : b < 32) :
    memByte t (0x5000 + 32 * i + b) = memByte s (0x2000 + 64 * i + 16 + b) := by
  obtain ⟨-, hi128, u, hbytes⟩ := atlas_bytes hinputs hpass hexec hi
  rw [← emitRegion_name s u hi128 hb]
  exact hbytes _ (.inr (.inr (by omega)))

/-- Tile j of region i stands j tiles after its WORD_OFFSET (R194, R195). -/
theorem tileAt_atlas {j : Nat} (hj : j < (regionTiles s (placedAt s i)).length) :
    tileAt t (tilesBefore s i + j) = (regionTiles s (placedAt s i))[j] := by
  obtain ⟨hcap, hi128, u, hbytes⟩ := atlas_bytes hinputs hpass hexec hi
  have htiles : tilesBefore s (i + 1) = tilesBefore s i + (regionTiles s (placedAt s i)).length := by
    rw [regionTiles_length]
    rfl
  have hword (m : Nat) (hm : m < 8) :
      tileWord t (8 * (tilesBefore s i + j) + m) = (pack (regionTiles s (placedAt s i))[j])[m] := by
    rw [← emitRegion_tileWord s u hcap hi128 hj hm]
    refine memWord_congr fun c hc => hbytes _ (.inl ?_)
    simp only [Config.tileBufBase]
    omega
  rw [tileAt, ← unpack_pack (regionTiles s (placedAt s i))[j]]
  congr 1
  ext m hm
  simp [hword m hm]

end

/-! ## The descriptor as numbers (R194, R196, R197) -/

theorem toNat_ofNat_of_nonneg {v : Int} (hpos : 0 ≤ v) (hlt : v < 2 ^ 31) :
    ((BitVec.ofNat 32 v.toNat).toNat : Int) = v := by
  rw [BitVec.toNat_ofNat, Nat.mod_eq_of_lt (by omega), Int.toNat_of_nonneg hpos]

/-- Settles O30: DESC[i] is `descriptor`'s eight words, whose values the checks keep below 2^31, and NAME[i] is
REGION[i]'s. -/
theorem atlasDescribesRegions : Obligations.AtlasDescribesRegions := by
  unfold Obligations.AtlasDescribesRegions
  intro s t i hinputs hpass hexec hi code field
  obtain ⟨hsize, hout, hcap⟩ := hpass i hi
  obtain ⟨hw, hh, hwlt, hhlt, -, -⟩ := pass_nonneg hsize hout
  have htotal : tilesBefore s (i + 1) = tilesBefore s i + regTiles s i := rfl
  obtain ⟨d0, d1, d2, d3, d4, d5, d6, d7⟩ := descriptor_words (placedAt s i)
  have hfield {k : Nat} (hk : k < 8) : field k = (((descriptor (placedAt s i))[k]?).getD 0).toNat :=
    congrArg (fun w : Word => (w.toNat : Int)) (memWord_atlas_desc hinputs hpass hexec hi hk)
  have hcode {v : Int} (hv : 0 ≤ v) : ((sizeCode v.toNat).toNat : Int) = code v := by
    rw [sizeCode_toNat, Int.toNat_of_nonneg hv]
  refine ⟨?width, ?height, ?tiles, ?frames, ?offset, ?widthCode, ?heightCode, ?last,
    fun b hb => memByte_atlas_name hinputs hpass hexec hi hb⟩
  case width => rw [hfield (by decide), d0, placedAt_eq, toNat_ofNat_of_nonneg hw hwlt]
  case height => rw [hfield (by decide), d1, placedAt_eq, toNat_ofNat_of_nonneg hh hhlt]
  case tiles => rw [hfield (by decide), d2, placedAt_tiles, BitVec.toNat_ofNat, Nat.mod_eq_of_lt (by omega)]
  case frames => rw [hfield (by decide), d3]; rfl
  case offset =>
    have hlt : 8 * tilesBefore s i < 2 ^ 32 := by omega
    rw [hfield (by decide), d4, placedAt_eq, BitVec.toNat_ofNat, Nat.mod_eq_of_lt hlt]
    exact Nat.cast_mul ..
  case widthCode => rw [hfield (by decide), d5, placedAt_eq, hcode hw]
  case heightCode => rw [hfield (by decide), d6, placedAt_eq, hcode hh]
  case last => rw [hfield (by decide), d7]; rfl

/-- Settles O31: tile (tr, tc) is number tr · (w div 8) + tc of the region's list, and that list is stored from
WORD_OFFSET on. -/
theorem atlasEmitsTilesRowMajor : Obligations.AtlasEmitsTilesRowMajor := by
  unfold Obligations.AtlasEmitsTilesRowMajor
  intro s t i tr tc hinputs hpass hexec hi htr htc
  obtain ⟨hj, htile⟩ := List.getElem?_eq_some_iff.mp (regionTiles_get s (placedAt s i) htr htc)
  calc tileAt t (tilesBefore s i + tr * ((regW s i).toNat / 8) + tc)
      = tileAt t (tilesBefore s i + ((placedAt s i).w / 8 * tr + tc)) := by
        rw [Nat.add_assoc, Nat.mul_comm tr, placedAt_eq]
    _ = (regionTiles s (placedAt s i))[(placedAt s i).w / 8 * tr + tc] := tileAt_atlas hinputs hpass hexec hi hj
    _ = block s ((regX s i).toNat + 8 * tc) ((regY s i).toNat + 8 * tr) := by rw [htile, placedAt_eq]

/-! ## FIND (R200) -/

theorem findName_eq_some_iff {s : State} {i : Nat} :
    findName s = some i ↔ nameMatches s i = true ∧ i < s.nameCount.toNat ∧ ∀ j < i, ¬ nameMatches s j = true := by
  simp [findName, List.find?_range_eq_some]

theorem findName_eq_none_iff {s : State} :
    findName s = none ↔ ∀ i < s.nameCount.toNat, ¬ nameMatches s i = true := by
  simp [findName]

/-- Settles O32: OPC 0x08 is a plain command's, and `findName` is the search for the lowest match, whose index a halfword
bounds. -/
theorem findReturnsFirstMatch : Obligations.FindReturnsFirstMatch := by
  unfold Obligations.FindReturnsFirstMatch
  refine ⟨onlyCommandWord_of_plain (fun v hv => decodeWord_opc8 (hv.trans (by decide))) (by decide) (by decide),
    fun s => ⟨_, exec_of_ok rfl, rfl, ?_⟩⟩
  simp only [← nameMatches_iff, completeOk_result]
  cases hfind : findName s with
  | some i =>
    obtain ⟨hmatch, hi, hlowest⟩ := findName_eq_some_iff.mp hfind
    have hcount := s.nameCount.isLt
    refine .inl ⟨i, hi, hmatch, hlowest, ?_⟩
    rw [BitVec.toNat_ofNat, Nat.mod_eq_of_lt (by omega)]
  | none => exact .inr ⟨findName_eq_none_iff.mp hfind, rfl⟩

end Sys2Proof.Machine
end

section
/-! How a command ends (R40, R220, R224), and the interrupt output that tells the host of it (R229). -/

namespace Sys2Proof.Machine

/-! ## The end of a command -/

/-- STATUS and the error registers are outside every command's "writes" column (R109). -/
theorem commandBody_status_err {i : Instr} {s t : State} (h : commandBody i s = .ok t) :
    t.status = s.status ∧ t.errCode = s.errCode ∧ t.errArg0 = s.errArg0 ∧ t.errArg1 = s.errArg1 ∧
      t.errArg2 = s.errArg2 := by
  obtain ⟨_, _, _, _, _, _, _, _, _, _, _, _, rfl⟩ := commandBody_frame h
  exact ⟨rfl, rfl, rfl, rfl, rfl⟩

theorem completeOk_doneStatus {s t : State} (h : t.status = s.status) : (completeOk t).status = doneStatus s := by
  rw [completeOk_status, h, doneStatus]

/-- Settles O11: a command that completes leaves STATUS and the error registers to `completeOk`, and one that fails leaves
the state before it to `raiseError`. -/
theorem errorsArePrecise : Obligations.ErrorsArePrecise := by
  unfold Obligations.ErrorsArePrecise
  intro i s
  obtain ⟨u, hbody, hexec⟩ | ⟨e, -, hexec⟩ := exec_cases i s
  · obtain ⟨hstatus, herr⟩ := commandBody_status_err hbody
    exact ⟨completeOk u, hexec, .inl ⟨completeOk_doneStatus hstatus, herr⟩⟩
  · exact ⟨raiseError e s, hexec, .inr ⟨_, _, _, _, raiseError_eq e s⟩⟩

/-! ## The interrupt output (R229) -/

/-- The flags and enables of IRQ are bits of the STATUS and CTRL words (R23, R24). -/
theorem irq_eq_words (s : State) :
    s.irq =
      (((readReg s .status).getLsbD 1 && (readReg s .ctrl).getLsbD 0) ||
        ((readReg s .status).getLsbD 2 && (readReg s .ctrl).getLsbD 1)) := by
  obtain ⟨hdone, herror⟩ := statusWord_bits s.status
  obtain ⟨hieDone, hieErr⟩ := ctrlWord_bits s.ctrl
  rw [readReg, readReg, hdone, herror, hieDone, hieErr, State.irq]

/-- Whatever is enabled, IRQ needs DONE or ERROR. -/
theorem irq_of_flags_clear {s : State} (hdone : s.status.done = false) (herror : s.status.error = false) :
    s.irq = false := by
  simp [State.irq, hdone, herror]

/-- Settles O42: IRQ's terms are bits of the two words; RST clears DONE and ERROR, and acceptance, which needs ERROR 0,
clears DONE. -/
theorem interruptOutput : Obligations.InterruptOutput := by
  unfold Obligations.InterruptOutput
  refine ⟨irq_eq_words, fun s => irq_of_flags_clear rfl rfl, fun s w hbusy herror => ?accepted⟩
  case accepted =>
    rw [hostWrite_cmd, offerCommand_of_ready w hbusy herror]
    exact irq_of_flags_clear rfl herror

end Sys2Proof.Machine
end

section
/-! Power-on reset (R251): the register values, and the commands that reject the empty raster it leaves. -/

namespace Sys2Proof.Machine

/-! ## A raster of width 0 fails every geometry test (R130, R170, R191) -/

theorem not_rasterOk_of_imgW_zero {s : State} (h : s.imgW = 0) (maxW maxH : Nat) : ¬ RasterOk s maxW maxH := by
  rintro ⟨hpos, -⟩
  simp [h] at hpos

theorem not_backgroundOk_of_imgW_zero {s : State} (h : s.imgW = 0) : ¬ BackgroundOk s := by
  rintro ⟨-, -, -, -, hpos, -⟩
  simp [h] at hpos

/-- ATLAS tests the raster before it looks at a region (R191). -/
theorem packAtlas_of_bad {s : State} (h : ¬ RasterOk s s.rasterMaxW s.rasterMaxH) :
    packAtlas s = .error (geometryError .invalidGeometry s) := by
  have hbad : rasterOk s s.rasterMaxW s.rasterMaxH = false := Bool.eq_false_iff.mpr (mt (rasterOk_iff _ _ _).mp h)
  exact if_pos (by rw [hbad, Bool.not_false])

/-- A geometry check that fails latches its code, no region, IMG_W and IMG_H (R225). -/
theorem exec_of_geometryError (i : Instr) {s : State} {kind : ErrKind}
    (h : commandBody i s = .error (geometryError kind s)) :
    exec i s = .next (errorState s (errCodeOf kind) 0xFFFFFFFF (s.imgW.setWidth 32) (s.imgH.setWidth 32)) :=
  exec_of_error h

/-! ## The block right after reset -/

/-- Settles O43: every register's value is a constant of `State.powerOn` or of Config, and IMG_W = 0 fails the geometry
test of every command that has one. -/
theorem resetRegisterValues : Obligations.ResetRegisterValues := by
  unfold Obligations.ResetRegisterValues
  have hraster := not_rasterOk_of_imgW_zero (s := State.reset) rfl
  have hbackground := not_backgroundOk_of_imgW_zero (s := State.reset) rfl
  refine ⟨rfl, rfl, rfl, rfl, rfl, rfl, rfl, rfl, rfl, rfl, rfl, rfl, rfl, rfl, rfl, rfl, rfl, rfl, rfl, rfl, rfl,
    rfl, rfl, ?quantBg, ?quantAtlas, ?bgtile, ?bgtileRemap, ?atlas⟩
  case quantBg => exact exec_of_geometryError .quantBg (quantize_of_bad (hraster _ _))
  case quantAtlas => exact exec_of_geometryError .quantAtlas (quantize_of_bad (hraster _ _))
  case bgtile => exact exec_of_geometryError .bgtile (backgroundTiles_of_bad hbackground)
  case bgtileRemap => exact exec_of_geometryError .bgtileRemap (backgroundTiles_of_bad hbackground)
  case atlas => exact exec_of_geometryError .atlas (packAtlas_of_bad (hraster _ _))

end Sys2Proof.Machine
end

section
/-! The command encoding: the decoder and the encoder undo each other (R100, R104, R110, R113). -/

namespace Sys2Proof

/-- A length command's word gives back the command with its LEN (R103, R113). -/
theorem lengthCommand_of_flags {w : Word} (i : BitVec 16 → Instr) (h : flagsOf w = 0) :
    lengthCommand w i = i (immOf w) := if_pos h

/-- Decoding the word of a well-formed instruction gives it back (R104, R113). -/
theorem decodeWord_encode {i : Instr} (h : i.wellFormed = true) : decodeWord (encode i) = i := by
  cases i with
  | tpack len =>
    obtain ⟨hopc, hflags, himm⟩ := tpack_fields len
    rw [decodeWord_opc4 hopc, lengthCommand_of_flags _ hflags, himm]
  | tunpack len =>
    obtain ⟨hopc, hflags, himm⟩ := tunpack_fields len
    rw [decodeWord_opc5 hopc, lengthCommand_of_flags _ hflags, himm]
  | illegal w => exact (decodeWord_eq_illegal_iff w).mpr ((Bool.not_eq_true' _).mp h)
  | _ => decide

/-- A list that begins with a word's bytes decodes to that word's command and the rest (R62, R108). -/
theorem decodeBytes_wordBytes (w : Word) (rest : List Byte) :
    decodeBytes (wordBytes w ++ rest) = .ok (decodeWord w, rest) := by
  simp only [wordBytes, List.cons_append, List.nil_append, decodeBytes, Machine.word_of_bytes]

/-- Settles O2: the bytes of a word decode as the word does, and the word by its constructor, the operand or the illegal
word being a field of it. -/
theorem encodeThenDecode : Obligations.EncodeThenDecode := by
  unfold Obligations.EncodeThenDecode
  refine fun i hwf => ⟨decodeWord_encode hwf, fun rest => ?bytes⟩
  case bytes => rw [encodeBytes, decodeBytes_wordBytes, decodeWord_encode hwf]

/-- The decoder answers the illegal row only for words outside the opcode map (R106). -/
theorem decodeWord_wellFormed (w : Word) : (decodeWord w).wellFormed = true := by
  rcases decodeWord_cases w with ⟨-, -, -, hd⟩ | ⟨-, -, -, hd⟩ | ⟨-, -, -, hd⟩ | ⟨-, -, -, hd⟩ | ⟨-, -, hd⟩ |
    ⟨-, -, hd⟩ | ⟨-, -, -, hd⟩ | ⟨-, -, -, hd⟩ | ⟨-, -, -, hd⟩ | ⟨-, -, -, hd⟩ | ⟨hl, hd⟩
  case inr.inr.inr.inr.inr.inr.inr.inr.inr.inr => simp [hd, Instr.wellFormed, hl]
  all_goals rw [hd]; rfl

/-- Encoding what a word decodes to gives the word back: each command's word has the fields decoded (R100, R113). -/
theorem encode_decodeWord (w : Word) : encode (decodeWord w) = w := by
  rcases decodeWord_cases w with ⟨ho, hf, hm, hd⟩ | ⟨ho, hf, hm, hd⟩ | ⟨ho, hf, hm, hd⟩ | ⟨ho, hf, hm, hd⟩ |
    ⟨ho, hf, hd⟩ | ⟨ho, hf, hd⟩ | ⟨ho, hf, hm, hd⟩ | ⟨ho, hf, hm, hd⟩ | ⟨ho, hf, hm, hd⟩ | ⟨ho, hf, hm, hd⟩ |
    ⟨-, hd⟩ <;> rw [hd]
  case inr.inr.inr.inr.inl =>
    obtain ⟨hopc, hflags, himm⟩ := tpack_fields (immOf w)
    exact word_ext_fields (hopc.trans ho.symm) (hflags.trans hf.symm) himm
  case inr.inr.inr.inr.inr.inl =>
    obtain ⟨hopc, hflags, himm⟩ := tunpack_fields (immOf w)
    exact word_ext_fields (hopc.trans ho.symm) (hflags.trans hf.symm) himm
  case inr.inr.inr.inr.inr.inr.inr.inr.inr.inr => rfl
  all_goals
    refine word_ext_fields (Eq.trans ?_ ho.symm) (Eq.trans ?_ hf.symm) (Eq.trans ?_ hm.symm) <;> decide

/-- Settles O3: every case of the decoder is well-formed and has the word's own fields. -/
theorem decodeThenEncode : Obligations.DecodeThenEncode := by
  unfold Obligations.DecodeThenEncode
  exact fun w => ⟨decodeWord_wellFormed w, encode_decodeWord w⟩

/-- Settles O1: eighteen closed words, each run through the decoder. -/
theorem opcodeMapWordsDecode : Obligations.OpcodeMapWordsDecode := by
  unfold Obligations.OpcodeMapWordsDecode
  decide

end Sys2Proof
end

section
/-! What a command can raise (R222) and what it can write (R109), command by command. -/

namespace Sys2Proof.Machine

/-! ## The error codes of each command (R222) -/

/-- A command that ends with an ERROR it did not begin with has raised one of its error kinds. -/
theorem exec_error_kind {i : Instr} {s t : State} (hs : s.status.error = false) (hexec : exec i s = .next t)
    (ht : t.status.error = true) : ∃ k ∈ mayRaise i, t.errCode = errCodeOf k := by
  obtain ⟨u, hbody, h⟩ | ⟨e, hbody, h⟩ := exec_cases i s <;> obtain rfl := Host.Outcome.next.inj (hexec.symm.trans h)
  · obtain ⟨hstatus, -⟩ := commandBody_status_err hbody
    rw [completeOk_status, hstatus, hs] at ht
    cases ht
  · exact ⟨e.kind, commandBody_error_kind hbody, rfl⟩

/-- Settles O12: the code is that of a kind `mayRaise` lists for the decoded command, and the decoder's case fixes the
OPC. -/
theorem errorCodesOfEachCommand : Obligations.ErrorCodesOfEachCommand := by
  unfold Obligations.ErrorCodesOfEachCommand
  intro w s t hs hexec ht opc
  obtain ⟨k, hk, hcode⟩ := exec_error_kind hs hexec ht
  have hopc : opc = (opcOf w).toNat := rfl
  rw [hopc, hcode]
  rcases decodeWord_cases w with ⟨ho, -, -, hd⟩ | ⟨ho, -, -, hd⟩ | ⟨ho, -, -, hd⟩ | ⟨ho, -, -, hd⟩ | ⟨ho, -, hd⟩ |
    ⟨ho, -, hd⟩ | ⟨ho, -, -, hd⟩ | ⟨ho, -, -, hd⟩ | ⟨ho, -, -, hd⟩ | ⟨ho, -, -, hd⟩ | ⟨-, hd⟩ <;>
    rw [hd] at hk
  case inr.inr.inr.inr.inr.inr.inr.inr.inr.inr =>
    obtain rfl := List.mem_singleton.mp hk
    simp [errCodeOf]
  all_goals
    rw [ho]
    clear hcode
    dsimp only [mayRaise] at hk
    revert k
    decide

/-! ## The "writes" column (R109) -/

/-- The registers and register files outside a command's "writes" column are as they were. -/
def ColumnsKept (i : Instr) (s t : State) : Prop :=
  (i ≠ .encrgb → i ≠ .find → t.result = s.result) ∧
  (i ≠ .quantBg → i ≠ .quantAtlas → t.palCount = s.palCount) ∧
  (i ≠ .quantBg → i ≠ .quantAtlas → i ≠ .bgtileRemap → t.pal = s.pal) ∧
  (i ≠ .encpal → t.palw = s.palw) ∧
  ((∀ len, i ≠ .tpack len) → t.tword = s.tword) ∧
  ((∀ len, i ≠ .tunpack len) → t.tidx = s.tidx) ∧
  (i ≠ .bgtile → i ≠ .bgtileRemap → t.cam = s.cam ∧ t.mapCount = s.mapCount) ∧
  (i ≠ .bgtile → i ≠ .bgtileRemap → i ≠ .atlas → t.tileCount = s.tileCount ∧ t.wordCount = s.wordCount) ∧
  (i ≠ .atlas → t.nameCount = s.nameCount)

/-- A command that completes keeps what is outside its column. -/
theorem commandBody_columns {i : Instr} {s t : State} (h : commandBody i s = .ok t) : ColumnsKept i s t := by
  unfold ColumnsKept
  cases i with
  | quantBg => obtain ⟨-, rfl⟩ := quantize_ok h; simp
  | quantAtlas => obtain ⟨-, rfl⟩ := quantize_ok h; simp
  | encpal => obtain rfl := Except.ok.inj h; simp
  | encrgb => obtain rfl := Except.ok.inj h; simp
  | tpack len =>
    by_cases hlen : len = 64
    · obtain rfl := Except.ok.inj ((if_pos hlen).symm.trans h); simp
    · cases (if_neg hlen).symm.trans h
  | tunpack len =>
    by_cases hlen : len = 32
    · obtain rfl := Except.ok.inj ((if_pos hlen).symm.trans h); simp
    · cases (if_neg hlen).symm.trans h
  | bgtile => obtain ⟨-, rfl⟩ := backgroundTiles_ok h; simp [tileBackground_eq]
  | bgtileRemap =>
    obtain ⟨-, rfl⟩ := backgroundTiles_ok h
    rw [if_pos rfl, tileBackground_eq, remap_eq]
    simp
  | atlas => obtain ⟨-, -, rfl⟩ := packAtlas_eq h; simp [emitAtlas_eq]
  | find => obtain rfl := Except.ok.inj h; simp
  | illegal w => cases h

theorem columnsKept_raiseError (i : Instr) (e : CmdError) (s : State) : ColumnsKept i s (raiseError e s) := by
  simp [ColumnsKept]

/-- Memory unchanged outside some ranges is unchanged outside ranges that cover them. -/
theorem memSameOutside_mono {s t : State} {l m : List (Nat × Nat)} (h : MemSameOutside s t l)
    (hcover : ∀ r ∈ l, ∃ q ∈ m, q.1 ≤ r.1 ∧ r.1 + r.2 ≤ q.1 + q.2) : MemSameOutside s t m := by
  refine fun a ha => h a fun r hr hin => ?_
  obtain ⟨q, hq, hlo, hhi⟩ := hcover r hr
  exact ha q hq (by omega)

/-- Settles O13: a completing command changes the fields `commandBody_frame` lists and stores in its ranges, and an
error changes STATUS and the error registers alone. -/
theorem commandsWriteOnlyTheirColumn : Obligations.CommandsWriteOnlyTheirColumn := by
  unfold Obligations.CommandsWriteOnlyTheirColumn
  intro i s t hcfg hexec
  obtain ⟨u, hbody, h⟩ | ⟨e, -, h⟩ := exec_cases i s <;> obtain rfl := Host.Outcome.next.inj (hexec.symm.trans h)
  · have hcolumns : ColumnsKept i s u := commandBody_columns hbody
    have hmem : MemSameOutside s u (writableRanges s i) :=
      memSameOutside_mono (commandBody_memSame hbody) (storedRanges_writable hcfg hbody)
    refine ⟨?fields, hmem, hcolumns⟩
    case fields =>
      obtain ⟨_, _, _, _, _, _, _, _, _, _, _, _, rfl⟩ := commandBody_frame hbody
      rfl
  · exact ⟨rfl, fun a _ => memByte_congr rfl rfl a, columnsKept_raiseError i e s⟩

end Sys2Proof.Machine
end

section
/-! The invariants every step keeps: what a register write, a window write and an aborted command can change, then one
proof for each invariant through `step_keeps`. -/

namespace Sys2Proof.Machine

/-! ## What a register write can change -/

/-- A STATUS write changes the flags and the error registers alone (R24, R226). -/
theorem writeStatus_frame (v : Word) (s : State) :
    ∃ t c a0 a1 a2,
      writeStatus v s = { s with status := t, errCode := c, errArg0 := a0, errArg1 := a1, errArg2 := a2 } := by
  unfold writeStatus
  cases v.getLsbD 2 <;> exact ⟨_, _, _, _, _, rfl⟩

theorem offerCommand_frame (w : Word) (s : State) : ∃ c t, offerCommand w s = { s with cmd := c, status := t } := by
  unfold offerCommand
  split <;> exact ⟨_, _, rfl⟩

/-- A register write is a soft reset, or it changes writable registers and the error registers alone (R23-R36). -/
theorem writeReg_cases (v : Word) (s : State) (r : Reg) :
    writeReg v s r = softReset s ∨
    ∃ c t w k a0 a1 a2 iw ih mw mh n g, writeReg v s r =
      { s with
        ctrl := c, status := t, cmd := w, errCode := k, errArg0 := a0, errArg1 := a1, errArg2 := a2
        imgW := iw, imgH := ih, mapW := mw, mapH := mh, regionCount := n, arg0 := g } := by
  cases r
  case ctrl =>
    rw [writeReg, writeCtrl]
    split
    · exact .inl rfl
    · exact .inr ⟨_, _, _, _, _, _, _, _, _, _, _, _, _, rfl⟩
  case status =>
    obtain ⟨_, _, _, _, _, h⟩ := writeStatus_frame v s
    exact .inr ⟨_, _, _, _, _, _, _, _, _, _, _, _, _, h⟩
  case cmd =>
    obtain ⟨_, _, h⟩ := offerCommand_frame v s
    exact .inr ⟨_, _, _, _, _, _, _, _, _, _, _, _, _, h⟩
  all_goals exact .inr ⟨_, _, _, _, _, _, _, _, _, _, _, _, _, rfl⟩

/-- STATUS and the error registers change only by a soft reset, a STATUS write and a CMD write. -/
theorem writeReg_status_cases (v : Word) (s : State) (r : Reg) :
    writeReg v s r = softReset s ∨ writeReg v s r = writeStatus v s ∨ writeReg v s r = offerCommand v s ∨
    ((writeReg v s r).status = s.status ∧ (writeReg v s r).errCode = s.errCode ∧ (writeReg v s r).errArg0 = s.errArg0 ∧
      (writeReg v s r).errArg1 = s.errArg1 ∧ (writeReg v s r).errArg2 = s.errArg2) := by
  cases r
  case ctrl =>
    rw [writeReg, writeCtrl]
    split
    · exact .inl rfl
    · exact .inr (.inr (.inr ⟨rfl, rfl, rfl, rfl, rfl⟩))
  case status => exact .inr (.inl rfl)
  case cmd => exact .inr (.inr (.inl rfl))
  all_goals exact .inr (.inr (.inr ⟨rfl, rfl, rfl, rfl, rfl⟩))

/-! ## What becomes of the memory -/

/-- A property of memories that a completing soft reset keeps: the abort's writes and draws keep it (R255). -/
theorem softReset_mem {P : Memory → Prop} {s : State} (h : P s.mem)
    (hnibs : ∀ f, P (setNibs s f (quantPixels s)).mem) (hforget : ∀ m win, P m → P (memForget m win)) :
    P (softReset s).mem := by
  have hmem : (softReset s).mem = (abortCommand s).mem := rfl
  rw [hmem]
  cases hbusy : s.status.busy with
  | false => rwa [abortCommand_idle hbusy]
  | true =>
    rw [abortCommand_busy hbusy]
    exact drawOutputs_mem h hnibs hforget

/-- A property of memories that a register write keeps. -/
theorem writeReg_mem {P : Memory → Prop} {s : State} (v : Word) (r : Reg) (h : P s.mem)
    (hnibs : ∀ f, P (setNibs s f (quantPixels s)).mem) (hforget : ∀ m win, P m → P (memForget m win)) :
    P (writeReg v s r).mem := by
  obtain hr | ⟨_, _, _, _, _, _, _, _, _, _, _, _, _, hr⟩ := writeReg_cases v s r <;> rw [hr]
  · exact softReset_mem h hnibs hforget
  · exact h

/-- A property of memories that a window write keeps: it stores single bytes in REGION, IDX and SRC RAM (R62). -/
theorem writeBytes_mem {P : Memory → Prop} {s : State} {a n : Nat} (v : Word) (h : P s.mem)
    (hstore : ∀ m k b, k < n → windowOf (a + k) = .region ∨ windowOf (a + k) = .idx ∨ windowOf (a + k) = .src → P m →
      P (memWrite m (a + k) [b])) :
    P (writeBytes s a v n).mem := by
  induction n with
  | zero => exact h
  | succ n ih =>
    have ih := ih fun m k b hk => hstore m k b (by omega)
    rw [writeBytes, writeByte_mem]
    split
    case isTrue hwin => exact hstore _ n _ (Nat.lt_succ_self n) hwin ih
    case isFalse => exact ih

/-! ## The canonical form (R74, V15) -/

/-- Settles O49: every write to the memory is a `memWrite`, every draw a `memForget`, and RST empties it. -/
theorem stepKeepsMemoryCanonical : Obligations.StepKeepsMemoryCanonical := by
  unfold Obligations.StepKeepsMemoryCanonical
  refine step_keeps (P := fun s => Memory.wf s.mem) (fun _ _ h => h) (fun _ _ h => h) ?command (fun _ _ _ h _ _ => h)
    (fun _ h => h) ?register ?window (fun _ _ => nil_wf)
  case command =>
    exact fun i s t h _ hbody => commandBody_mem (P := Memory.wf) (t := t) hbody h fun m base bs hm _ =>
      memWrite_wf hm base bs
  case register =>
    exact fun s v r h => writeReg_mem v r h (fun f => memWrite_wf h _ _) fun m win hm => memForget_wf hm win
  case window => exact fun s w a v h _ _ _ _ => writeBytes_mem v h fun m k b _ _ hm => memWrite_wf hm _ _

/-! ## The physical memories (R44, R65) -/

/-- Every cell lies in one of the memories of the state's CFG0. -/
def CellsInRam (s : State) (m : Memory) : Prop := ∀ c ∈ m, ramByte s c.1 = true

theorem cellsInRam_congr {s t : State} {m : Memory} (h : t.cfg0 = s.cfg0) : CellsInRam t m ↔ CellsInRam s m := by
  simp only [CellsInRam, ramByte_congr h]

theorem cfgValid_congr {s t : State} (h : t.cfg0 = s.cfg0) : CfgValid t ↔ CfgValid s := by
  simp only [CfgValid, State.rasterMaxW, State.rasterMaxH, h]

theorem cellsInRam_memWrite {s : State} {m : Memory} {base : Nat} {bs : List Byte} (h : CellsInRam s m)
    (hstore : ∀ a, base ≤ a → a < base + bs.length → ramByte s a = true) : CellsInRam s (memWrite m base bs) := by
  intro c hc
  obtain hold | ⟨hlo, hhi⟩ := memWrite_mem hc
  · exact h c hold
  · exact hstore _ hlo hhi

theorem cellsInRam_memForget {s : State} {m : Memory} (win : Window) (h : CellsInRam s m) :
    CellsInRam s (memForget m win) := fun c hc => h c (memForget_mem hc)

/-- An accepted access to REGION, IDX or SRC RAM lies in the physical memory (R65). -/
theorem ramByte_of_accessOk {s : State} {w : Width} {a k : Nat} (hok : accessOk s w a = true) (hk : k < w.bytes)
    (hwin : windowOf (a + k) = .region ∨ windowOf (a + k) = .idx ∨ windowOf (a + k) = .src) :
    ramByte s (a + k) = true := by
  simp only [accessOk, Bool.and_eq_true, beq_iff_eq] at hok
  obtain ⟨⟨halign, hmapped⟩, -⟩ := hok
  have hsame := windowOf_access halign hk
  obtain h | h | h := hwin <;> simp only [offsetMapped, hsame.symm.trans h, decide_eq_true_eq] at hmapped <;>
    rw [ramByte, h]
  · exact decide_eq_true (by omega)
  · exact decide_eq_true (by omega)

/-- The pixels an aborted QUANT could write lie in the physical IDX RAM (R109, R255). -/
theorem cellsInRam_quantPixels {s : State} (hcfg : CfgValid s) (h : CellsInRam s s.mem) (f : Nat → Nib) :
    CellsInRam s (setNibs s f (quantPixels s)).mem := by
  refine cellsInRam_memWrite h fun a hlo hhi => ?_
  have heven := idxBytes_even hcfg
  obtain ⟨-, -, -, -, -, -, hmax⟩ := hcfg
  have hbase : Config.idxBase = 0x20000 := rfl
  rw [nibBytes_length, quantPixels] at hhi
  rw [ramByte, windowOf_eq_idx.mpr (by omega)]
  exact decide_eq_true (by omega)

theorem writeReg_cfg0 (v : Word) (s : State) (r : Reg) : (writeReg v s r).cfg0 = s.cfg0 := by
  obtain hr | ⟨_, _, _, _, _, _, _, _, _, _, _, _, _, hr⟩ := writeReg_cases v s r <;> rw [hr]
  obtain ⟨_, _, _, _, _, _, _, -, ha⟩ := abortCommand_frame s
  rw [softReset_eq, ha]
  rfl

theorem writeBytes_cfg0 (s : State) (a : Nat) (v : Word) (n : Nat) : (writeBytes s a v n).cfg0 = s.cfg0 := by
  obtain ⟨_, _, _, _, _, h⟩ := writeBytes_frame s a v n
  rw [h]

theorem commandBody_cfg0 {i : Instr} {s t : State} (h : commandBody i s = .ok t) : t.cfg0 = s.cfg0 := by
  obtain ⟨_, _, _, _, _, _, _, _, _, _, _, _, rfl⟩ := commandBody_frame h
  rfl

/-- Settles O54: with CFG0 fixed the memories' sizes are, and every store is inside them: a command's by
`storedRanges_inRam`, a window write's by its acceptance, an aborted QUANT's by the clip of log 3. -/
theorem stepKeepsMemoryInRam : Obligations.StepKeepsMemoryInRam := by
  unfold Obligations.StepKeepsMemoryInRam
  intro s t hcfg hram hstep
  suffices h : t.cfg0 = s.cfg0 ∧ CellsInRam s t.mem from ⟨(cellsInRam_congr h.1).mpr h.2, h.1⟩
  refine step_keeps (P := fun u => u.cfg0 = s.cfg0 ∧ CellsInRam s u.mem) (fun _ _ h => h) (fun _ _ h => h) ?command
    (fun _ _ _ h _ _ => h) (fun _ h => h) ?register ?window (fun _ h => ⟨h.1, nofun⟩) s t ⟨rfl, hram⟩ hstep
  case command =>
    rintro i u u' ⟨hu, hmem⟩ - hbody
    refine ⟨(commandBody_cfg0 hbody).trans hu, commandBody_mem (t := u') hbody hmem fun m base bs hm hin => ?_⟩
    refine cellsInRam_memWrite hm fun a hlo hhi => ?_
    obtain ⟨r, hr, hr1, hr2⟩ := hin
    rw [← ramByte_congr hu]
    exact storedRanges_inRam ((cfgValid_congr hu).mpr hcfg) hbody hr (by omega) (by omega)
  case register =>
    rintro u v r ⟨hu, hmem⟩
    have hnibs := cellsInRam_quantPixels ((cfgValid_congr hu).mpr hcfg) ((cellsInRam_congr hu).mpr hmem)
    exact ⟨(writeReg_cfg0 v u r).trans hu, writeReg_mem v r hmem (fun f => (cellsInRam_congr hu).mp (hnibs f))
      fun m win => cellsInRam_memForget win⟩
  case window =>
    rintro u w a v ⟨hu, hmem⟩ - hok - -
    refine ⟨(writeBytes_cfg0 u a v w.bytes).trans hu, writeBytes_mem v hmem fun m k b hk hwin hm => ?_⟩
    refine cellsInRam_memWrite hm fun c hlo hhi => ?_
    obtain rfl : c = a + k := by simp only [List.length_singleton] at hhi; omega
    rw [← ramByte_congr hu]
    exact ramByte_of_accessOk hok hk hwin

end Sys2Proof.Machine
end

section
/-! The invariants of the flags, the error registers, the counters, the CAM and the draws. -/

namespace Sys2Proof.Machine

/-! ## The handshake (R24, R39) -/

theorem handshakeOk_congr {s t : State} (h : t.status = s.status) (hs : HandshakeOk s) : HandshakeOk t := by
  rwa [HandshakeOk, h]

theorem writeBytes_status (s : State) (a : Nat) (v : Word) (n : Nat) : (writeBytes s a v n).status = s.status := by
  obtain ⟨_, _, _, _, _, h⟩ := writeBytes_frame s a v n
  rw [h]

/-- Clearing flags keeps the handshake. -/
theorem handshakeOk_writeStatus {s : State} (v : Word) (h : HandshakeOk s) : HandshakeOk (writeStatus v s) := by
  obtain ⟨hexcl, hbusy⟩ := h
  rw [HandshakeOk, writeStatus_status]
  refine ⟨?exclusive, fun hb => ?pending⟩
  case exclusive =>
    cases hdone : s.status.done with
    | false => simp
    | true =>
      have herror : s.status.error = false := by rwa [hdone, Bool.true_and] at hexcl
      simp [herror]
  case pending =>
    obtain ⟨hdone, herror⟩ := hbusy hb
    simp [hdone, herror]

/-- An accepted command clears DONE and needs ERROR = 0; a discarded one sets CMDREJ alone (R39). -/
theorem handshakeOk_offerCommand {s : State} (w : Word) (h : HandshakeOk s) : HandshakeOk (offerCommand w s) := by
  by_cases hblocked : s.status.busy = true ∨ s.status.error = true
  · rw [offerCommand_of_busy_or_error w hblocked]
    exact h
  · obtain ⟨hbusy, herror⟩ := not_or.mp hblocked
    rw [offerCommand_of_ready w (Bool.eq_false_iff.mpr hbusy) (Bool.eq_false_iff.mpr herror)]
    exact ⟨rfl, fun _ => ⟨rfl, Bool.eq_false_iff.mpr herror⟩⟩

/-- Settles O50: a command begins with DONE and ERROR 0 and ends with one of them set and BUSY 0; acceptance is the only
other way to BUSY. -/
theorem stepKeepsHandshake : Obligations.StepKeepsHandshake := by
  unfold Obligations.StepKeepsHandshake
  refine step_keeps (P := HandshakeOk) (fun _ _ h => h) (fun _ _ h => h) ?complete ?error (fun _ h => h) ?register
    ?window (fun _ _ => ⟨rfl, nofun⟩)
  case complete =>
    intro i s t h hbusy hbody
    obtain ⟨hstatus, -⟩ := commandBody_status_err hbody
    obtain ⟨-, herror⟩ := h.2 hbusy
    simp [HandshakeOk, hstatus, herror]
  case error =>
    rintro i s e h hbusy -
    obtain ⟨hdone, -⟩ := h.2 hbusy
    simp [HandshakeOk, hdone]
  case register =>
    intro s v r h
    obtain hr | hr | hr | ⟨hr, -⟩ := writeReg_status_cases v s r
    · rw [hr]
      exact ⟨rfl, nofun⟩
    · rw [hr]
      exact handshakeOk_writeStatus v h
    · rw [hr]
      exact handshakeOk_offerCommand v h
    · exact handshakeOk_congr hr h
  case window => exact fun s w a v h _ _ _ _ => handshakeOk_congr (writeBytes_status s a v w.bytes) h

/-! ## The error latch (R26, R27, R221) -/

theorem errorLatchOk_congr {s t : State} (herror : t.status.error = s.status.error) (hcode : t.errCode = s.errCode)
    (h0 : t.errArg0 = s.errArg0) (h1 : t.errArg1 = s.errArg1) (h2 : t.errArg2 = s.errArg2) (hs : ErrorLatchOk s) :
    ErrorLatchOk t := by
  rwa [ErrorLatchOk, herror, hcode, h0, h1, h2]

/-- The codes of the errors a command can raise (R221). -/
theorem errCodeOf_mem {i : Instr} {k : ErrKind} (h : k ∈ mayRaise i) :
    errCodeOf k ∈ ([0x01, 0x02, 0x03, 0x04, 0x05, 0x07, 0x08] : List (BitVec 8)) := by
  cases k with
  | none => cases i <;> simp [mayRaise] at h
  | manifestMalformed => cases i <;> simp [mayRaise] at h
  | _ => decide

theorem errorLatchOk_writeStatus {s : State} (v : Word) (h : ErrorLatchOk s) : ErrorLatchOk (writeStatus v s) := by
  unfold writeStatus
  cases v.getLsbD 2 with
  | true => exact ⟨fun _ => ⟨rfl, rfl, rfl, rfl⟩, nofun⟩
  | false => exact errorLatchOk_congr rfl rfl rfl rfl rfl h

theorem errorLatchOk_offerCommand {s : State} (w : Word) (h : ErrorLatchOk s) : ErrorLatchOk (offerCommand w s) := by
  unfold offerCommand
  split <;> exact errorLatchOk_congr rfl rfl rfl rfl rfl h

theorem errorLatchOk_writeBytes {s : State} (a : Nat) (v : Word) (n : Nat) (h : ErrorLatchOk s) :
    ErrorLatchOk (writeBytes s a v n) := by
  obtain ⟨_, _, _, _, _, hs⟩ := writeBytes_frame s a v n
  rw [hs]
  exact h

/-- Settles O51: an error latches a code `mayRaise` admits, and what clears ERROR clears the error registers with it. -/
theorem stepKeepsErrorLatch : Obligations.StepKeepsErrorLatch := by
  unfold Obligations.StepKeepsErrorLatch
  refine step_keeps (P := ErrorLatchOk) (fun _ _ h => h) (fun _ _ h => h) ?complete ?error (fun _ h => h) ?register
    (fun s w a v h _ _ _ _ => errorLatchOk_writeBytes a v w.bytes h) (fun _ _ => ⟨fun _ => ⟨rfl, rfl, rfl, rfl⟩, nofun⟩)
  case complete =>
    rintro i s t h - hbody
    obtain ⟨hstatus, hcode, h0, h1, h2⟩ := commandBody_status_err hbody
    have herror : t.status.error = s.status.error := congrArg Status.error hstatus
    exact errorLatchOk_congr (t := completeOk t) herror hcode h0 h1 h2 h
  case error => exact fun i s e h _ hbody => ⟨nofun, fun _ => errCodeOf_mem (commandBody_error_kind hbody)⟩
  case register =>
    intro s v r h
    obtain hr | hr | hr | ⟨hstatus, hcode, h0, h1, h2⟩ := writeReg_status_cases v s r
    · rw [hr]
      exact ⟨fun _ => ⟨rfl, rfl, rfl, rfl⟩, nofun⟩
    · rw [hr]
      exact errorLatchOk_writeStatus v h
    · rw [hr]
      exact errorLatchOk_offerCommand v h
    · exact errorLatchOk_congr (congrArg Status.error hstatus) hcode h0 h1 h2 h

/-! ## The counters (R33-R35) -/

/-- A number below 2^n is its n-bit image. -/
theorem toNat_ofNat_of_lt {n v : Nat} (h : v < 2 ^ n) : (BitVec.ofNat n v).toNat = v := by
  rw [BitVec.toNat_ofNat, Nat.mod_eq_of_lt h]

/-- The tiling counts at most 641 tiles and at most 640 map entries (R174, R175). -/
theorem countersOk_tileBackground {s : State} (hg : BackgroundOk s) (h : CountersOk s) :
    CountersOk (tileBackground s) := by
  obtain ⟨hpal, -, -, -, hname⟩ := h
  obtain ⟨-, htiles⟩ := dedup_tiles_length hg
  obtain ⟨-, -, hmap, -⟩ := background_bounds hg
  rw [tileBackground_eq]
  simp only [CountersOk]
  rw [toNat_ofNat_of_lt (by omega), toNat_ofNat_of_lt (by omega), toNat_ofNat_of_lt (by omega)]
  exact ⟨hpal, by omega, rfl, hmap, hname⟩

theorem countersOk_quantize {s t : State} {maxW maxH : Nat} (hbody : quantize maxW maxH s = .ok t) (h : CountersOk s) :
    CountersOk t := by
  obtain ⟨-, rfl⟩ := quantize_ok hbody
  obtain ⟨-, hrest⟩ := h
  obtain ⟨-, hn⟩ := qfn_bounds s.imgW.toNat s.imgH.toNat (rasterPixels s)
  refine ⟨?_, hrest⟩
  rw [toNat_ofNat_of_lt (by omega)]
  exact hn

theorem countersOk_packAtlas {s t : State} (hbody : packAtlas s = .ok t) (h : CountersOk s) : CountersOk t := by
  obtain ⟨⟨-, -, -, -, -, -, hcount⟩, hpass, rfl⟩ := packAtlas_eq hbody
  obtain ⟨hpal, -, -, hmap, -⟩ := h
  have htotal := tilesBefore_le hpass
  rw [emitAtlas_eq]
  simp only [CountersOk]
  rw [toNat_ofNat_of_lt (by omega), toNat_ofNat_of_lt (by omega)]
  exact ⟨hpal, htotal, rfl, hmap, hcount⟩

theorem countersOk_congr {s t : State} (hpal : t.palCount = s.palCount) (htile : t.tileCount = s.tileCount)
    (hword : t.wordCount = s.wordCount) (hmap : t.mapCount = s.mapCount) (hname : t.nameCount = s.nameCount)
    (h : CountersOk s) : CountersOk t := by
  rwa [CountersOk, hpal, htile, hword, hmap, hname]

/-- A command that writes no counter keeps them. -/
theorem countersOk_of_columns {i : Instr} {s t : State} (hcolumns : ColumnsKept i s t) (h1 : i ≠ .quantBg)
    (h2 : i ≠ .quantAtlas) (h3 : i ≠ .bgtile) (h4 : i ≠ .bgtileRemap) (h5 : i ≠ .atlas) (h : CountersOk s) :
    CountersOk t := by
  obtain ⟨-, hpal, -, -, -, -, hmap, htile, hname⟩ := hcolumns
  obtain ⟨htile, hword⟩ := htile h3 h4 h5
  exact countersOk_congr (hpal h1 h2) htile hword (hmap h3 h4).2 (hname h5) h

theorem countersOk_commandBody {i : Instr} {s t : State} (hbody : commandBody i s = .ok t) (h : CountersOk s) :
    CountersOk t := by
  have hcolumns := commandBody_columns hbody
  cases i with
  | quantBg => exact countersOk_quantize hbody h
  | quantAtlas => exact countersOk_quantize hbody h
  | bgtile =>
    obtain ⟨hg, rfl⟩ := backgroundTiles_ok hbody
    exact countersOk_tileBackground hg h
  | bgtileRemap =>
    obtain ⟨hg, rfl⟩ := backgroundTiles_ok hbody
    refine countersOk_tileBackground (remap_background hg) ?_
    rw [if_pos rfl, remap_eq]
    exact h
  | atlas => exact countersOk_packAtlas hbody h
  | _ => exact countersOk_of_columns hcolumns nofun nofun nofun nofun nofun h

/-- Settles O52: QUANT, BGTILE and ATLAS write counters within their bounds, and the resets write 0. -/
theorem stepKeepsCounters : Obligations.StepKeepsCounters := by
  unfold Obligations.StepKeepsCounters
  have hzero : CountersOk (State.powerOn 0 0) := ⟨Nat.zero_le _, Nat.zero_le _, rfl, Nat.zero_le _, Nat.zero_le _⟩
  refine step_keeps (P := CountersOk) (fun _ _ h => h) (fun _ _ h => h)
    (fun i s t h _ hbody => countersOk_commandBody (t := t) hbody h) (fun _ _ _ h _ _ => h) (fun _ h => h) ?register
    ?window (fun _ _ => hzero)
  case register =>
    intro s v r h
    obtain hr | ⟨_, _, _, _, _, _, _, _, _, _, _, _, _, hr⟩ := writeReg_cases v s r <;> rw [hr]
    · exact hzero
    · exact h
  case window =>
    rintro s w a v h - - - -
    obtain ⟨_, _, _, _, _, hs⟩ := writeBytes_frame s a v w.bytes
    rw [hs]
    exact h

/-! ## The CAM (R37) -/

/-- BGTILE leaves one entry for each distinct block, of which a raster has at most 640 (R172, R173). -/
theorem camOk_tileBackground {s : State} (hg : BackgroundOk s) : CamOk (tileBackground s) := by
  have hwalk := dedup_walked s
  obtain ⟨-, hblocks, -⟩ := background_bounds hg
  have hshort := hwalk.short
  rw [rasterBlocks_length] at hshort
  rw [tileBackground_eq]
  simp only [CamOk, hwalk.cam, camFrom_length]
  exact ⟨by omega, camFrom_pairwise hwalk.nodup⟩

theorem camOk_congr {s t : State} (hcam : t.cam = s.cam) (h : CamOk s) : CamOk t := by
  rwa [CamOk, hcam]

theorem camOk_commandBody {i : Instr} {s t : State} (hbody : commandBody i s = .ok t) (h : CamOk s) : CamOk t := by
  have hcolumns := commandBody_columns hbody
  cases i with
  | bgtile =>
    obtain ⟨hg, rfl⟩ := backgroundTiles_ok hbody
    exact camOk_tileBackground hg
  | bgtileRemap =>
    obtain ⟨hg, rfl⟩ := backgroundTiles_ok hbody
    exact camOk_tileBackground (remap_background hg)
  | _ =>
    obtain ⟨-, -, -, -, -, -, hcam, -⟩ := hcolumns
    exact camOk_congr (hcam nofun nofun).1 h

/-- Settles O53: only BGTILE fills the CAM, with the keys of distinct blocks, and the resets empty it. -/
theorem stepKeepsCamUnambiguous : Obligations.StepKeepsCamUnambiguous := by
  unfold Obligations.StepKeepsCamUnambiguous
  have hempty {s : State} (h : s.cam = []) : CamOk s := by simp [CamOk, h]
  refine step_keeps (P := CamOk) (fun _ _ h => h) (fun _ _ h => h)
    (fun i s t h _ hbody => camOk_commandBody (t := t) hbody h) (fun _ _ _ h _ _ => h) (fun _ h => h) ?register ?window
    (fun _ _ => hempty rfl)
  case register =>
    intro s v r h
    obtain hr | ⟨_, _, _, _, _, _, _, _, _, _, _, _, _, hr⟩ := writeReg_cases v s r <;> rw [hr]
    · exact hempty rfl
    · exact h
  case window =>
    rintro s w a v h - - - -
    obtain ⟨_, _, _, _, _, hs⟩ := writeBytes_frame s a v w.bytes
    rw [hs]
    exact h

/-! ## The draws (R85, R255) -/

/-- Every memory's draw has a number below n. -/
def Epochs.below (e : Epochs) (n : Nat) : Prop :=
  e.src < n ∧ e.idx < n ∧ e.map < n ∧ e.tileBuf < n ∧ e.region < n ∧ e.desc < n ∧ e.name < n

/-- An aborted command's memories take draw n, and the others keep theirs. -/
theorem drawOutputs_epochs_below {s : State} {n : Nat} (i : Instr) (h : s.epochs.below n) :
    (drawOutputs i n s).epochs.below (n + 1) := by
  unfold Epochs.below at h ⊢
  cases i <;> simp [drawOutputs, drawQuantOutputs, drawTileBuf, drawMap, drawIdx, drawDesc, drawName] <;> omega

theorem drawsFresh_softReset {s : State} (h : DrawsFresh s) :
    DrawsFresh (softReset s) ∧ s.draws ≤ (softReset s).draws := by
  have hfields : DrawsFresh (softReset s) ↔ DrawsFresh (abortCommand s) := Iff.rfl
  have hdraws : (softReset s).draws = (abortCommand s).draws := rfl
  rw [hfields, hdraws]
  cases hbusy : s.status.busy with
  | false =>
    rw [abortCommand_idle hbusy]
    exact ⟨h, Nat.le_refl _⟩
  | true =>
    rw [abortCommand_busy hbusy]
    exact ⟨drawOutputs_epochs_below _ h, Nat.le_succ _⟩

/-- Settles O55: only an abort and RST draw, each with the counter's number, and each raises the counter past it. -/
theorem stepKeepsDrawsFresh : Obligations.StepKeepsDrawsFresh := by
  unfold Obligations.StepKeepsDrawsFresh
  intro s t hs hstep
  refine step_keeps (P := fun u => DrawsFresh u ∧ s.draws ≤ u.draws) (fun _ _ h => h) (fun _ _ h => h) ?complete
    (fun _ _ _ h _ _ => h) (fun _ h => h) ?register ?window ?reset s t ⟨hs, Nat.le_refl _⟩ hstep
  case complete =>
    rintro i u u' h - hbody
    obtain ⟨_, _, _, _, _, _, _, _, _, _, _, _, rfl⟩ := commandBody_frame hbody
    exact h
  case register =>
    rintro u v r ⟨hfresh, hle⟩
    obtain hr | ⟨_, _, _, _, _, _, _, _, _, _, _, _, _, hr⟩ := writeReg_cases v u r <;> rw [hr]
    · obtain ⟨hfresh', hle'⟩ := drawsFresh_softReset hfresh
      exact ⟨hfresh', hle.trans hle'⟩
    · exact ⟨hfresh, hle⟩
  case window =>
    rintro u w a v h - - - -
    obtain ⟨_, _, _, _, _, hs⟩ := writeBytes_frame u a v w.bytes
    rw [hs]
    exact h
  case reset =>
    rintro u ⟨-, hle⟩
    have hn := Nat.lt_succ_self u.draws
    exact ⟨⟨hn, hn, hn, hn, hn, hn, hn⟩, hle.trans (Nat.le_succ _)⟩

end Sys2Proof.Machine
end

section
/-! The step: which event runs, that it goes on, and when a pending command ends (R38-R40, R262). -/

namespace Sys2Proof.Machine

/-! ## The engine's turn and the event list -/

theorem engineTurn_of_busy {s : State} (h : s.status.busy = true) : engineTurn s = exec (decodeWord s.cmd) s := by
  simp [engineTurn, pendingCommand, h]

theorem engineTurn_of_idle {s : State} (h : s.status.busy = false) : engineTurn s = .next s := by
  simp [engineTurn, pendingCommand, h]

theorem step_of_nil {s : State} (h : s.events = []) : step s = engineTurn s := by
  simp only [step, runNext, h]

theorem step_of_cons {s : State} {e : Event} {es : List Event} (h : s.events = e :: es) :
    step s = runEvent e { s with events := es } := by
  simp only [step, runNext, h]

/-- Settles O5: with the list used up, and on an engine event, the step is the engine's turn. -/
theorem engineTurnRunsPendingCommand : Obligations.EngineTurnRunsPendingCommand := by
  unfold Obligations.EngineTurnRunsPendingCommand
  intro s hbusy
  exact ⟨fun h => (step_of_nil h).trans (engineTurn_of_busy hbusy),
    fun es h => (step_of_cons h).trans (engineTurn_of_busy (s := { s with events := es }) hbusy)⟩

/-- Settles O7: the engine's turn has nothing to run. -/
theorem idleBlockDoesNothing : Obligations.IdleBlockDoesNothing := by
  unfold Obligations.IdleBlockDoesNothing
  intro s hidle
  exact ⟨fun h => (step_of_nil h).trans (engineTurn_of_idle hidle),
    fun es h => (step_of_cons h).trans (engineTurn_of_idle (s := { s with events := es }) hidle)⟩

/-- Settles O8: the step runs the first event of the list. -/
theorem eventsRunInOrder : Obligations.EventsRunInOrder := by
  unfold Obligations.EventsRunInOrder
  exact fun s es w off v => ⟨step_of_cons, step_of_cons, step_of_cons⟩

/-- A table word of 32 bits is decoded as the command word it is (R100). -/
theorem decodeTableWord_word (w : Word) : decodeTableWord 32 w.toNat = some (decodeWord w) := by
  have hw : BitVec.ofNat 32 (w.toNat % 2 ^ 32) = w := by
    rw [Nat.mod_eq_of_lt w.isLt, BitVec.ofNat_toNat, BitVec.setWidth_eq]
  have hbytes := decodeBytes_wordBytes w []
  rw [List.append_nil] at hbytes
  rw [decodeTableWord, if_pos (Nat.le_refl 32), hw, hbytes]

/-- Settles O6: the placed word is in CMD with BUSY set, and the engine's turn is the first event. -/
theorem placedWordRunsNext : Obligations.PlacedWordRunsNext := by
  unfold Obligations.PlacedWordRunsNext
  intro s w i hdecode
  obtain rfl := Option.some.inj ((decodeTableWord_word w).symm.trans hdecode)
  have hplace : s.withFetchWord 32 w.toNat = placeCommand w s := by
    rw [State.withFetchWord, Nat.mod_eq_of_lt w.isLt, BitVec.ofNat_toNat, BitVec.setWidth_eq]
  rw [hplace, step_of_cons (placeCommand_events w s)]
  exact engineTurn_of_busy (s := { placeCommand w s with events := s.events }) rfl

/-! ## Every step goes on -/

theorem engineTurn_goesOn (s : State) : ∃ t, engineTurn s = .next t := by
  cases h : s.status.busy with
  | true => exact engineTurn_of_busy h ▸ exec_next _ s
  | false => exact ⟨s, engineTurn_of_idle h⟩

theorem step_goesOn (s : State) : ∃ t, step s = .next t := by
  cases h : s.events with
  | nil => exact step_of_nil h ▸ engineTurn_goesOn s
  | cons e es =>
    rw [step_of_cons h]
    cases e with
    | engine => exact engineTurn_goesOn _
    | _ => exact ⟨_, rfl⟩

/-- Settles O9: every command ends in a next state, and every access is answered. -/
theorem everyStepGoesOn : Obligations.EveryStepGoesOn := by
  unfold Obligations.EveryStepGoesOn
  exact step_goesOn

/-! ## A pending command ends (R262) -/

/-- However a command ends, BUSY is 0 after it (R40). -/
theorem exec_ends {i : Instr} {s t : State} (h : exec i s = .next t) : t.status.busy = false := by
  obtain ⟨u, -, h'⟩ | ⟨e, -, h'⟩ := exec_cases i s <;> obtain rfl := Host.Outcome.next.inj (h.symm.trans h') <;> rfl

/-- A host read uses no event but its own. -/
theorem hostRead_events (w : Width) (off : Offset) (s : State) : (hostRead w off s).events = s.events := by
  obtain h | ⟨d, h⟩ := hostRead_cases w off s <;> rw [h]
  · rfl
  · rfl

theorem softReset_events (s : State) : (softReset s).events = s.events := by
  obtain ⟨_, _, _, _, _, _, _, -, h⟩ := abortCommand_frame s
  rw [softReset_eq, h]
  rfl

/-- A host write, a soft reset included, uses no event but its own. -/
theorem hostWrite_events (w : Width) (off : Offset) (v : Word) (s : State) :
    (hostWrite w off v s).events = s.events := by
  obtain h | ⟨r, h⟩ | ⟨-, -, -, h⟩ := hostWrite_cases w off v s <;> rw [h]
  · rfl
  · rw [answer_events]
    obtain hr | ⟨_, _, _, _, _, _, _, _, _, _, _, _, _, hr⟩ := writeReg_cases v s r <;> rw [hr]
    exact softReset_events s
  · obtain ⟨_, _, _, _, _, hb⟩ := writeBytes_frame s off.toNat v w.bytes
    rw [answer_events, hb]

/-- A step with a command pending ends it or uses up an event. -/
theorem step_of_busy {s : State} (hbusy : s.status.busy = true) :
    ∃ t, step s = .next t ∧ (t.status.busy = false ∨ t.events.length < s.events.length) := by
  have turn (u : State) (hu : u.status.busy = true) : ∃ t, engineTurn u = .next t ∧ t.status.busy = false := by
    obtain ⟨t, ht⟩ := exec_next (decodeWord u.cmd) u
    exact ⟨t, (engineTurn_of_busy hu).trans ht, exec_ends ht⟩
  cases h : s.events with
  | nil =>
    obtain ⟨t, ht, hidle⟩ := turn s hbusy
    exact ⟨t, (step_of_nil h).trans ht, .inl hidle⟩
  | cons e es =>
    rw [step_of_cons h]
    cases e with
    | engine =>
      obtain ⟨t, ht, hidle⟩ := turn { s with events := es } hbusy
      exact ⟨t, ht, .inl hidle⟩
    | read w off =>
      refine ⟨_, rfl, .inr ?_⟩
      rw [hostRead_events]
      exact Nat.lt_succ_self _
    | write w off v =>
      refine ⟨_, rfl, .inr ?_⟩
      rw [hostWrite_events]
      exact Nat.lt_succ_self _
    | rst => exact ⟨_, rfl, .inl rfl⟩

theorem run_succ_of_step {s t : State} (k : Nat) (h : step s = .next t) :
    Sys2Proof.core.run (k + 1) s = Sys2Proof.core.run k t := by
  have h : Sys2Proof.core.step s = .next t := h
  simp only [Host.Core.run, h]

/-- Settles O10: by induction on the number of waiting events, since each step ends the command or leaves fewer of
them. -/
theorem pendingCommandEnds : Obligations.PendingCommandEnds := by
  unfold Obligations.PendingCommandEnds
  intro s
  induction hn : s.events.length using Nat.strong_induction_on generalizing s with
  | _ n ih =>
    intro hbusy
    obtain ⟨t, hstep, hidle | hfewer⟩ := step_of_busy hbusy
    · exact ⟨1, t, Nat.one_pos, Nat.le_add_left _ _, run_succ_of_step 0 hstep, hidle⟩
    cases htbusy : t.status.busy with
    | false => exact ⟨1, t, Nat.one_pos, Nat.le_add_left _ _, run_succ_of_step 0 hstep, htbusy⟩
    | true =>
      obtain ⟨k, u, hpos, hk, hrun, hidle⟩ := ih _ (hn ▸ hfewer) t rfl htbusy
      exact ⟨k + 1, u, Nat.succ_pos k, by omega, (run_succ_of_step k hstep).trans hrun, hidle⟩

end Sys2Proof.Machine
end

section
/-! The commands' geometry checks (R130, R170, R191, R193) and TUNPACK (R154). -/

namespace Sys2Proof.Machine

/-- Settles O15: each mode's bound is `quantize`'s test. -/
theorem quantRejectsGeometry : Obligations.QuantRejectsGeometry := by
  unfold Obligations.QuantRejectsGeometry
  exact fun s => ⟨fun h => exec_of_geometryError .quantBg (quantize_of_bad h),
    fun h => exec_of_geometryError .quantAtlas (quantize_of_bad h)⟩

/-- Settles O22: both forms make the one geometry test before anything else. -/
theorem bgtileRejectsGeometry : Obligations.BgtileRejectsGeometry := by
  unfold Obligations.BgtileRejectsGeometry
  exact fun s h => ⟨exec_of_geometryError .bgtile (backgroundTiles_of_bad h),
    exec_of_geometryError .bgtileRemap (backgroundTiles_of_bad h)⟩

/-- ATLAS tests REGION_COUNT after the raster (R193). -/
theorem packAtlas_of_count {s : State} (hraster : RasterOk s s.rasterMaxW s.rasterMaxH)
    (hcount : 128 < s.regionCount.toNat) :
    packAtlas s = .error ⟨.capacityExceeded, Config.allOnes, s.regionCount.setWidth 32, 128⟩ := by
  have hok := (rasterOk_iff _ _ _).mpr hraster
  have hmax : Config.regionMax < s.regionCount.toNat := hcount
  simp only [packAtlas, hok, Bool.not_true, Bool.false_eq_true, if_false, if_pos hmax]
  rfl

/-- Settles O27: `packAtlas` tests the raster first, then the count. -/
theorem atlasChecksRasterThenCount : Obligations.AtlasChecksRasterThenCount := by
  unfold Obligations.AtlasChecksRasterThenCount
  refine fun s => ⟨fun h => exec_of_geometryError .atlas (packAtlas_of_bad h), fun hraster hcount => ?count⟩
  case count => exact exec_of_error (i := .atlas) (packAtlas_of_count hraster hcount)

/-- TUNPACK of any other length than 32 raises InvalidTileSize with the length and 32 (R154, R225). -/
theorem exec_tunpack_of_ne {len : BitVec 16} (s : State) (h : len ≠ 32) :
    exec (.tunpack len) s = .next (errorState s 0x03 0xFFFFFFFF (len.setWidth 32) 32) :=
  exec_of_error (e := tileSizeError len 32) (if_neg h)

/-- Settles O20: OPC 0x05 is a length command's, and TIDX is the unpacked TWORD, whose indices `unpack_nib` gives. -/
theorem tunpackUnpacksRows : Obligations.TunpackUnpacksRows := by
  unfold Obligations.TunpackUnpacksRows
  exact ⟨fun w hopc => decodeWord_opc5 hopc,
    fun s => ⟨⟨_, exec_tunpack s, rfl, unpack_nib s.tword⟩, fun _ => exec_tunpack_of_ne s⟩⟩

end Sys2Proof.Machine
end

section
/-! Reset: RST from any state (R250, R251), soft reset with and without a command pending (R254, R255), and that reset
meets every invariant. -/

namespace Sys2Proof.Machine

/-- Settles O44: every field of `powerOnReset` is a constant, a draw or CFG0. -/
theorem powerOnResetFromAnyState : Obligations.PowerOnResetFromAnyState := by
  unfold Obligations.PowerOnResetFromAnyState
  exact fun s => ⟨rfl, irq_of_flags_clear rfl rfl⟩

/-- A CTRL write with bit 31 = 1 is a soft reset (R23, R254). -/
theorem hostWrite_ctrl_of_reset {v : Word} (s : State) (h : v.getLsbD 31 = true) :
    hostWrite .w32 0x000004 v s = answer 0 (registersReset (abortCommand s)) := by
  rw [hostWrite_ctrl, writeCtrl_of_reset s h, softReset_eq]

/-- Settles O45: with no command pending there is nothing to abort. -/
theorem softResetWhenIdle : Obligations.SoftResetWhenIdle := by
  unfold Obligations.SoftResetWhenIdle
  intro s v hidle hreset
  have hword : ctrlWord ⟨false, false, false⟩ = 0 := by decide
  rw [hostWrite_ctrl_of_reset s hreset, abortCommand_idle hidle]
  exact ⟨rfl, hword⟩

/-- An aborted command leaves the register files outside its "writes" column alone (R109, R255). -/
theorem drawOutputs_columns (i : Instr) (n : Nat) (s : State) :
    (i ≠ .quantBg → i ≠ .quantAtlas → i ≠ .bgtileRemap → (drawOutputs i n s).pal = s.pal) ∧
    (i ≠ .encpal → (drawOutputs i n s).palw = s.palw) ∧
    ((∀ len, i ≠ .tpack len) → (drawOutputs i n s).tword = s.tword) ∧
    ((∀ len, i ≠ .tunpack len) → (drawOutputs i n s).tidx = s.tidx) := by
  cases i <;> simp [drawOutputs, drawQuantOutputs, drawTileBuf, drawMap, drawIdx, drawDesc, drawName]

/-- Settles O46: what the abort draws is the command's column, and the registers are reset whatever it draws. -/
theorem softResetAbortsCommand : Obligations.SoftResetAbortsCommand := by
  unfold Obligations.SoftResetAbortsCommand
  intro s v _ hbusy hreset t i
  have ht : t = answer 0 (registersReset { drawOutputs i s.draws s with draws := s.draws + 1 }) := by
    rw [← abortCommand_busy hbusy, ← hostWrite_ctrl_of_reset s hreset]
  rw [ht]
  refine ⟨?fields, rfl, ?memory, drawOutputs_columns i s.draws s⟩
  case fields =>
    obtain ⟨_, _, _, _, _, _, hframe⟩ := drawOutputs_frame i s.draws s
    rw [hframe]
    rfl
  case memory => exact drawOutputs_memSame i s.draws s

/-- Settles O48: reset clears what the invariants bound, and the default raster is 256 × 160. -/
theorem resetMeetsInvariants : Obligations.ResetMeetsInvariants := by
  unfold Obligations.ResetMeetsInvariants
  refine ⟨nil_wf, ⟨rfl, nofun⟩, ⟨fun _ => ⟨rfl, rfl, rfl, rfl⟩, nofun⟩,
    ⟨Nat.zero_le _, Nat.zero_le _, rfl, Nat.zero_le _, Nat.zero_le _⟩, ⟨Nat.zero_le _, List.Pairwise.nil⟩, ?cfg, nofun,
    ?draws⟩
  case cfg =>
    have hw : State.reset.rasterMaxW = 256 := rfl
    have hh : State.reset.rasterMaxH = 160 := rfl
    simp [CfgValid, hw, hh]
  case draws =>
    have hn := Nat.one_pos
    exact ⟨hn, hn, hn, hn, hn, hn, hn⟩

end Sys2Proof.Machine
end

section
/-! BGTILE (R172-R177): its counters and frame, the map and the tile set rebuild the raster, and the deduplication is
exact. -/

namespace Sys2Proof.Machine

/-! ## The tile set -/

/-- The tile set is the blank tile and the distinct blocks (R172, R176, R177 d). -/
theorem dedup_tiles_length_eq (s : State) : (dedup s).tiles.length = 1 + distinctBlocks s (blockCount s) := by
  rw [(dedup_walked s).tiles, List.length_cons, distinctTiles_spec, Nat.add_comm]

section
variable {s : State} (h : BackgroundOk s)
include h

theorem tileCount_tileBackground : (tileBackground s).tileCount.toNat = (dedup s).tiles.length := by
  obtain ⟨-, hlen⟩ := dedup_tiles_length h
  rw [tileBackground_eq]
  exact toNat_ofNat_of_lt (by omega)

theorem wordCount_tileBackground : (tileBackground s).wordCount.toNat = 8 * (dedup s).tiles.length := by
  obtain ⟨-, hlen⟩ := dedup_tiles_length h
  rw [tileBackground_eq]
  exact toNat_ofNat_of_lt (by omega)

theorem mapCount_tileBackground : (tileBackground s).mapCount.toNat = s.mapW.toNat * s.mapH.toNat := by
  obtain ⟨-, -, hmap, -⟩ := background_bounds h
  rw [tileBackground_eq]
  exact toNat_ofNat_of_lt (by omega)

end

/-- Completing a command touches no memory. -/
theorem memSameOutside_completeOk {s t : State} {l : List (Nat × Nat)} (h : MemSameOutside s t l) :
    MemSameOutside s (completeOk t) l := h

theorem exec_bgtile_inv {s t : State} (h : BackgroundOk s) (hexec : exec .bgtile s = .next t) :
    t = completeOk (tileBackground s) := (Host.Outcome.next.inj ((exec_bgtile h).symm.trans hexec)).symm

/-- Settles O23: the walk's tile set gives the counters, and BGTILE stores the map and the tile set alone. -/
theorem bgtileCompletes : Obligations.BgtileCompletes := by
  unfold Obligations.BgtileCompletes
  intro s h
  have hmem : MemSameOutside s (tileBackground s) (storedRanges .bgtile s) :=
    commandBody_memSame (backgroundTiles_of_ok h)
  refine ⟨completeOk (tileBackground s), exec_bgtile h, ?fields, ?counters⟩
  case fields =>
    rw [tileBackground_eq]
    rfl
  case counters =>
    rw [completeOk_tileCount, completeOk_wordCount, completeOk_mapCount, wordCount_tileBackground h,
      tileCount_tileBackground h, mapCount_tileBackground h]
    exact ⟨dedup_tiles_length_eq s, rfl, rfl, memSameOutside_completeOk hmem⟩

/-! ## The map -/

theorem tileAt_completeOk (s : State) (k : Nat) : tileAt (completeOk s) k = tileAt s k := rfl

theorem mapAt_completeOk (s : State) (e : Nat) : mapAt (completeOk s) e = mapAt s e := rfl

/-- Block p's row and column are in the map (R170, R173). -/
theorem block_position {s : State} (h : BackgroundOk s) {p : Nat} (hp : p < blockCount s) :
    p / (s.imgW.toNat / 8) < s.mapH.toNat ∧ p % (s.imgW.toNat / 8) < s.imgW.toNat / 8 := by
  obtain ⟨-, -, -, hrows, -, hwide⟩ := background_bounds h
  rw [blockCount, hrows] at hp
  exact ⟨Nat.div_lt_of_lt_mul hp, Nat.mod_lt _ hwide⟩

/-- The map entry over block p is k + 1, where the block is number k of the distinct blocks (R173, R174). -/
theorem mapAt_block {s : State} (h : BackgroundOk s) {p : Nat} (hp : p < blockCount s) :
    ∃ k, (distinctTiles (rasterBlocks s))[k]? = some (blockAt s p) ∧ k + 1 < (dedup s).tiles.length ∧
      (mapAt (tileBackground s)
        (p / (s.imgW.toNat / 8) * s.mapW.toNat + p % (s.imgW.toNat / 8))).toNat = k + 1 := by
  obtain ⟨hr, hc⟩ := block_position h hp
  obtain ⟨-, -, -, -, hwide, -⟩ := background_bounds h
  obtain ⟨-, hlen⟩ := dedup_tiles_length h
  obtain ⟨k, hk, -, hblock, hdistinct⟩ := dedup_entry s hp
  refine ⟨k, hdistinct, hk, ?_⟩
  have hentry : mapEntry (dedup s).blocks (s.imgW.toNat / 8) (p / (s.imgW.toNat / 8)) (p % (s.imgW.toNat / 8)) =
      (BitVec.ofNat 10 (k + 1)).setWidth 16 := by
    rw [mapEntry, if_pos hc, Nat.mul_comm, Nat.div_add_mod, hblock, Option.getD_some]
  rw [tileBackground_mapAt h hr (by omega), hentry, BitVec.toNat_setWidth_of_le (by decide)]
  exact toNat_ofNat_of_lt (by omega)

/-- Tile k + 1 of TILE_BUF is number k of the distinct blocks (R175). -/
theorem tileAt_distinct {s : State} (h : BackgroundOk s) {k : Nat} {b : Tile}
    (hk : (distinctTiles (rasterBlocks s))[k]? = some b) : tileAt (tileBackground s) (k + 1) = b := by
  obtain ⟨hlt, hget⟩ := List.getElem?_eq_some_iff.mp hk
  have htiles := (dedup_walked s).tiles
  rw [tileBackground_tileAt h (k + 1) (by rw [htiles, List.length_cons]; omega)]
  simp only [htiles, List.getElem_cons_succ, hget]

/-- The block at row r, column c of the raster is a block of the walk (R173). -/
theorem exists_blockAt {s : State} (h : BackgroundOk s) {r c : Nat} (hr : r < s.mapH.toNat)
    (hc : c < s.imgW.toNat / 8) :
    ∃ p, p < blockCount s ∧ p / (s.imgW.toNat / 8) = r ∧ p % (s.imgW.toNat / 8) = c ∧
      blockAt s p = block s (8 * c) (8 * r) := by
  obtain ⟨-, -, -, hrows, -, hwide⟩ := background_bounds h
  have hdiv : (s.imgW.toNat / 8 * r + c) / (s.imgW.toNat / 8) = r := by
    rw [Nat.mul_add_div hwide, Nat.div_eq_of_lt hc, Nat.add_zero]
  have hmod : (s.imgW.toNat / 8 * r + c) % (s.imgW.toNat / 8) = c := by
    rw [Nat.mul_add_mod, Nat.mod_eq_of_lt hc]
  refine ⟨s.imgW.toNat / 8 * r + c, ?_, hdiv, hmod, by rw [blockAt, hdiv, hmod]⟩
  rw [blockCount, hrows]
  calc s.imgW.toNat / 8 * r + c < s.imgW.toNat / 8 * (r + 1) := by rw [Nat.mul_succ]; omega
    _ ≤ s.imgW.toNat / 8 * s.mapH.toNat := Nat.mul_le_mul_left _ hr

/-- Settles O24: a covered entry is over a block of the walk, whose tile is one of the distinct blocks; the other
entries are `mapEntry`'s 0. -/
theorem bgtileMapRebuildsRaster : Obligations.BgtileMapRebuildsRaster := by
  unfold Obligations.BgtileMapRebuildsRaster
  intro s t h hexec
  obtain rfl := exec_bgtile_inv h hexec
  have hwalk := dedup_walked s
  obtain ⟨hpos, hlen⟩ := dedup_tiles_length h
  simp only [mapAt_completeOk, tileAt_completeOk, completeOk_tileCount, tileCount_tileBackground h]
  refine ⟨?blank, fun r c hr hc => ⟨fun hcovered => ?covered, fun hright => ?right⟩⟩
  case blank =>
    rw [tileBackground_tileAt h 0 hpos]
    simp only [hwalk.tiles, List.getElem_cons_zero]
  case covered =>
    obtain ⟨p, hp, rfl, rfl, hblock⟩ := exists_blockAt h hr hcovered
    obtain ⟨k, hk, hlt, hentry⟩ := mapAt_block h hp
    rw [hentry, tileAt_distinct h hk]
    exact ⟨by omega, hlt, by omega, hblock⟩
  case right =>
    rw [tileBackground_mapAt h hr hc, mapEntry, if_neg (Nat.not_lt.mpr hright)]
    rfl

/-- A tile has one number among the distinct blocks (R177 c). -/
theorem distinctTiles_index_inj {s : State} {i j : Nat} {b : Tile} (hi : (distinctTiles (rasterBlocks s))[i]? = some b)
    (hj : (distinctTiles (rasterBlocks s))[j]? = some b) : i = j := by
  obtain ⟨hlt, -⟩ := List.getElem?_eq_some_iff.mp hi
  exact (List.getElem?_inj hlt (dedup_walked s).nodup).mp (hi.trans hj.symm)

/-- Settles O25: an entry is 1 plus its block's number among the distinct blocks, and that number determines the block
and is determined by it. -/
theorem bgtileDeduplicatesExactly : Obligations.BgtileDeduplicatesExactly := by
  unfold Obligations.BgtileDeduplicatesExactly
  intro s t h hexec
  obtain rfl := exec_bgtile_inv h hexec
  simp only [mapAt_completeOk, tileAt_completeOk, completeOk_tileCount, tileCount_tileBackground h]
  refine ⟨fun p q hp hq => ?sameEntry, fun p hp hnew => ?firstOccurrence, fun a b ha1 ha hb1 hb hab => ?sameTile⟩
  case sameEntry =>
    obtain ⟨i, hi, -, hep⟩ := mapAt_block h hp
    obtain ⟨j, hj, -, heq⟩ := mapAt_block h hq
    rw [hep, heq]
    refine ⟨fun hij => ?_, fun hblocks => ?_⟩
    · obtain rfl := Nat.succ.inj hij
      exact Option.some.inj (hi.symm.trans hj)
    · rw [distinctTiles_index_inj hi (hj.trans (congrArg some hblocks.symm))]
  case firstOccurrence =>
    obtain ⟨k, hk, -, he⟩ := mapAt_block h hp
    rw [he, distinctTiles_index_inj hk (distinctTiles_first hp hnew), Nat.add_comm]
  case sameTile =>
    rw [(dedup_walked s).tiles, List.length_cons] at ha hb
    obtain ⟨i, rfl⟩ := Nat.exists_eq_add_of_le' ha1
    obtain ⟨j, rfl⟩ := Nat.exists_eq_add_of_le' hb1
    have hi := List.getElem?_eq_getElem (Nat.lt_of_succ_lt_succ ha)
    have hj := List.getElem?_eq_getElem (Nat.lt_of_succ_lt_succ hb)
    rw [tileAt_distinct h hi, tileAt_distinct h hj] at hab
    rw [distinctTiles_index_inj hi (hj.trans (congrArg some hab.symm))]

end Sys2Proof.Machine
end

section
/-! ATLAS (R190, R199): its counters and its frame when every check passes. -/

namespace Sys2Proof.Machine

/-- Settles O29: pass 2 stores each region's tiles, descriptor and name, and the total is at most 1024. -/
theorem atlasCompletes : Obligations.AtlasCompletes := by
  unfold Obligations.AtlasCompletes
  intro s hinputs hpass
  have hok := packAtlas_of_pass hinputs hpass
  have htotal := tilesBefore_le hpass
  refine ⟨_, exec_of_ok (i := .atlas) hok, ?fields, ?tiles, ?words,
    memSameOutside_completeOk (commandBody_memSame (i := .atlas) hok)⟩
  case fields =>
    rw [emitAtlas_eq]
    rfl
  case tiles => exact toNat_ofNat_of_lt (by omega)
  case words => exact toNat_ofNat_of_lt (by omega)

end Sys2Proof.Machine
end

section
/-! Host accesses: refusals (R63, R65, R77), ignored writes (R66), and that reads change nothing (R78). -/

namespace Sys2Proof.Machine

/-! ## Accesses that are not refused -/

theorem accessOk_of_not_refused {s : State} {w : Width} {off : Offset} (h : ¬ Refused s w off.toNat) :
    accessOk s w off.toNat = true := (accessOk_iff off.isLt).mpr h

theorem aligned_of_not_refused {s : State} {w : Width} {a : Nat} (h : ¬ Refused s w a) : a % w.bytes = 0 :=
  not_not.mp fun hmis => h (.inl hmis)

theorem hostRead_of_accessOk {s : State} {w : Width} {off : Offset} (h : accessOk s w off.toNat = true) :
    hostRead w off s = answer (readData s w off.toNat) s := if_pos h

theorem hostWrite_of_accessOk {s : State} {w : Width} {off : Offset} (v : Word) (h : accessOk s w off.toNat = true) :
    hostWrite w off v s = answer 0 (writeData s w off.toNat v) := if_pos h

theorem writeData_of_reg {s : State} {w : Width} {a : Nat} {r : Reg} (v : Word) (h : regAt a = some r) :
    writeData s w a v = writeReg v s r := by
  rw [writeData, h]

theorem writeData_of_window {s : State} {w : Width} {a : Nat} (v : Word) (h : regAt a = none) :
    writeData s w a v = writeBytes s a v w.bytes := by
  rw [writeData, h]

/-- An accepted write does not set BUSERR (R24, R228). -/
theorem writeData_buserr {s : State} {w : Width} {a : Nat} {v : Word}
    (h : (writeData s w a v).status.buserr = true) : s.status.buserr = true := by
  cases hr : regAt a with
  | some r =>
    rw [writeData_of_reg v hr] at h
    exact writeReg_buserr v s r h
  | none => rwa [writeData_of_window v hr, writeBytes_status] at h

/-- Settles O33: `accessOk` is the negation of `Refused`, and an accepted access only answers or writes its own rule. -/
theorem refusedAccessesSetBuserrOnly : Obligations.RefusedAccessesSetBuserrOnly := by
  unfold Obligations.RefusedAccessesSetBuserrOnly
  intro s w off v
  refine ⟨fun href => ⟨⟨_, hostRead_of_refused href⟩, _, hostWrite_of_refused v href⟩, fun hacc => ?accepted⟩
  case accepted =>
    have hok := accessOk_of_not_refused hacc
    rw [hostRead_of_accessOk hok, hostWrite_of_accessOk v hok]
    exact ⟨⟨_, rfl⟩, ⟨_, rfl⟩, writeData_buserr⟩

/-! ## Read-only locations (R66) -/

/-- Does a host write to the register change nothing? -/
def Reg.readOnly : Reg → Bool
  | .ctrl | .status | .cmd | .imgW | .imgH | .mapW | .mapH | .regionCount | .arg0 => false
  | _ => true

theorem writeReg_readOnly {r : Reg} (h : r.readOnly = true) (v : Word) (s : State) : writeReg v s r = s := by
  cases r with
  | ctrl | status | cmd | imgW | imgH | mapW | mapH | regionCount | arg0 => cases h
  | _ => rfl

theorem regAt_readOnly {a : Nat} (h : a ∈ [0x000, 0x010, 0x014, 0x018, 0x01C, 0x038, 0x03C, 0x040, 0x044, 0x048, 0x04C,
    0x050, 0x054, 0x058]) : ∃ r, regAt a = some r ∧ r.readOnly = true := by
  have hall : ∀ a ∈ [0x000, 0x010, 0x014, 0x018, 0x01C, 0x038, 0x03C, 0x040, 0x044, 0x048, 0x04C, 0x050, 0x054, 0x058],
      ((regAt a).any Reg.readOnly) = true := by decide
  exact (Option.any_eq_true _ _).mp (hall a h)

/-- The read-only windows by their ranges (R61, R66). -/
theorem windowOf_readOnly {a : Nat} (h : (0x000240 ≤ a ∧ a < 0x000260) ∨ (0x000400 ≤ a ∧ a < 0x000900) ∨
      (0x004000 ≤ a ∧ a < 0x006000) ∨ (0x008000 ≤ a ∧ a < 0x010000)) :
    windowOf a = .palw ∨ windowOf a = .map ∨ windowOf a = .desc ∨ windowOf a = .name ∨ windowOf a = .tileBuf := by
  obtain h | h | h | h := h
  · exact .inl (windowOf_eq_palw.mpr h)
  · exact .inr (.inl (windowOf_eq_map.mpr h))
  · by_cases hdesc : a < 0x005000
    · exact .inr (.inr (.inl (windowOf_eq_desc.mpr ⟨h.1, hdesc⟩)))
    · exact .inr (.inr (.inr (.inl (windowOf_eq_name.mpr ⟨Nat.not_lt.mp hdesc, h.2⟩))))
  · exact .inr (.inr (.inr (.inr (windowOf_eq_tileBuf.mpr h))))

/-- Settles O36: a read-only register's `writeReg` and a read-only window's `writeBytes` are the identity. -/
theorem readOnlyLocationsIgnoreWrites : Obligations.ReadOnlyLocationsIgnoreWrites := by
  unfold Obligations.ReadOnlyLocationsIgnoreWrites
  intro s w off v hacc hloc
  refine ⟨false, ?_⟩
  rw [hostWrite_of_accessOk v (accessOk_of_not_refused hacc)]
  suffices h : writeData s w off.toNat v = s by rw [h, answer]
  obtain hreg | hwin := hloc
  · obtain ⟨r, hr, hro⟩ := regAt_readOnly hreg
    rw [writeData_of_reg v hr, writeReg_readOnly hro]
  · rw [writeData_of_window v (regAt_none_of_ge (by omega))]
    exact writeBytes_readOnly (aligned_of_not_refused hacc) (windowOf_readOnly hwin) _ (Nat.le_refl _)

/-! ## Reads change nothing (R78, R85) -/

theorem memByte_hostRead (w : Width) (off : Offset) (s : State) (a : Nat) :
    memByte (hostRead w off s) a = memByte s a := by
  obtain h | ⟨d, h⟩ := hostRead_cases w off s <;> rw [h] <;> exact memByte_congr rfl rfl a

/-- What a read answers does not depend on the port's last answer. -/
theorem readByte_answer (d : Word) (s : State) : readByte (answer d s) = readByte s := rfl

theorem readData_answer (d : Word) (s : State) (w : Width) (a : Nat) : readData (answer d s) w a = readData s w a := by
  rw [readData, readData]
  cases regAt a with
  | some r => cases r <;> rfl
  | none => exact congrArg (fun f => BitVec.ofNat 32 (littleEndian f a w.bytes)) (readByte_answer d s)

/-- A read made again is refused again, or answers the same data again. -/
theorem hostRead_twice (w : Width) (off : Offset) (s : State) :
    (hostRead w off (hostRead w off s)).response.map Response.data = (hostRead w off s).response.map Response.data := by
  by_cases href : Refused s w off.toNat
  · have hagain : Refused (refusedState s Config.refusalIsBusError) w off.toNat := href
    rw [hostRead_of_refused href, hostRead_of_refused hagain]
    rfl
  · have hok := accessOk_of_not_refused href
    have hagain : accessOk (answer (readData s w off.toNat) s) w off.toNat = true := hok
    rw [hostRead_of_accessOk hok, hostRead_of_accessOk hagain, readData_answer]
    rfl

/-- Settles O47: a read and a refused write change BUSERR and the port's answer alone, which no byte and no read
depends on. -/
theorem readsAndRefusedWritesKeepBytes : Obligations.ReadsAndRefusedWritesKeepBytes := by
  unfold Obligations.ReadsAndRefusedWritesKeepBytes
  refine fun s w off v a => ⟨memByte_hostRead w off s a, fun href => ?refused, hostRead_twice w off s⟩
  case refused =>
    rw [hostWrite_of_refused v href]
    exact memByte_congr rfl rfl a

end Sys2Proof.Machine
end

section
/-! The registers as the host sees them: reads of all 23 (R22-R36), and writes to the geometry registers, CTRL and
STATUS (R23, R24, R28-R31). -/

namespace Sys2Proof.Machine

/-- The triple of ARG0 as its number (R31). -/
theorem rgbWord_eq (c : Rgb) : rgbWord c = BitVec.ofNat 32 (c.r.toNat + 256 * c.g.toNat + 65536 * c.b.toNat) := by
  rw [← rgbWord_toNat, BitVec.ofNat_toNat, BitVec.setWidth_eq]

/-- The offsets R77 lists are the control registers'. -/
theorem control_of_offset {r : Reg}
    (h : BitVec.ofNat 21 (regOffset r) ∈ ([0x000, 0x004, 0x008, 0x00C, 0x050, 0x054, 0x058] : List Offset)) :
    r.control = true := by
  revert h
  cases r <;> decide

/-- Settles O56: the listed words are `readReg` of every register, in offset order, each at its own offset. -/
theorem registerReads : Obligations.RegisterReads := by
  unfold Obligations.RegisterReads
  intro s flag words p hp hacc
  have hwords : words = allRegs.map fun r => (BitVec.ofNat 21 (regOffset r), readReg s r) := by
    simp only [allRegs, List.map_cons, List.map_nil, readReg, ctrlWord_eq, statusWord_eq, rgbWord_eq, cfg0_eq s]
    rfl
  rw [hwords] at hp
  obtain ⟨r, -, rfl⟩ := List.mem_map.mp hp
  exact hostRead_reg (hacc.imp_right control_of_offset)

/-- While idle, a write to a register is its rule's, and the register then reads back. -/
theorem hostWrite_reg_readback {s t : State} {r : Reg} {off : Offset} {v d : Word} (hidle : s.status.busy = false)
    (hoff : off = BitVec.ofNat 21 (regOffset r)) (hwrite : writeReg v s r = t) (hbusy : t.status.busy = false)
    (hread : readReg (answer 0 t) r = d) :
    hostWrite .w32 off v s = { t with response := some ⟨0, false⟩ } ∧
      (hostRead .w32 off (hostWrite .w32 off v s)).response = some ⟨d, false⟩ := by
  subst hoff
  have hidle' : (answer 0 t).status.busy = false := hbusy
  rw [hostWrite_reg v (.inl hidle), hwrite, hostRead_reg (.inl hidle'), hread]
  exact ⟨rfl, rfl⟩

theorem writeCtrl_of_idle {v : Word} {s : State} (h : v.getLsbD 31 = false) (hidle : s.status.busy = false) :
    writeCtrl v s = { s with ctrl := ⟨v.getLsbD 0, v.getLsbD 1, v.getLsbD 2⟩ } := by
  rw [writeCtrl, if_neg (Bool.eq_false_iff.mp h), writeCtrlBits, if_neg (Bool.eq_false_iff.mp hidle)]

/-- Settles O40: each register's write is its line of `writeReg`, and reads back by its line of `readReg`. -/
theorem geometryRegisterWrites : Obligations.GeometryRegisterWrites := by
  unfold Obligations.GeometryRegisterWrites
  intro s v hidle wr rd low
  obtain ⟨hw0, hr0⟩ := hostWrite_reg_readback (r := .imgW) (off := 0x020) (v := v) hidle rfl rfl hidle rfl
  obtain ⟨hw1, hr1⟩ := hostWrite_reg_readback (r := .imgH) (off := 0x024) (v := v) hidle rfl rfl hidle rfl
  obtain ⟨hw2, hr2⟩ := hostWrite_reg_readback (r := .mapW) (off := 0x028) (v := v) hidle rfl rfl hidle rfl
  obtain ⟨hw3, hr3⟩ := hostWrite_reg_readback (r := .mapH) (off := 0x02C) (v := v) hidle rfl rfl hidle rfl
  obtain ⟨hw4, hr4⟩ := hostWrite_reg_readback (r := .regionCount) (off := 0x030) (v := v) hidle rfl rfl hidle rfl
  obtain ⟨hw5, hr5⟩ := hostWrite_reg_readback (r := .arg0) (off := 0x034) (v := v) hidle rfl rfl hidle
    (rgbWord_wordRgb v)
  refine ⟨hw0, hr0, hw1, hr1, hw2, hr2, hw3, hr3, hw4, hr4, hw5, hr5, fun henable => ?ctrl⟩
  case ctrl =>
    have hwr : wr 0x004 = answer 0 (writeCtrl v s) := hostWrite_ctrl v s
    rw [hwr, writeCtrl_of_idle henable hidle, answer]

/-- Settles O41: the flags are `writeStatus_status`'s, and bit 2 decides whether `ackError` clears the error
registers. -/
theorem statusWriteClearsFlags : Obligations.StatusWriteClearsFlags := by
  unfold Obligations.StatusWriteClearsFlags
  intro s v keep t
  have ht : t = answer 0 (writeStatus v s) := hostWrite_status v s
  rw [ht]
  refine ⟨writeStatus_status v s, fun hclear => ?cleared, fun hkeep => ?kept⟩
  case cleared => rw [writeStatus, hclear]; rfl
  case kept => rw [writeStatus, hkeep]; rfl

end Sys2Proof.Machine
end

section
/-! Host writes to the memories, the staging registers and PAL: the bytes they leave, least significant first (R42,
R62, R67-R71, R74). -/

namespace Sys2Proof.Machine

/-! ## Writes to IDX, SRC and REGION RAM -/

/-- An aligned access lies in one 32-bit word. -/
theorem access_word {w : Width} {a k : Nat} (hal : a % w.bytes = 0) (hk : k < w.bytes) : (a + k) / 4 = a / 4 := by
  cases w <;> simp only [Width.bytes] at hal hk <;> omega

/-- The hard-wired bytes of a region record are whole words, so an access touches them with all its bytes or none
(R74). -/
theorem hardZero_access {w : Width} {a k : Nat} (hal : a % w.bytes = 0) (hk : k < w.bytes)
    (hwin : windowOf a = .region ∨ windowOf a = .idx ∨ windowOf a = .src) :
    hardZero (a + k) = true ↔ 0x002000 ≤ a ∧ a < 0x004000 ∧ 48 ≤ a % 64 := by
  have hword := access_word hal hk
  have hsame := windowOf_access hal hk
  obtain h | h | h := hwin
  · obtain ⟨hlo, hhi⟩ := windowOf_eq_region.mp h
    obtain ⟨hlo', hhi'⟩ := windowOf_eq_region.mp (hsame.trans h)
    rw [hardZero_region hlo' hhi', decide_eq_true_eq]
    omega
  · obtain ⟨hlo, hhi⟩ := windowOf_eq_idx.mp h
    obtain ⟨hlo', hhi'⟩ := windowOf_eq_idx.mp (hsame.trans h)
    rw [hardZero_idx hlo' hhi']
    exact iff_of_false nofun (by omega)
  · obtain ⟨hlo, hhi⟩ := windowOf_eq_src.mp h
    obtain ⟨hlo', hhi'⟩ := windowOf_eq_src.mp (hsame.trans h)
    rw [hardZero_src hlo' hhi']
    exact iff_of_false nofun (by omega)

theorem accessOk_congr {s t : State} (hstatus : t.status = s.status) (hcfg : t.cfg0 = s.cfg0) (w : Width) (a : Nat) :
    accessOk t w a = accessOk s w a := by
  have hidx : t.idxBytes = s.idxBytes := by simp only [State.idxBytes, State.rasterMaxW, State.rasterMaxH, hcfg]
  have hsrc : t.srcBytes = s.srcBytes := by simp only [State.srcBytes, State.rasterMaxW, State.rasterMaxH, hcfg]
  rw [accessOk, accessOk, hstatus]
  simp only [offsetMapped, hidx, hsrc]

theorem memByte_answer (d : Word) (s : State) (a : Nat) : memByte (answer d s) a = memByte s a := rfl

/-- Settles O37: the access's bytes are stored one by one by `writeBytes_memory`, and a region record's reserved bytes
read 0 whatever is written. -/
theorem memoryWritesAreLittleEndian : Obligations.MemoryWritesAreLittleEndian := by
  unfold Obligations.MemoryWritesAreLittleEndian
  intro s w off v hacc hloc t kept
  have hal := aligned_of_not_refused hacc
  have hok := accessOk_of_not_refused hacc
  have hlarge : 0x05C ≤ off.toNat := by omega
  have hwin : windowOf off.toNat = .region ∨ windowOf off.toNat = .idx ∨ windowOf off.toNat = .src := by
    obtain h | h | h := hloc
    · exact .inr (.inl (windowOf_eq_idx.mpr h))
    · exact .inr (.inr (windowOf_eq_src.mpr ⟨h, off.isLt⟩))
    · exact .inl (windowOf_eq_region.mpr h)
  have hzero {k : Nat} (hk : k < w.bytes) : hardZero (off.toNat + k) = true ↔ kept := hardZero_access hal hk hwin
  obtain ⟨hfields, hbytes⟩ := writeBytes_memory (s := s) (v := v) hal hwin w.bytes (Nat.le_refl _)
  have ht : t = answer 0 (writeBytes s off.toNat v w.bytes) := hostWrite_window v hok hlarge
  have hstored {k : Nat} (hk : k < w.bytes) : memByte t (off.toNat + k) = if kept then 0 else byteOfWord v k := by
    rw [ht, memByte_answer, hbytes]
    simp only [hzero hk, Nat.le_add_right, Nat.add_lt_add_left hk, and_self, if_true, Nat.add_sub_cancel_left]
  refine ⟨⟨false, ?fields, fun _ => rfl⟩, fun k hk => hstored hk, fun b hb => ?outside, fun hkept => ?readback⟩
  case fields =>
    rw [ht, hfields]
    rfl
  case outside =>
    have hout := hb _ List.mem_cons_self
    rw [ht, memByte_answer, hbytes, if_neg hout]
    split
    case isTrue hz => exact (memByte_hardZero hz).symm
    case isFalse => rfl
  case readback =>
    have hstatus : t.status = s.status := ht ▸ writeBytes_status ..
    have hcfg : t.cfg0 = s.cfg0 := ht ▸ writeBytes_cfg0 ..
    have hok' : accessOk t w off.toNat = true := (accessOk_congr hstatus hcfg w off.toNat).trans hok
    have hread (k : Nat) (hk : k < w.bytes) : readByte t (off.toNat + k) = byteOfWord v k := by
      have hsame := windowOf_access hal hk
      rw [readByte_memory (by obtain h | h | h := hwin <;> simp [hsame, h]), hstored hk, if_neg hkept]
    rw [hostRead_window hok' hlarge, readBytes, littleEndian_word hread]
    rfl

/-! ## Writes to the staging registers and PAL -/

/-- The low nibble of a byte of a word. -/
theorem byteOfWord_nib (v : Word) (k : Nat) : (byteOfWord v k).setWidth 4 = v.extractLsb' (8 * k) 4 := by
  ext i hi
  simp [byteOfWord, show i < 8 by omega]

/-- An access's bytes by their offsets in the window instead of in the block. -/
theorem in_access_iff (base k b n : Nat) : (base + k ≤ base + b ∧ base + b < base + k + n) ↔ k ≤ b ∧ b < k + n := by
  omega

section
variable {s : State} {w : Width} {k : Nat} (v : Word) (hidle : s.status.busy = false) (hal : k % w.bytes = 0)
include hidle hal

theorem hostWrite_tidx (hk : k < 64) :
    ∃ x : Tile, hostWrite w (BitVec.ofNat 21 (0x100 + k)) v s = { s with tidx := x, response := some ⟨0, false⟩ } ∧
      ∀ (e : Nat) (he : e < 64),
        x[e] = if k ≤ e ∧ e < k + w.bytes then v.extractLsb' (8 * (e - k)) 4 else s.tidx[e] := by
  have hal' := aligned_add w (base := 0x100) rfl hal
  obtain ⟨x, hx, hget⟩ :=
    writeBytes_tidx (s := s) (v := v) hal' (windowOf_eq_tidx.mpr (by omega)) w.bytes (Nat.le_refl _)
  refine ⟨x, ?_, fun e he => ?_⟩
  · rw [hostWrite_small hidle w v hal' (by omega), hx, answer]
  · rw [hget e he]
    simp only [in_access_iff, Nat.add_sub_add_left, byteOfWord_nib]

theorem hostWrite_key (hk : k < 32) :
    ∃ x : Vector Byte 32,
      hostWrite w (BitVec.ofNat 21 (0x160 + k)) v s = { s with key := x, response := some ⟨0, false⟩ } ∧
      ∀ (e : Nat) (he : e < 32),
        x[e] = if k ≤ e ∧ e < k + w.bytes then byteOfWord v (e - k) else s.key[e] := by
  have hal' := aligned_add w (base := 0x160) rfl hal
  obtain ⟨x, hx, hget⟩ :=
    writeBytes_key (s := s) (v := v) hal' (windowOf_eq_key.mpr (by omega)) w.bytes (Nat.le_refl _)
  refine ⟨x, ?_, fun e he => ?_⟩
  · rw [hostWrite_small hidle w v hal' (by omega), hx, answer]
  · rw [hget e he]
    simp only [in_access_iff, Nat.add_sub_add_left]

theorem hostWrite_tword (hk : k < 32) :
    ∃ x : PackedTile,
      hostWrite w (BitVec.ofNat 21 (0x140 + k)) v s = { s with tword := x, response := some ⟨0, false⟩ } ∧
      ∀ (j c : Nat) (hj : j < 8), c < 4 →
        byteOfWord x[j] c =
          if k ≤ 4 * j + c ∧ 4 * j + c < k + w.bytes then byteOfWord v (4 * j + c - k)
          else byteOfWord s.tword[j] c := by
  have hal' := aligned_add w (base := 0x140) rfl hal
  obtain ⟨x, hx, hget⟩ :=
    writeBytes_tword (s := s) (v := v) hal' (windowOf_eq_tword.mpr (by omega)) w.bytes (Nat.le_refl _)
  refine ⟨x, ?_, fun j c hj hc => ?_⟩
  · rw [hostWrite_small hidle w v hal' (by omega), hx, answer]
  · rw [hget j c hj hc]
    simp only [Nat.add_assoc 0x140 (4 * j) c, in_access_iff, Nat.add_sub_add_left]

theorem hostWrite_pal (hk : k < 64) :
    ∃ x : Vector Rgb 16,
      hostWrite w (BitVec.ofNat 21 (0x200 + k)) v s = { s with pal := x, response := some ⟨0, false⟩ } ∧
      ∀ (j c : Nat) (hj : j < 16), c < 3 →
        byteOfWord (rgbWord x[j]) c =
          if k ≤ 4 * j + c ∧ 4 * j + c < k + w.bytes then byteOfWord v (4 * j + c - k)
          else byteOfWord (rgbWord s.pal[j]) c := by
  have hal' := aligned_add w (base := 0x200) rfl hal
  obtain ⟨x, hx, hget⟩ :=
    writeBytes_pal (s := s) (v := v) hal' (windowOf_eq_pal.mpr (by omega)) w.bytes (Nat.le_refl _)
  refine ⟨x, ?_, fun j c hj hc => ?_⟩
  · rw [hostWrite_small hidle w v hal' (by omega), hx, answer]
  · rw [hget j c hj hc]
    simp only [Nat.add_assoc 0x200 (4 * j) c, in_access_iff, Nat.add_sub_add_left]

end

theorem byteOfWord_rgb (x : Rgb) :
    byteOfWord (rgbWord x) 0 = x.r ∧ byteOfWord (rgbWord x) 1 = x.g ∧ byteOfWord (rgbWord x) 2 = x.b :=
  ⟨rgbByte_eq x (by decide), rgbByte_eq x (by decide), rgbByte_eq x (by decide)⟩

/-- An RGB triple by its three bytes (R69). -/
theorem rgb_eq_of_bytes {x : Rgb} {r g b : Byte} (hr : byteOfWord (rgbWord x) 0 = r)
    (hg : byteOfWord (rgbWord x) 1 = g) (hb : byteOfWord (rgbWord x) 2 = b) : x = ⟨r, g, b⟩ := by
  obtain ⟨h0, h1, h2⟩ := byteOfWord_rgb x
  rw [← hr, ← hg, ← hb, h0, h1, h2]

/-- Settles O38: each window's write stores its bytes at their own offsets, a palette entry taking three of the slot's
four. -/
theorem stagingAndPaletteWrites : Obligations.StagingAndPaletteWrites := by
  unfold Obligations.StagingAndPaletteWrites
  intro s w v k hidle hal wr byte
  refine ⟨fun hk => ?tidx, fun hk => ?tword, fun hk => ?key, fun hk => ?pal⟩
  case tidx =>
    obtain ⟨x, hx, hget⟩ := hostWrite_tidx v hidle hal hk
    have hwr : wr 0x100 = _ := hx
    rw [hwr]
    exact ⟨rfl, hget⟩
  case tword =>
    obtain ⟨x, hx, hget⟩ := hostWrite_tword v hidle hal hk
    have hwr : wr 0x140 = _ := hx
    rw [hwr]
    exact ⟨rfl, hget⟩
  case key =>
    obtain ⟨x, hx, hget⟩ := hostWrite_key v hidle hal hk
    have hwr : wr 0x160 = _ := hx
    rw [hwr]
    exact ⟨rfl, hget⟩
  case pal =>
    obtain ⟨x, hx, hget⟩ := hostWrite_pal v hidle hal hk
    have hwr : wr 0x200 = _ := hx
    rw [hwr]
    refine ⟨⟨false, rfl, fun _ => rfl⟩, fun e he => ?_⟩
    obtain ⟨hr, hg, hb⟩ := byteOfWord_rgb s.pal[e]
    refine rgb_eq_of_bytes ((hget e 0 he (by decide)).trans ?_) ((hget e 1 he (by decide)).trans ?_)
      ((hget e 2 he (by decide)).trans ?_)
    · rw [hr]; rfl
    · rw [hg]; rfl
    · rw [hb]; rfl

end Sys2Proof.Machine
end

section
/-! What the host reads in the windows (R42, R43, R62, R66-R76): each window as the image of its bytes, then element by
element. -/

namespace Sys2Proof.Machine

/-! ## The windows as images of their bytes -/

/-- A read of width w at block offset a answers the number v. -/
def ReadAnswers (s : State) (w : Width) (a v : Nat) : Prop :=
  ((hostRead w (BitVec.ofNat 21 a) s).response.map fun r => r.data.toNat) = some v

/-- Aligned reads of every width in a window of `size` bytes from `base` on give the little-endian values of the bytes
f. -/
def ReadsImage (s : State) (base size : Nat) (f : Nat → Byte) : Prop :=
  ∀ (w : Width) (k : Nat), k % w.bytes = 0 → k + w.bytes ≤ size → ReadAnswers s w (base + k) (littleEndian f k w.bytes)

/-- An offset of a window that is whole in the map: a register file, or one of the memories but IDX and SRC (R61). -/
def InWholeWindow (a : Nat) : Prop :=
  (0x100 ≤ a ∧ a < 0x180) ∨ (0x200 ≤ a ∧ a < 0x260) ∨ (0x400 ≤ a ∧ a < 0x900) ∨ (0x2000 ≤ a ∧ a < 0x6000) ∨
    (0x8000 ≤ a ∧ a < 0x10000)

/-- An offset of a memory that is whole in the map: MAP, REGION, DESC, NAME or TILE_BUF (R61). -/
def InWholeMemory (a : Nat) : Prop :=
  (0x400 ≤ a ∧ a < 0x900) ∨ (0x2000 ≤ a ∧ a < 0x6000) ∨ (0x8000 ≤ a ∧ a < 0x10000)

theorem InWholeMemory.inWholeWindow {a : Nat} (h : InWholeMemory a) : InWholeWindow a := .inr (.inr h)

theorem InWholeMemory.windowOf_cases {a : Nat} (h : InWholeMemory a) :
    windowOf a = .map ∨ windowOf a = .region ∨ windowOf a = .desc ∨ windowOf a = .name ∨ windowOf a = .tileBuf := by
  simp only [windowOf_eq_map, windowOf_eq_region, windowOf_eq_desc, windowOf_eq_name, windowOf_eq_tileBuf]
  unfold InWholeMemory at h
  omega

theorem InWholeMemory.readByte_eq {a : Nat} (h : InWholeMemory a) (s : State) : readByte s a = memByte s a :=
  readByte_memory (by obtain h | h | h | h | h := h.windowOf_cases <;> simp [h])

/-- An aligned access to a memory that is whole in the map stays in it. -/
theorem InWholeMemory.access {w : Width} {a k : Nat} (h : InWholeMemory a) (hal : a % w.bytes = 0) (hk : k < w.bytes) :
    InWholeMemory (a + k) := by
  have hword := access_word hal hk
  unfold InWholeMemory at h ⊢
  omega

theorem Width.bytes_pos (w : Width) : 0 < w.bytes := by cases w <;> decide

section
variable {s : State} (hidle : s.status.busy = false)
include hidle

/-- A window that is whole in the map reads as the image of its bytes. -/
theorem readsImage_whole {base size : Nat} {f : Nat → Byte} (hbase : base % 4 = 0) (hlo : 0x5C ≤ base)
    (hhi : base + size ≤ 0x200000) (hrange : ∀ b, b < size → InWholeWindow (base + b))
    (hf : ∀ b, b < size → readByte s (base + b) = f b) : ReadsImage s base size f := by
  refine hostRead_image hlo hhi (fun w k hal hk => ?_) hf
  have hpos := w.bytes_pos
  exact accessOk_small hidle (aligned_add w hbase hal) (hrange k (by omega))

/-- One of the memories that is whole in the map reads as its bytes. -/
theorem readsImage_memory {base size : Nat} (hbase : base % 4 = 0) (hlo : 0x5C ≤ base) (hhi : base + size ≤ 0x200000)
    (hrange : ∀ b, b < size → InWholeMemory (base + b)) : ReadsImage s base size fun b => memByte s (base + b) :=
  readsImage_whole hidle hbase hlo hhi (fun b hb => (hrange b hb).inWholeWindow) fun b hb => (hrange b hb).readByte_eq s

theorem readsImage_idx :
    ReadsImage s 0x20000 (min 0x20000 (s.rasterMaxW * s.rasterMaxH / 2)) fun b => memByte s (0x20000 + b) := by
  refine hostRead_image (by decide) (by omega) (fun w k hal hk => accessOk_idx hidle hal hk) fun b hb => ?_
  have hwin : windowOf (0x20000 + b) = .idx := windowOf_eq_idx.mpr (by omega)
  exact readByte_memory (by simp [hwin])

theorem readsImage_src :
    ReadsImage s 0x100000 (min 0x100000 (s.rasterMaxW * s.rasterMaxH * 4)) fun b => memByte s (0x100000 + b) := by
  refine hostRead_image (by decide) (by omega) (fun w k hal hk => accessOk_src hidle hal hk) fun b hb => ?_
  have hwin : windowOf (0x100000 + b) = .src := windowOf_eq_src.mpr (by omega)
  exact readByte_memory (by simp [hwin])

end

/-- Byte c of a palette slot as the host sees it (R69). -/
theorem readByte_pal_slot (s : State) {b : Nat} (hb : b < 64) :
    readByte s (0x200 + b) =
      let c := (s.pal[b / 4]?).getD ⟨0, 0, 0⟩
      if b % 4 = 0 then c.r else if b % 4 = 1 then c.g else if b % 4 = 2 then c.b else 0 := by
  rw [readByte_pal s hb, rgbByte_eq _ (Nat.mod_lt _ (by decide))]

/-- The bytes of a halfword are the low bytes of its word. -/
theorem byteOfWord_half (p : BitVec 15) {k : Nat} (hk : k < 2) :
    byteOfWord (p.setWidth 32) k = (p.setWidth 16).extractLsb' (8 * k) 8 := by
  ext i hi
  simp [byteOfWord, show 8 * k + i < 16 by omega, show 8 * k + i < 32 by omega]

theorem readByte_palw_half (s : State) {b : Nat} (hb : b < 32) :
    readByte s (0x240 + b) = (((s.palw[b / 2]?).getD 0).setWidth 16).extractLsb' (8 * (b % 2)) 8 := by
  rw [readByte_palw s hb, byteOfWord_half _ (Nat.mod_lt _ (by decide))]

/-! ## The windows by element -/

theorem littleEndian_one (f : Nat → Byte) (a : Nat) : littleEndian f a 1 = (f a).toNat := by
  simp [littleEndian]

section
variable {s : State} (hidle : s.status.busy = false)
include hidle

/-- In a window that is whole in the map a read answers the value of the bytes the host sees. -/
theorem readAnswers_iff {w : Width} {a v : Nat} (hal : a % w.bytes = 0) (h : InWholeWindow a) :
    ReadAnswers s w a v ↔ littleEndian (readByte s) a w.bytes = v := by
  rw [ReadAnswers, hostRead_small hidle hal h, Option.some.injEq]

/-- In a memory that is whole in the map those bytes are the memory's. -/
theorem readAnswers_memory_iff {w : Width} {a v : Nat} (hal : a % w.bytes = 0) (h : InWholeMemory a) :
    ReadAnswers s w a v ↔ littleEndian (memByte s) a w.bytes = v := by
  rw [readAnswers_iff hidle hal h.inWholeWindow, littleEndian_congr fun k hk => (h.access hal hk).readByte_eq s]

theorem readAnswers_tidx {k : Nat} (hk : k < 64) : ReadAnswers s .w8 (0x100 + k) (s.tidx[k]).toNat := by
  rw [readAnswers_iff hidle (Nat.mod_one _) (.inl (by omega)), Width.bytes, littleEndian_one, readByte_tidx s hk,
    Vector.getElem?_eq_getElem hk, Option.getD_some, BitVec.toNat_setWidth_of_le (by decide)]

theorem readAnswers_tword {j : Nat} (hj : j < 8) : ReadAnswers s .w32 (0x140 + 4 * j) (s.tword[j]).toNat := by
  rw [readAnswers_iff hidle (by simp only [Width.bytes]; omega) (.inl (by omega))]
  refine littleEndian_bytesOfWord fun c hc => ?_
  rw [Nat.add_assoc, readByte_tword s (by omega), show (4 * j + c) / 4 = j by omega, show (4 * j + c) % 4 = c by omega,
    Vector.getElem?_eq_getElem hj, Option.getD_some]

theorem readAnswers_key {b : Nat} (hb : b < 32) : ReadAnswers s .w8 (0x160 + b) (s.key[b]).toNat := by
  rw [readAnswers_iff hidle (Nat.mod_one _) (.inl (by omega)), Width.bytes, littleEndian_one, readByte_key s hb,
    Vector.getElem?_eq_getElem hb, Option.getD_some]

theorem readAnswers_pal {k : Nat} (hk : k < 16) :
    ReadAnswers s .w32 (0x200 + 4 * k)
      ((s.pal[k]).r.toNat + 256 * (s.pal[k]).g.toNat + 65536 * (s.pal[k]).b.toNat) := by
  rw [readAnswers_iff hidle (by simp only [Width.bytes]; omega) (.inr (.inl (by omega))), ← rgbWord_toNat]
  refine littleEndian_bytesOfWord fun c hc => ?_
  rw [Nat.add_assoc, readByte_pal s (by omega), show (4 * k + c) / 4 = k by omega, show (4 * k + c) % 4 = c by omega,
    Vector.getElem?_eq_getElem hk, Option.getD_some]

theorem readAnswers_palw {k : Nat} (hk : k < 16) : ReadAnswers s .w16 (0x240 + 2 * k) (s.palw[k]).toNat := by
  have hlt := (s.palw[k]).isLt
  have hbytes (c : Nat) (hc : c < 2) : readByte s (0x240 + 2 * k + c) = byteOfWord (s.palw[k].setWidth 32) c := by
    rw [Nat.add_assoc, readByte_palw s (by omega), show (2 * k + c) / 2 = k by omega,
      show (2 * k + c) % 2 = c by omega, Vector.getElem?_eq_getElem hk, Option.getD_some]
  rw [readAnswers_iff hidle (by simp only [Width.bytes]; omega) (.inr (.inl (by omega))), Width.bytes,
    littleEndian_word hbytes, BitVec.toNat_setWidth_of_le (by decide), Nat.mod_eq_of_lt (by omega)]

theorem readAnswers_map {e : Nat} (he : e < 640) : ReadAnswers s .w16 (0x400 + 2 * e) (mapAt s e).toNat := by
  rw [readAnswers_memory_iff hidle (by simp only [Width.bytes]; omega) (.inl (by omega))]
  exact (toNat_ofNat_of_lt (littleEndian_lt _ _ 2)).symm

theorem readAnswers_tileBuf {i : Nat} (hi : i < 8192) :
    ReadAnswers s .w32 (0x8000 + 4 * i) (tileWord s i).toNat ∧
      ReadAnswers s .w8 (0x8000 + 4 * i + 1) ((tileWord s i).toNat / 256 % 256) := by
  rw [readAnswers_memory_iff hidle (by simp only [Width.bytes]; omega) (.inr (.inr (by omega))),
    readAnswers_memory_iff hidle (Nat.mod_one _) (.inr (.inr (by omega)))]
  refine ⟨(memWord_toNat s _).symm, ?_⟩
  rw [Width.bytes, littleEndian_one, ← byteOfWord_memWord s (0x8000 + 4 * i) 1 (by decide), byteOfWord_toNat]
  rfl

/-- A word of hard-wired bytes reads 0 (R74, V15). -/
theorem readAnswers_hardZero {a : Nat} (hal : a % 4 = 0) (h : InWholeMemory a)
    (hzero : ∀ k, k < 4 → hardZero (a + k) = true) : ReadAnswers s .w32 a 0 := by
  rw [readAnswers_memory_iff hidle hal h]
  refine littleEndian_bytesOfWord (w := 0) fun k hk => ?_
  rw [memByte_hardZero (hzero k hk)]
  simp [byteOfWord]

theorem readAnswers_desc_word7 {i : Nat} (hi : i < 128) : ReadAnswers s .w32 (0x4000 + 32 * i + 28) 0 := by
  refine readAnswers_hardZero hidle (by omega) (.inr (.inl (by omega))) fun k hk => ?_
  rw [hardZero_desc (by omega) (by omega)]
  exact decide_eq_true (by omega)

theorem readAnswers_region_reserved {i : Nat} (hi : i < 128) : ReadAnswers s .w32 (0x2000 + 64 * i + 48) 0 := by
  refine readAnswers_hardZero hidle (by omega) (.inr (.inl (by omega))) fun k hk => ?_
  rw [hardZero_region (by omega) (by omega)]
  exact decide_eq_true (by omega)

end

/-- Settles O39: each window is the image of its `readByte`s, and each element the value of its bytes. -/
theorem windowReads : Obligations.WindowReads := by
  unfold Obligations.WindowReads
  intro s hidle
  refine ⟨?tidx, ?tword, ?key, ?pal, ?palw, ?map, ?region, ?desc, ?name, ?tileBuf, readsImage_idx hidle,
    readsImage_src hidle, fun k => readAnswers_tidx hidle, fun j => readAnswers_tword hidle,
    fun b => readAnswers_key hidle, fun k => readAnswers_pal hidle, fun k => readAnswers_palw hidle,
    fun e => readAnswers_map hidle, fun w => readAnswers_tileBuf hidle,
    fun i hi => ⟨readAnswers_desc_word7 hidle hi, readAnswers_region_reserved hidle hi⟩⟩
  case tidx =>
    exact readsImage_whole hidle (by decide) (by decide) (by decide) (fun b hb => .inl (by omega))
      fun b => readByte_tidx s
  case tword =>
    exact readsImage_whole hidle (by decide) (by decide) (by decide) (fun b hb => .inl (by omega))
      fun b => readByte_tword s
  case key =>
    exact readsImage_whole hidle (by decide) (by decide) (by decide) (fun b hb => .inl (by omega))
      fun b => readByte_key s
  case pal =>
    exact readsImage_whole hidle (by decide) (by decide) (by decide) (fun b hb => .inr (.inl (by omega)))
      fun b => readByte_pal_slot s
  case palw =>
    exact readsImage_whole hidle (by decide) (by decide) (by decide) (fun b hb => .inr (.inl (by omega)))
      fun b => readByte_palw_half s
  case map | region | desc | name | tileBuf =>
    exact readsImage_memory hidle (by decide) (by decide) (by decide) fun b hb => by unfold InWholeMemory; omega

end Sys2Proof.Machine
end
